-- ==== Sys2Proof/Word.lean ====
section
/-! DEFINITION. Sys2Proof/Word.lean: the byte and the 32-bit word. Registers hold these; a rule's arithmetic
is on naturals (R8), reached with `toNat`. -/
namespace Sys2Proof

/-- One byte of a buffer or of a byte register (20_memory.md R50). -/
abbrev Byte := BitVec 8

/-- A 32-bit register or command word (10_state.md R29 to R33; `OPERAND_WIDTH` = 32, R6). -/
abbrev Word := BitVec 32

end Sys2Proof
end

