-- ==== Sys2Proof/Machine/Bits.lean ====
section
/-! DEFINITION. Sys2Proof/Machine/Bits.lean: bit fields of naturals (00_scope.md R9, R10) and little-endian byte
strings (R11). -/
namespace Sys2Proof.Machine

/-- `v[i]` (R10). -/
def bitAt (v i : Nat) : Nat := (v >>> i) % 2

/-- `v[hi:lo]` (R10). -/
def bitsAt (v hi lo : Nat) : Nat := (v >>> lo) % 2 ^ (hi + 1 - lo)

/-- `t & ~(2^k - 1)` (R9). -/
def clearLow (t k : Nat) : Nat := t - t % 2 ^ k

/-- `|a - b|` (R9). -/
def absDiff (a b : Nat) : Nat := (a - b) + (b - a)

/-- `LE(b)` (R11). -/
def leNat : List Byte → Nat
  | [] => 0
  | b :: bs => b.toNat + 256 * leNat bs

/-- `LEbytes_n(v)` (R11). -/
def leBytes : Nat → Nat → List Byte
  | 0, _ => []
  | n + 1, v => BitVec.ofNat 8 v :: leBytes n (v / 256)

/-- The sum over k of `f k << (w·k)` for k = 0, 1, ..., packing fixed-width codes (42_block_codec.md R191). -/
def packCodes (w : Nat) : List Nat → Nat
  | [] => 0
  | c :: cs => c + 2 ^ w * packCodes w cs

/-- A byte register's content from a byte string; bytes the string lacks are 0 (never used: every caller gives all). -/
def bytesOf (n : Nat) (l : List Byte) : Vector Byte n :=
  ⟨⟨(List.range n).map fun k => l.getD k 0⟩, by simp⟩

end Sys2Proof.Machine
end

