-- ==== Sys2Proof/Syntax.lean ====
section
/-! DEFINITION. Sys2Proof/Syntax.lean: the twelve commands of the opcode map (30_encoding.md R71), the names of
the registers, and the lines of a host program (R85). -/
namespace Sys2Proof

/-- The commands, in the order of 30_encoding.md R71. A command word has no operand field (R70): every operand
comes from the operand registers. -/
inductive Instr where
  /-- `ADDR`, 40_address_engine.md R116. -/
  | addr
  /-- `ADDR_LINEAR`, R117. -/
  | addrLinear
  /-- `ADDR_MICRO`, R118. -/
  | addrMicro
  /-- `ADDR_MACRO`, R128. -/
  | addrMacro
  /-- `RETILE_TO_LINEAR`, 41_tiling_orchestrator.md R154. -/
  | retileToLinear
  /-- `RETILE_TO_TILED`, R155. -/
  | retileToTiled
  /-- `DECODE_BLOCK`, 42_block_codec.md R176. -/
  | decodeBlock
  /-- `ENCODE_BLOCK`, R192. -/
  | encodeBlock
  /-- `DECODE_SURFACE`, 43_pipeline.md R221. -/
  | decodeSurface
  /-- `ENCODE_SURFACE`, R222. -/
  | encodeSurface
  /-- `DECODE_LINEAR`, R223. -/
  | decodeLinear
  /-- `ENCODE_LINEAR`, R224. -/
  | encodeLinear
deriving DecidableEq, Repr

/-- The 32-bit operand registers of 10_state.md R30 to R33, in the spec's order. `BLK` and `TEX` are wider and stand
apart. -/
inductive OperandReg where
  | x | y | slice | sample | bpp | pitch | height | numSlices | numSamples | tileMode | swizzle
  | dWidth | dHeight | dDepth | dFormat | dTileMode | dSwizzle | dPitch | dSamples | dSlices | dDataSize
  | imgW | imgH | blkX | blkY
  | srcLen | dstCap
deriving DecidableEq, Repr

/-- What a host may name in a read (10_state.md R37): the result registers, `STATUS`, the bytes
`DST[a .. a+n-1]`, and `CMD`, whose read has no value (R29). -/
inductive ReadTarget where
  | resByte | resBit | resBlk | resTex | resLen
  | status
  | dst (a n : Nat)
  | cmd
deriving DecidableEq, Repr

/-- One line of a host program (30_encoding.md R85), and the host's other actions: writing bytes of `DST`
(10_state.md R37), reading (R37), writing `STATUS` (R36) and resetting the instance (R271). Values are written as
the assembler reads them; WellFormed.lean says which lines are actions. The lines R85's table does not have are
DESIGN CHOICE (log 20), safe. -/
inductive HostLine where
  /-- `set REG, value`, for a 32-bit register. -/
  | set (r : OperandReg) (value : Nat)
  /-- `set BLK, value` (10_state.md R32): the 128-bit little-endian integer of the block (R78). DEDUCED (log 23), unsafe. -/
  | setBlk (value : Nat)
  /-- `set TEX, value` (10_state.md R32): the 64 bytes as a little-endian integer (00_scope.md R11). DESIGN CHOICE (log 23),
  unsafe. -/
  | setTex (value : Nat)
  /-- `load SRC, offset, b0 b1 ... bn`. -/
  | loadSrc (offset : Nat) (bytes : List Byte)
  /-- The host writes bytes into `DST` before a command (R37, R51). -/
  | loadDst (offset : Nat) (bytes : List Byte)
  /-- `load BLK, b0 ... b15`. -/
  | loadBlk (bytes : List Byte)
  /-- `load TEX, b0 ... b63`. -/
  | loadTex (bytes : List Byte)
  /-- `MNEMONIC` or `.word 0xHHHHHHHH`: the host writes this word to `CMD`. -/
  | command (w : Word)
  /-- `copy SRC, DST, n`. -/
  | copySrcDst (n : Nat)
  /-- `copy BLK, RES_BLK`. -/
  | copyBlk
  /-- `copy TEX, RES_TEX`. -/
  | copyTex
  /-- The host reads. -/
  | read (t : ReadTarget)
  /-- The host writes a word to `STATUS`. -/
  | writeStatus (w : Word)
  /-- The host resets the instance. -/
  | reset
deriving DecidableEq, Repr

end Sys2Proof
end

