-- ==== Sys2Proof/WellFormed.lean ====
section
/-! DEFINITION. Sys2Proof/WellFormed.lean: which terms of Syntax.lean are instructions and host actions. -/
namespace Sys2Proof

/-- A command has no operand (30_encoding.md R70), so each is well formed. -/
def Instr.wf : Instr → Bool
  | .addr | .addrLinear | .addrMicro | .addrMacro | .retileToLinear | .retileToTiled
  | .decodeBlock | .encodeBlock | .decodeSurface | .encodeSurface | .decodeLinear | .encodeLinear => true

/-- Which lines are host actions (R85): a set value fits its register, of 32 bits, 16 bytes or 64 (10_state.md R30 to R33),
`BLK` takes 16 bytes and `TEX` 64 (R32), and a buffer load names at least one byte. -/
def HostLine.wf : HostLine → Bool
  | .set _ value => decide (value < 2 ^ 32)
  | .setBlk value => decide (value < 256 ^ 16)
  | .setTex value => decide (value < 256 ^ 64)
  | .loadSrc _ bytes => !bytes.isEmpty
  | .loadDst _ bytes => !bytes.isEmpty
  | .loadBlk bytes => decide (bytes.length = 16)
  | .loadTex bytes => decide (bytes.length = 64)
  | .command _ => true
  | .copySrcDst _ => true
  | .copyBlk => true
  | .copyTex => true
  | .read _ => true
  | .writeStatus _ => true
  | .reset => true

end Sys2Proof
end

