-- ==== Sys2Proof/Decode.lean ====
section
/-! DEFINITION. Sys2Proof/Decode.lean: the command word (30_encoding.md R70 to R72): a total decoder that rejects by
name, and the encoder. -/
namespace Sys2Proof

/-- Why a word names no command (R72, R83). -/
inductive IllegalWord where
  /-- `w[31:8] != 0`. -/
  | reservedBits
  /-- `w[7:0] = 0x00` or `w[7:0] >= 0x0D`. -/
  | opcode
deriving DecidableEq, Repr

/-- `OP`, bits 7:0 of the word (R70). -/
def cmdOp (w : Word) : Nat := (w.extractLsb' 0 8).toNat

/-- `RSVD`, bits 31:8 of the word (R70). -/
def cmdReserved (w : Word) : Nat := (w.extractLsb' 8 24).toNat

/-- The command of an operation code (R71). -/
def instrOfOp : Nat → Option Instr
  | 0x01 => some .addr
  | 0x02 => some .addrLinear
  | 0x03 => some .addrMicro
  | 0x04 => some .addrMacro
  | 0x05 => some .retileToLinear
  | 0x06 => some .retileToTiled
  | 0x07 => some .decodeBlock
  | 0x08 => some .encodeBlock
  | 0x09 => some .decodeSurface
  | 0x0A => some .encodeSurface
  | 0x0B => some .decodeLinear
  | 0x0C => some .encodeLinear
  | _ => none

/-- Command decode (R72): total on every word; the reserved bits are tested first. -/
def decode (w : Word) : Except IllegalWord Instr :=
  if cmdReserved w ≠ 0 then .error .reservedBits
  else match instrOfOp (cmdOp w) with
    | some i => .ok i
    | none => .error .opcode

/-- The operation code of a command (R71). -/
def opcode : Instr → Byte
  | .addr => 0x01
  | .addrLinear => 0x02
  | .addrMicro => 0x03
  | .addrMacro => 0x04
  | .retileToLinear => 0x05
  | .retileToTiled => 0x06
  | .decodeBlock => 0x07
  | .encodeBlock => 0x08
  | .decodeSurface => 0x09
  | .encodeSurface => 0x0A
  | .decodeLinear => 0x0B
  | .encodeLinear => 0x0C

/-- The word of a command: `0x000000OP` (R70, R85). -/
def encode (i : Instr) : Word := (opcode i).zeroExtend 32

/-- The decoder on a word numbered as spec/opcode_table.json numbers its bits; the bits from `nbits` up are 0. A
command is one word of a register, so no byte order enters (R50, R84). -/
def decodeTableWord (nbits w : Nat) : Option Instr :=
  if nbits ≤ 32 then
    match decode (BitVec.ofNat 32 (w % 2 ^ nbits)) with
    | .ok i => some i
    | .error _ => none
  else none

end Sys2Proof
end

