-- ==== Sys2Proof/Machine/Causes.lean ====
section
/-! DEFINITION. Sys2Proof/Machine/Causes.lean: the causes of 60_exceptions.md R242, each with its `STATUS.CODE` and
`STATUS.INFO`. -/
namespace Sys2Proof.Machine

/-- Every error a command can end in (R240, R242). An error is a result of the command, not a stop. -/
inductive Cause where
  | profileNotAdmitted | tileModeRange | bppRange | pitchZero | heightZero | slicesZero | samplesZero
  | sampleSplit | swapWidthZero | formatUnknown | classMismatch | swapEightBanks | offsetWidth
  | notSingle | payloadBpp | notBc3 | emptySurface
  | srcShort | dstShort | tiledRange
  | illegalReserved | illegalOpcode
deriving DecidableEq, Repr

/-- `STATUS.CODE` of a cause: 1 ConfigurationError, 2 PreconditionViolation, 3 IllegalCommand (R242). -/
def Cause.code : Cause → BitVec 2
  | .srcShort | .dstShort | .tiledRange => 2
  | .illegalReserved | .illegalOpcode => 3
  | .profileNotAdmitted | .tileModeRange | .bppRange | .pitchZero | .heightZero | .slicesZero | .samplesZero
  | .sampleSplit | .swapWidthZero | .formatUnknown | .classMismatch | .swapEightBanks | .offsetWidth
  | .notSingle | .payloadBpp | .notBc3 | .emptySurface => 1

/-- `STATUS.INFO` of a cause (R242). -/
def Cause.info : Cause → Byte
  | .profileNotAdmitted => 1
  | .tileModeRange => 2
  | .bppRange => 3
  | .pitchZero => 4
  | .heightZero => 5
  | .slicesZero => 6
  | .samplesZero => 7
  | .sampleSplit => 8
  | .swapWidthZero => 9
  | .formatUnknown => 10
  | .classMismatch => 11
  | .swapEightBanks => 12
  | .offsetWidth => 13
  | .notSingle => 14
  | .payloadBpp => 15
  | .notBc3 => 16
  | .emptySurface => 17
  | .srcShort => 1
  | .dstShort => 2
  | .tiledRange => 3
  | .illegalReserved => 1
  | .illegalOpcode => 2

/-- The cause an illegal word raises (30_encoding.md R72). -/
def causeOfIllegal : IllegalWord → Cause
  | .reservedBits => .illegalReserved
  | .opcode => .illegalOpcode

end Sys2Proof.Machine
end

