-- ==== Sys2Proof/Config.lean ====
section
/-! DEFINITION. Sys2Proof/Config.lean: what is fixed for one engine instance (00_scope.md R6, R7): the hardware
profile, the format table and the behaviour parameters, as plain data. Their checks, their defaults and the meaning
of the band predicate are in Machine/Params.lean. -/
namespace Sys2Proof

/-- `PROFILE` (10_state.md R25). -/
structure Profile where
  pipes : Nat
  banks : Nat
  groupBytes : Nat
  rowSize : Nat
  splitSize : Nat
  swapSize : Nat
deriving DecidableEq, Repr

/-- `BSW_HALVE_WHILE` (R27, 40_address_engine.md R113). -/
inductive HalveWhile where
  | gt | ge
deriving DecidableEq, Repr

/-- `ALPHA_BAND : (min, max) → Bool` (R27), OPEN, as plain data: the spec's default (42_block_codec.md R181), or
any predicate on bytes given by the pairs it accepts. DESIGN CHOICE (log 7), safe: every predicate on bytes is one of these. -/
inductive AlphaBand where
  | specDefault
  | pairs (accepted : List (Nat × Nat))
deriving DecidableEq, Repr

/-- The configuration of one instance (R25 to R28, R6). -/
structure Config where
  profile : Profile
  /-- `FORMAT_BPP`: hw code and bits per element (R28). -/
  formatBpp : List (Nat × Nat)
  halveWhile : HalveWhile
  alphaBand : AlphaBand
  /-- `OFFSET_WIDTH`; `none` is the model's ∞ (R6, R101). -/
  offsetWidth : Option Nat
deriving DecidableEq, Repr

end Sys2Proof
end

