-- ==== Sys2Proof/Machine/Params.lean ====
section
/-! DEFINITION. Sys2Proof/Machine/Params.lean: the checks, derived constants and defaults of the configuration
(00_scope.md R6; 10_state.md R25 to R28). -/
namespace Sys2Proof.Machine

/-- `log2` of R6's derived constants. -/
def exactLog2 (n : Nat) : Nat := Nat.log2 n

/-- Whether n is a power of two, at least 1. -/
def isPowerOfTwo (n : Nat) : Bool := decide (2 ^ exactLog2 n = n)

/-- `PIPE_BITS` (R6). -/
def pipeBits (p : Profile) : Nat := exactLog2 p.pipes

/-- `BANK_BITS` (R6). -/
def bankBits (p : Profile) : Nat := exactLog2 p.banks

/-- `GROUP_BITS` (R6). -/
def groupBits (p : Profile) : Nat := exactLog2 p.groupBytes

/-- `ProfileAdmitted` (R26). -/
def profileAdmitted (p : Profile) : Bool :=
  decide (p.pipes = 2) && (decide (p.banks = 4) || decide (p.banks = 8)) && isPowerOfTwo p.groupBytes
    && decide (1 ≤ p.rowSize) && decide (1 ≤ p.splitSize) && decide (2 ≤ p.swapSize)

/-- The default profile (R25). The sizes are the spec's, [from general knowledge, not in source]: UNVERIFIED (log 13),
unsafe. -/
def defaultProfile : Profile :=
  { pipes := 2, banks := 4, groupBytes := 256, rowSize := 2048, splitSize := 2048, swapSize := 256 }

/-- The default format table (R28): BC1 to BC5. -/
def defaultFormatBpp : List (Nat × Nat) :=
  [(0x31, 64), (0x32, 128), (0x33, 128), (0x34, 64), (0x35, 128)]

/-- The defaults of 00_scope.md R6. `OFFSET_WIDTH` has none: the model's choice is ∞, which R101 admits: DESIGN CHOICE
(log 8), unsafe. -/
def defaultConfig : Config :=
  { profile := defaultProfile
    formatBpp := defaultFormatBpp
    halveWhile := .gt
    alphaBand := .specDefault
    offsetWidth := none }

/-- `FORMAT_BPP[hw]` (R28). -/
def formatBppOf (c : Config) (hw : Nat) : Option Nat := c.formatBpp.lookup hw

/-- `ALPHA_BAND(mn, mx)` (42_block_codec.md R181). -/
def alphaBandHolds : AlphaBand → Nat → Nat → Bool
  | .specDefault, mn, mx =>
    (decide (mn ≤ 0x15) && decide (0xCF ≤ mx)) || (decide (mn ≤ 0x30) && decide (0xEA ≤ mx))
      || decide (mn ≤ 0x05) || decide (0xFA ≤ mx)
  | .pairs accepted, mn, mx => accepted.contains (mn, mx)

/-- Whether an offset bound fits `OFFSET_WIDTH` bits: `v ≤ 2^OFFSET_WIDTH` (40_address_engine.md R101,
41_tiling_orchestrator.md R153). -/
def fitsOffset (c : Config) (v : Nat) : Bool :=
  match c.offsetWidth with
  | none => true
  | some w => decide (v ≤ 2 ^ w)

end Sys2Proof.Machine
end

