-- ==== Sys2Proof/Machine/State.lean ====
section
/-! DEFINITION. Sys2Proof/Machine/State.lean: the state of one engine instance (10_state.md R21), its reset value
(R38, 70_reset_and_hazards.md R270), and the reasons a step can stop. -/
namespace Sys2Proof.Machine

/-- A register: its value, and the spec's own mark whether it was written since reset (R34, R35, R38). -/
structure Reg (α : Type) where
  val : α
  written : Bool
deriving DecidableEq, Repr

/-- A register as reset leaves it: unwritten (R38). The value beside the mark is the model's: DESIGN CHOICE (log 1), unsafe. -/
def Reg.unwritten {α : Type} (v : α) : Reg α := { val := v, written := false }

/-- `OPR`, the operand register file (R30 to R33). -/
structure OperandFile where
  x : Reg Word
  y : Reg Word
  slice : Reg Word
  sample : Reg Word
  bpp : Reg Word
  pitch : Reg Word
  height : Reg Word
  numSlices : Reg Word
  numSamples : Reg Word
  tileMode : Reg Word
  swizzle : Reg Word
  dWidth : Reg Word
  dHeight : Reg Word
  dDepth : Reg Word
  dFormat : Reg Word
  dTileMode : Reg Word
  dSwizzle : Reg Word
  dPitch : Reg Word
  dSamples : Reg Word
  dSlices : Reg Word
  dDataSize : Reg Word
  imgW : Reg Word
  imgH : Reg Word
  blkX : Reg Word
  blkY : Reg Word
  srcLen : Reg Word
  dstCap : Reg Word
  blk : Reg (Vector Byte 16)
  tex : Reg (Vector Byte 64)
deriving DecidableEq, Repr

/-- `RES`, the result registers (R35). `RES_BYTE` has `OFFSET_WIDTH` bits, which the model holds as a natural (log 8). -/
structure ResultFile where
  byte : Reg Nat
  bit : Reg (BitVec 3)
  blk : Reg (Vector Byte 16)
  tex : Reg (Vector Byte 64)
  len : Reg Word
deriving DecidableEq, Repr

/-- The bytes of a buffer that hold a value, by offset (20_memory.md R50, R51). Canonical form: offsets strictly
rising. An unlisted offset holds no value, so no entry can equal what an unlisted offset reads as. -/
abbrev Memory := List Host.Cell

/-- The canonical form of a buffer. -/
abbrev Memory.wf (m : Memory) : Prop := m.Pairwise fun c d => c.1 < d.1

/-- One engine instance: `(CMD, OPR, RES, STATUS, SRC, DST)` (R21), with the configuration it was built with
(DESIGN CHOICE, log 2, safe) and the host's remaining lines (DESIGN CHOICE, log 3, safe). -/
structure State where
  /-- `CMD`, the last word written (R29). -/
  cmd : Word
  opr : OperandFile
  res : ResultFile
  /-- `STATUS` (R36). -/
  status : Word
  src : Memory
  dst : Memory
  /-- The parameters of R25 to R28; no step changes them (R7). -/
  cfg : Config
  /-- The host's remaining lines, oldest first (30_encoding.md R85). -/
  program : List HostLine
deriving DecidableEq, Repr

/-- Why the machine stops: the spec's model faults (60_exceptions.md R248). -/
inductive Fault where
  /-- A command reads `SRC[offset]`, which nobody has written (20_memory.md R51). Raised by the retile, surface and
  linear commands. Safe: the model stops where hardware returns some value. -/
  | srcUnwritten (offset : Nat)
  /-- The host's `copy SRC, DST, n` or a read of `DST` reaches `DST[offset]`, which nobody has written (R51). Safe. -/
  | dstUnwritten (offset : Nat)
  /-- The host reads the write-only `CMD` (10_state.md R29). Safe. -/
  | cmdWriteOnly
deriving DecidableEq, Repr

/-- Why the model gives no meaning. -/
inductive Refusal where
  /-- exec's arm of an instruction that has no meaning yet. Safe: nothing is claimed of it. -/
  | notModelled (mnemonic : String)
  /-- A host line that is no host action (WellFormed.lean): the assembler's error (30_encoding.md R86). Raised by step
  alone, never by a command. Safe. -/
  | illFormedLine
deriving DecidableEq, Repr

/-- The operand registers at reset: all unwritten (R38). -/
def OperandFile.reset : OperandFile :=
  { x := .unwritten 0, y := .unwritten 0, slice := .unwritten 0, sample := .unwritten 0, bpp := .unwritten 0
    pitch := .unwritten 0, height := .unwritten 0, numSlices := .unwritten 0, numSamples := .unwritten 0
    tileMode := .unwritten 0, swizzle := .unwritten 0
    dWidth := .unwritten 0, dHeight := .unwritten 0, dDepth := .unwritten 0, dFormat := .unwritten 0
    dTileMode := .unwritten 0, dSwizzle := .unwritten 0, dPitch := .unwritten 0, dSamples := .unwritten 0
    dSlices := .unwritten 0, dDataSize := .unwritten 0
    imgW := .unwritten 0, imgH := .unwritten 0, blkX := .unwritten 0, blkY := .unwritten 0
    srcLen := .unwritten 0, dstCap := .unwritten 0
    blk := .unwritten (Vector.replicate 16 0), tex := .unwritten (Vector.replicate 64 0) }

/-- The result registers at reset: all unwritten (R38). -/
def ResultFile.reset : ResultFile :=
  { byte := .unwritten 0, bit := .unwritten 0, blk := .unwritten (Vector.replicate 16 0)
    tex := .unwritten (Vector.replicate 64 0), len := .unwritten 0 }

/-- The state after reset (R38, 70_reset_and_hazards.md R270): `STATUS` = 0, every register unwritten, no byte of a
buffer listed, the default configuration, no host line. `CMD` is unspecified; the model holds 0: DESIGN CHOICE (log 4),
unsafe. -/
def State.reset : State :=
  { cmd := 0, opr := OperandFile.reset, res := ResultFile.reset, status := 0, src := [], dst := []
    cfg := defaultConfig, program := [] }

end Sys2Proof.Machine
end

