-- ==== Sys2Proof/Machine/Flags.lean ====
section
/-! DEFINITION. Sys2Proof/Machine/Flags.lean: the fields of `STATUS` (10_state.md R36) and its two updates: a
command that completes, and an error (60_exceptions.md R245). There is no other flag (R24). -/
namespace Sys2Proof.Machine

/-- `STATUS.CODE`, bits [1:0]. -/
def statusCode (w : Word) : BitVec 2 := w.extractLsb' 0 2

/-- `STATUS.VALID`, bit [2]. -/
def statusValid (w : Word) : Bool := w.getLsbD 2

/-- The reserved bits [7:3]. -/
def statusReservedLow (w : Word) : BitVec 5 := w.extractLsb' 3 5

/-- `STATUS.INFO`, bits [15:8]. -/
def statusInfo (w : Word) : Byte := w.extractLsb' 8 8

/-- The reserved bits [31:16]. -/
def statusReservedHigh (w : Word) : BitVec 16 := w.extractLsb' 16 16

/-- The `STATUS` word with these fields; the reserved bits are 0 (R36). -/
def statusWord (code : BitVec 2) (valid : Bool) (info : Byte) : Word :=
  (0 : BitVec 16) ++ info ++ (0 : BitVec 5) ++ BitVec.ofBool valid ++ code

/-- `STATUS` after a command that completed: CODE 0, INFO 0, VALID 1 (40_address_engine.md R101). -/
def statusOk : Word := statusWord 0 true 0

/-- `STATUS` after an error: CODE and INFO of the cause, VALID unchanged (R245), also in IllegalCommand: DEDUCED (log 14), safe. -/
def statusError (old : Word) (c : Cause) : Word := statusWord c.code (statusValid old) c.info

end Sys2Proof.Machine
end

