-- ==== Sys2Proof/Machine/Ops.lean ====
section
/-! DEFINITION. Sys2Proof/Machine/Ops.lean: the named operations over buffers, registers and `STATUS` that every
meaning goes through. `State.raise` is the machine's one error entry (60_exceptions.md R245); there is no return
from it (R247). -/
namespace Sys2Proof.Machine

/-! ### Buffers (00_scope.md R11; 20_memory.md) -/

/-- The byte at an offset, where one was written (R51). -/
def Memory.read : Memory → Nat → Option Byte
  | [], _ => none
  | c :: m, a => if c.1 = a then some c.2 else Memory.read m a

/-- `MemRead(_, a, n)`: the n bytes from `a`, or the first offset that holds no value. -/
def Memory.readBytes (m : Memory) : Nat → Nat → Except Nat (List Byte)
  | _, 0 => .ok []
  | a, n + 1 =>
    match m.read a with
    | none => .error a
    | some b =>
      match Memory.readBytes m (a + 1) n with
      | .error e => .error e
      | .ok bs => .ok (b :: bs)

/-- The cells that hold a byte string from offset `a`. -/
def cellsAt : Nat → List Byte → Memory
  | _, [] => []
  | a, b :: bs => (a, b) :: cellsAt (a + 1) bs

/-- `MemWrite(_, a, n, bytes)`: the bytes replace what `[a, a + n)` held. -/
def Memory.writeBytes (m : Memory) (a : Nat) (bytes : List Byte) : Memory :=
  m.filter (fun c => decide (c.1 < a)) ++ cellsAt a bytes ++ m.filter (fun c => decide (a + bytes.length ≤ c.1))

/-! ### Single-field updates of the state -/

def State.withCmd (s : State) (w : Word) : State := { s with cmd := w }
def State.withOpr (s : State) (o : OperandFile) : State := { s with opr := o }
def State.withRes (s : State) (r : ResultFile) : State := { s with res := r }
def State.withStatus (s : State) (w : Word) : State := { s with status := w }
def State.withSrc (s : State) (m : Memory) : State := { s with src := m }
def State.withDst (s : State) (m : Memory) : State := { s with dst := m }
def State.withCfg (s : State) (c : Config) : State := { s with cfg := c }
def State.withProgram (s : State) (p : List HostLine) : State := { s with program := p }

/-- A register that now holds a written value. -/
def Reg.wrote {α : Type} (v : α) : Reg α := { val := v, written := true }

/-! ### Operand registers -/

/-- The 32-bit operand register of a name (10_state.md R30 to R33). -/
def OperandFile.get (o : OperandFile) : OperandReg → Reg Word
  | .x => o.x
  | .y => o.y
  | .slice => o.slice
  | .sample => o.sample
  | .bpp => o.bpp
  | .pitch => o.pitch
  | .height => o.height
  | .numSlices => o.numSlices
  | .numSamples => o.numSamples
  | .tileMode => o.tileMode
  | .swizzle => o.swizzle
  | .dWidth => o.dWidth
  | .dHeight => o.dHeight
  | .dDepth => o.dDepth
  | .dFormat => o.dFormat
  | .dTileMode => o.dTileMode
  | .dSwizzle => o.dSwizzle
  | .dPitch => o.dPitch
  | .dSamples => o.dSamples
  | .dSlices => o.dSlices
  | .dDataSize => o.dDataSize
  | .imgW => o.imgW
  | .imgH => o.imgH
  | .blkX => o.blkX
  | .blkY => o.blkY
  | .srcLen => o.srcLen
  | .dstCap => o.dstCap

/-- The host writes a 32-bit operand register (R30 to R33). -/
def OperandFile.set (o : OperandFile) (r : OperandReg) (v : Word) : OperandFile :=
  match r with
  | .x => { o with x := .wrote v }
  | .y => { o with y := .wrote v }
  | .slice => { o with slice := .wrote v }
  | .sample => { o with sample := .wrote v }
  | .bpp => { o with bpp := .wrote v }
  | .pitch => { o with pitch := .wrote v }
  | .height => { o with height := .wrote v }
  | .numSlices => { o with numSlices := .wrote v }
  | .numSamples => { o with numSamples := .wrote v }
  | .tileMode => { o with tileMode := .wrote v }
  | .swizzle => { o with swizzle := .wrote v }
  | .dWidth => { o with dWidth := .wrote v }
  | .dHeight => { o with dHeight := .wrote v }
  | .dDepth => { o with dDepth := .wrote v }
  | .dFormat => { o with dFormat := .wrote v }
  | .dTileMode => { o with dTileMode := .wrote v }
  | .dSwizzle => { o with dSwizzle := .wrote v }
  | .dPitch => { o with dPitch := .wrote v }
  | .dSamples => { o with dSamples := .wrote v }
  | .dSlices => { o with dSlices := .wrote v }
  | .dDataSize => { o with dDataSize := .wrote v }
  | .imgW => { o with imgW := .wrote v }
  | .imgH => { o with imgH := .wrote v }
  | .blkX => { o with blkX := .wrote v }
  | .blkY => { o with blkY := .wrote v }
  | .srcLen => { o with srcLen := .wrote v }
  | .dstCap => { o with dstCap := .wrote v }

def OperandFile.setBlk (o : OperandFile) (v : Vector Byte 16) : OperandFile := { o with blk := .wrote v }
def OperandFile.setTex (o : OperandFile) (v : Vector Byte 64) : OperandFile := { o with tex := .wrote v }

/-- `OPR.F` as the natural a rule computes with (R8, R11). A register nothing has written reads as the value reset
gave it (log 1). -/
def State.num (s : State) (r : OperandReg) : Nat := (s.opr.get r).val.toNat

/-! ### Result registers (R35) -/

def ResultFile.setAddr (r : ResultFile) (byte bit : Nat) : ResultFile :=
  { r with byte := .wrote byte, bit := .wrote (BitVec.ofNat 3 bit) }
def ResultFile.setBlk (r : ResultFile) (v : Vector Byte 16) : ResultFile := { r with blk := .wrote v }
def ResultFile.setTex (r : ResultFile) (v : Vector Byte 64) : ResultFile := { r with tex := .wrote v }
def ResultFile.setLen (r : ResultFile) (n : Nat) : ResultFile := { r with len := .wrote (BitVec.ofNat 32 n) }

/-! ### How a command ends (60_exceptions.md R240) -/

/-- What a step of this machine answers. -/
abbrev Result := Host.Outcome State Fault Refusal

/-- `raise K(info)` (R245): CODE and INFO are written, VALID and everything else is unchanged. -/
def State.raise (s : State) (c : Cause) : State := s.withStatus (statusError s.status c)

/-- The end of a command that completed: CODE 0, INFO 0, VALID 1 (40_address_engine.md R101). -/
def State.complete (s : State) : State := s.withStatus statusOk

/-- Go on with a check's answer, or end the command with its error. -/
def orRaise {α : Type} (s : State) (r : Except Cause α) (k : α → Result) : Result :=
  match r with
  | .error c => .next (s.raise c)
  | .ok a => k a

/-- Go on with what was read, or stop where a byte holds no value. -/
def orFault {α : Type} (r : Except Fault α) (k : α → Result) : Result :=
  match r with
  | .error f => .fault f
  | .ok a => k a

/-- `MemRead(SRC, a, n)` by a command (20_memory.md R51, 60_exceptions.md R248). -/
def readSrc (src : Memory) (a n : Nat) : Except Fault (List Byte) :=
  match src.readBytes a n with
  | .error e => .error (.srcUnwritten e)
  | .ok bs => .ok bs

/-- The answers of `f` along a list, in order, or the first error (00_scope.md R12). -/
def traverseExcept {ε α β : Type} (f : α → Except ε β) : List α → Except ε (List β)
  | [] => .ok []
  | a :: as =>
    match f a with
    | .error e => .error e
    | .ok b =>
      match traverseExcept f as with
      | .error e => .error e
      | .ok bs => .ok (b :: bs)

/-- A value carried along a list by `f`, in order, or the first error (R12). -/
def foldExcept {ε α β : Type} (f : β → α → Except ε β) : β → List α → Except ε β
  | b, [] => .ok b
  | b, a :: as =>
    match f b a with
    | .error e => .error e
    | .ok b' => foldExcept f b' as

end Sys2Proof.Machine
end

