-- ==== Sys2Proof/Machine/Operands.lean ====
section
/-! DEFINITION. Sys2Proof/Machine/Operands.lean: the operand formats: the tile-mode field (30_encoding.md R73 to R75;
40_address_engine.md R102 to R105, R115), the swizzle value (R76), the format code (10_state.md R28), and the
operands an address computation takes. -/
namespace Sys2Proof.Machine

/-- The three classes of the address engine (R115). -/
inductive TileClass where
  | linear | microTiled | macroTiled
deriving DecidableEq, Repr

/-- `Class(tm)` (R115). -/
def tileClass (tm : Nat) : TileClass :=
  if tm ≤ 1 then .linear else if tm ≤ 3 then .microTiled else .macroTiled

/-- `Thickness(tm)` (R102). -/
def thickness (tm : Nat) : Nat :=
  if [3, 7, 11, 13, 15].contains tm then 4 else if tm = 16 then 8 else 1

/-- `IsThickMacro(tm)` (R103). -/
def isThickMacro (tm : Nat) : Bool := [7, 11, 13, 15].contains tm

/-- `IsBankSwapped(tm)` (R103). -/
def isBankSwapped (tm : Nat) : Bool := [8, 9, 10, 11, 14, 15].contains tm

/-- `Aspect(tm)` (R104). -/
def aspect (tm : Nat) : Nat :=
  if [5, 9].contains tm then 2 else if [6, 10].contains tm then 4 else 1

/-- `mtPitch` of `MacroTileShape(tm)` (R104). -/
def macroTilePitch (p : Profile) (tm : Nat) : Nat := 8 * p.banks / aspect tm

/-- `mtHeight` of `MacroTileShape(tm)` (R104). -/
def macroTileHeight (p : Profile) (tm : Nat) : Nat := 8 * p.pipes * aspect tm

/-- `Rotation(tm)` (R105). -/
def rotation (p : Profile) (tm : Nat) : Nat :=
  if 4 ≤ tm ∧ tm ≤ 11 then p.pipes * ((p.banks >>> 1) - 1)
  else if 12 ≤ tm ∧ tm ≤ 15 then (if 4 ≤ p.pipes then (p.pipes >>> 1) - 1 else 1)
  else 0

/-- `pipeSwizzle = SWIZZLE[8]` (R76). -/
def pipeSwizzle (swizzle : Nat) : Nat := bitAt swizzle 8

/-- `bankSwizzle = SWIZZLE[10:9]` (R76). -/
def bankSwizzle (swizzle : Nat) : Nat := bitsAt swizzle 10 9

/-- The hardware format code of a descriptor format value (10_state.md R28). -/
def hwFormat (f : Nat) : Nat := f &&& 0x3F

/-- The hw code of BC3, the codec's one format (43_pipeline.md R224). -/
def bc3Format : Nat := 0x33

/-- The operands of `Address(...)` (R115). -/
structure AddrArgs where
  x : Nat
  y : Nat
  slice : Nat
  sample : Nat
  bpp : Nat
  pitch : Nat
  height : Nat
  numSlices : Nat
  numSamples : Nat
  tileMode : Nat
  swizzle : Nat
deriving DecidableEq, Repr

/-- The address operand registers (10_state.md R30). -/
def addrOperands (s : State) : AddrArgs :=
  { x := s.num .x, y := s.num .y, slice := s.num .slice, sample := s.num .sample, bpp := s.num .bpp
    pitch := s.num .pitch, height := s.num .height, numSlices := s.num .numSlices
    numSamples := s.num .numSamples, tileMode := s.num .tileMode, swizzle := s.num .swizzle }

/-- A byte offset and a sub-byte bit offset (30_encoding.md R82). -/
structure BitAddress where
  byte : Nat
  bit : Nat
deriving DecidableEq, Repr

end Sys2Proof.Machine
end

