-- ==== Sys2Proof/Machine/Tiling.lean ====
section
/-! DEFINITION. Sys2Proof/Machine/Tiling.lean: the address engine's functions (40_address_engine.md R106 to R128).
They read their arguments, the profile and the halving comparison, and nothing else (R131). The formulas are the spec's rules, which
mark them as general knowledge: UNVERIFIED (log 13), unsafe. Divisions are plain: DEDUCED (log 19), safe. -/
namespace Sys2Proof.Machine

/-! ### Pixel index (R106 to R108) -/

/-- The in-plane bits, bit 0 first, of the table of R106. -/
def pixelBits (bpp x y : Nat) : List Nat :=
  let x0 := bitAt x 0
  let x1 := bitAt x 1
  let x2 := bitAt x 2
  let y0 := bitAt y 0
  let y1 := bitAt y 1
  let y2 := bitAt y 2
  if bpp = 8 then [x0, x1, x2, y1, y0, y2]
  else if bpp = 16 then [x0, x1, x2, y0, y1, y2]
  else if bpp = 32 then [x0, x1, y0, x2, y1, y2]
  else if bpp = 64 then [x0, y0, x1, x2, y1, y2]
  else if bpp = 128 then [y0, x0, x1, x2, y1, y2]
  else [x0, x1, y0, x2, y1, y2]

/-- The depth bits 6, 7 and 8 (R107). -/
def depthBits (t z : Nat) : List Nat :=
  [if 1 < t then bitAt z 0 else 0, if 1 < t then bitAt z 1 else 0, if t = 8 then bitAt z 2 else 0]

/-- `PixelIndex(x, y, z, bpp, tm)` (R108). -/
def pixelIndex (x y z bpp tm : Nat) : Nat := packCodes 1 (pixelBits bpp x y ++ depthBits (thickness tm) z)

/-! ### Pipe and bank (R109 to R111) -/

/-- `PipeWoRot(x, y)`, 2-pipe hardware (R109). -/
def pipeWoRot (x y : Nat) : Nat := bitAt x 3 ^^^ bitAt y 3

/-- `BankWoRot4(x, y)` (R110). -/
def bankWoRot4 (pipes x y : Nat) : Nat :=
  let b0 := ((y / (16 * pipes)) ^^^ (x >>> 3)) &&& 1
  let b1 := ((y / (8 * pipes)) ^^^ (x >>> 4)) &&& 1
  b0 ||| (b1 <<< 1)

/-- `BankWoRot8(x, y)` (R111). -/
def bankWoRot8 (pipes x y : Nat) : Nat :=
  let b0 := ((y / (32 * pipes)) ^^^ (x >>> 3)) &&& 1
  let b1 := ((y / (32 * pipes)) ^^^ (y / (16 * pipes)) ^^^ (x >>> 4)) &&& 1
  let b2 := ((y / (8 * pipes)) ^^^ (x >>> 5)) &&& 1
  b0 ||| (b1 <<< 1) ||| (b2 <<< 2)

/-- `BankWoRot(x, y)` (R111). No other bank count is admitted (R26). -/
def bankWoRot (p : Profile) (x y : Nat) : Nat :=
  if p.banks = 8 then bankWoRot8 p.pipes x y else bankWoRot4 p.pipes x y

/-! ### Bank swap (R112 to R114) -/

/-- The halving condition of R113. -/
def halveMore (h : HalveWhile) (w pitch : Nat) : Bool :=
  match h with
  | .gt => decide (2 * pitch < w)
  | .ge => decide (2 * pitch ≤ w)

/-- The loop of R113 with a bound on its passes. -/
def halveLoop (h : HalveWhile) (pitch : Nat) : Nat → Nat → Nat
  | 0, w => w
  | fuel + 1, w => if halveMore h w pitch then halveLoop h pitch fuel (w >>> 1) else w

/-- `Halve(w, pitch)` (R113). `log2 w + 1` passes reach 0, which ends the loop for every `pitch ≥ 1`:
DEDUCED (log 17), safe. -/
def halve (h : HalveWhile) (w pitch : Nat) : Nat := halveLoop h pitch (Nat.log2 w + 1) w

/-- `slicesPerTile` of R112. -/
def slicesPerTile (p : Profile) (bpp ns : Nat) : Nat :=
  let samplesPerTile := p.splitSize / (8 * bpp)
  if samplesPerTile ≠ 0 then max 1 (ns / samplesPerTile) else 1

/-- The width of R112 before the halving loop. -/
def bankSwapStart (p : Profile) (tm bpp ns : Nat) : Nat :=
  let bytesPerSample := 8 * bpp
  let spt := slicesPerTile p bpp ns
  let nsw := if isThickMacro tm then 4 else ns
  let bytesPerTileSlice := nsw * bytesPerSample / spt
  let factor := aspect tm
  let swapTiles := max 1 ((p.swapSize >>> 1) / bpp)
  let swapWidth := swapTiles * 8 * p.banks
  let heightBytes := nsw * factor * p.pipes * bpp / spt
  let swapMax := p.pipes * p.banks * p.rowSize / heightBytes
  let swapMin := p.groupBytes * 8 * p.banks / bytesPerTileSlice
  min swapMax (max swapMin swapWidth)

/-- `BankSwapWidth(tm, bpp, ns, pitch)` (R112). -/
def bankSwapWidth (p : Profile) (h : HalveWhile) (tm bpp ns pitch : Nat) : Except Cause Nat :=
  let w := halve h (bankSwapStart p tm bpp ns) pitch
  if w = 0 then .error .swapWidthZero else .ok w

/-- `BankSwapOrder` (R114). -/
def bankSwapOrder : List Nat := [0, 1, 3, 2]

/-! ### The linear and micro-tiled classes (R117, R118) -/

/-- `AddrLinear` (R117). -/
def addrLinear (a : AddrArgs) : BitAddress :=
  let v := a.bpp * (a.x + a.pitch * a.y + (a.slice + a.numSlices * a.sample) * a.height * a.pitch)
  { byte := v >>> 3, bit := v % 8 }

/-- `AddrMicro` (R118). -/
def addrMicro (a : AddrArgs) : BitAddress :=
  let t := thickness a.tileMode
  let microTileBytes := (64 * t * a.bpp + 7) / 8
  let microTilesPerRow := a.pitch >>> 3
  let microTileOffset := microTileBytes * ((a.x >>> 3) + (a.y >>> 3) * microTilesPerRow)
  let sliceBytes := (a.pitch * a.height * t * a.bpp + 7) / 8
  let sliceOffset := sliceBytes * (a.slice / t)
  let pixelOffset := a.bpp * pixelIndex a.x a.y a.slice a.bpp a.tileMode
  { byte := (pixelOffset >>> 3) + microTileOffset + sliceOffset, bit := pixelOffset % 8 }

/-! ### The macro-tiled class, step by step (R119 to R128) -/

/-- `microTileBits` (R119). -/
def microTileBits (a : AddrArgs) : Nat := a.numSamples * a.bpp * thickness a.tileMode * 64

/-- `elemOffset`, in bits (R119). -/
def macroElemBits (a : AddrArgs) : Nat :=
  a.bpp * pixelIndex a.x a.y a.slice a.bpp a.tileMode + a.sample * (microTileBits a / a.numSamples)

/-- `sliceIn` (R121). -/
def macroSliceIn (a : AddrArgs) : Nat := if isThickMacro a.tileMode then a.slice >>> 2 else a.slice

/-- The locals the sample split leaves (R122): `ns`, `numSampleSplits`, `sampleSlice`, and `elemOffset` in bytes. -/
structure SampleSplit where
  ns : Nat
  splits : Nat
  sampleSlice : Nat
  elemBytes : Nat
deriving DecidableEq, Repr

/-- The sample split (R122). -/
def sampleSplit (p : Profile) (a : AddrArgs) : Except Cause SampleSplit :=
  let tileBits := microTileBits a
  let tileBytes := (tileBits + 7) / 8
  let elem := macroElemBits a
  if 1 < a.numSamples ∧ p.splitSize < tileBytes then
    let bytesPerSample := tileBytes / a.numSamples
    let samplesPerSlice := p.splitSize / bytesPerSample
    if samplesPerSlice = 0 then .error .sampleSplit
    else
      let splits := a.numSamples / samplesPerSlice
      let tileSliceBits := tileBits / splits
      .ok { ns := samplesPerSlice, splits := splits, sampleSlice := elem / tileSliceBits
            elemBytes := (elem % tileSliceBits + 7) / 8 }
  else .ok { ns := a.numSamples, splits := 1, sampleSlice := 0, elemBytes := (elem + 7) / 8 }

/-- The perturbed and reduced `bankPipe` (R123). -/
def bankPipe (p : Profile) (a : AddrArgs) (sampleSlice : Nat) : Nat :=
  let start := pipeWoRot a.x a.y + p.pipes * bankWoRot p a.x a.y
  let swz := pipeSwizzle a.swizzle + p.pipes * bankSwizzle a.swizzle
  (start ^^^ ((p.pipes * sampleSlice * ((p.banks >>> 1) + 1))
      ^^^ (swz + macroSliceIn a * rotation p a.tileMode))) % (p.pipes * p.banks)

/-- The slice offset (R124). -/
def macroSliceOffset (a : AddrArgs) (sp : SampleSplit) : Nat :=
  let t := thickness a.tileMode
  (a.height * a.pitch * t * a.bpp * sp.ns + 7) / 8 * ((sp.sampleSlice + sp.splits * a.slice) / t)

/-- The macro-tile offset (R125). -/
def macroTileOffset (p : Profile) (a : AddrArgs) (ns : Nat) : Nat :=
  let mtPitch := macroTilePitch p a.tileMode
  let mtHeight := macroTileHeight p a.tileMode
  let macroTilesPerRow := a.pitch / mtPitch
  let macroTileBytes := (ns * thickness a.tileMode * a.bpp * mtHeight * mtPitch + 7) / 8
  (a.x / mtPitch + macroTilesPerRow * (a.y / mtHeight)) * macroTileBytes

/-- The bank after the bank swap (R126). The 8-bank check precedes the width (R126). -/
def swapBank (p : Profile) (h : HalveWhile) (a : AddrArgs) (ns bank : Nat) : Except Cause Nat :=
  if isBankSwapped a.tileMode then
    if p.banks = 8 then .error .swapEightBanks
    else match bankSwapWidth p h a.tileMode a.bpp ns a.pitch with
      | .error c => .error c
      | .ok w =>
        let mtPitch := macroTilePitch p a.tileMode
        let swapIndex := mtPitch * (a.x / mtPitch) / w
        .ok (bank ^^^ bankSwapOrder.getD (swapIndex &&& (p.banks - 1)) 0)
  else .ok bank

/-- The final assembly (R127). -/
def assembleOffset (p : Profile) (totalOffset pipe bank : Nat) : Nat :=
  let gb := groupBits p
  let pb := pipeBits p
  let bb := bankBits p
  let offsetHigh := clearLow totalOffset gb <<< (bb + pb)
  let offsetLow := totalOffset &&& (2 ^ gb - 1)
  (bank <<< (pb + gb)) ||| (pipe <<< gb) ||| offsetLow ||| offsetHigh

/-- `totalOffset` (R127). -/
def macroTotalOffset (p : Profile) (a : AddrArgs) (sp : SampleSplit) : Nat :=
  sp.elemBytes + ((macroTileOffset p a sp.ns + macroSliceOffset a sp) >>> (bankBits p + pipeBits p))

/-- `AddrMacro` (R128). -/
def addrMacro (p : Profile) (h : HalveWhile) (a : AddrArgs) : Except Cause BitAddress :=
  match sampleSplit p a with
  | .error c => .error c
  | .ok sp =>
    let bp := bankPipe p a sp.sampleSlice
    match swapBank p h a sp.ns (bp / p.pipes) with
    | .error c => .error c
    | .ok bank =>
      .ok { byte := assembleOffset p (macroTotalOffset p a sp) (bp % p.pipes) bank
            bit := macroElemBits a % 8 }

/-- `Address(...)` (R115). -/
def address (c : Config) (a : AddrArgs) : Except Cause BitAddress :=
  match tileClass a.tileMode with
  | .linear => .ok (addrLinear a)
  | .microTiled => .ok (addrMicro a)
  | .macroTiled => addrMacro c.profile c.halveWhile a

end Sys2Proof.Machine
end

