-- ==== Sys2Proof/Machine/AddrCommands.lean ====
section
/-! DEFINITION. Sys2Proof/Machine/AddrCommands.lean: ADDR, ADDR_LINEAR, ADDR_MICRO and ADDR_MACRO
(40_address_engine.md R100, R101, R116 to R118, R128). -/
namespace Sys2Proof.Machine

/-- `CheckAddr(cls)` (R100); `none` is `ANY`. It answers the class of the tile mode. -/
def checkAddr (cls : Option TileClass) (s : State) : Except Cause TileClass :=
  let a := addrOperands s
  let k := tileClass a.tileMode
  if profileAdmitted s.cfg.profile = false then .error .profileNotAdmitted
  else if 16 < a.tileMode then .error .tileModeRange
  else if cls.isSome = true ∧ cls ≠ some k then .error .classMismatch
  else if a.bpp = 0 ∨ 128 < a.bpp then .error .bppRange
  else if a.pitch = 0 then .error .pitchZero
  else if a.height = 0 then .error .heightZero
  else if k = .linear ∧ a.numSlices = 0 then .error .slicesZero
  else if k = .macroTiled ∧ a.numSamples = 0 then .error .samplesZero
  else .ok k

/-- `WriteAddr(byte, bit)` (R101). -/
def writeAddr (s : State) (r : BitAddress) : Result :=
  if fitsOffset s.cfg (r.byte + 1) then .next (s.withRes (s.res.setAddr r.byte r.bit)).complete
  else .next (s.raise .offsetWidth)

/-- The shape of the four address commands: the check, the class function, the result write. -/
def runAddr (cls : Option TileClass) (f : AddrArgs → Except Cause BitAddress) (s : State) : Result :=
  orRaise s (checkAddr cls s) fun _ => orRaise s (f (addrOperands s)) fun r => writeAddr s r

/-- `ADDR` (R116). -/
def execAddr (s : State) : Result := runAddr none (address s.cfg) s

/-- `ADDR_LINEAR` (R117). -/
def execAddrLinear (s : State) : Result := runAddr (some .linear) (fun a => .ok (addrLinear a)) s

/-- `ADDR_MICRO` (R118). -/
def execAddrMicro (s : State) : Result := runAddr (some .microTiled) (fun a => .ok (addrMicro a)) s

/-- `ADDR_MACRO` (R128). -/
def execAddrMacro (s : State) : Result :=
  runAddr (some .macroTiled) (addrMacro s.cfg.profile s.cfg.halveWhile) s

end Sys2Proof.Machine
end

