-- ==== Sys2Proof/Machine/Codec.lean ====
section
/-! DEFINITION. Sys2Proof/Machine/Codec.lean: the BC3 block codec's functions (42_block_codec.md R170 to R191). All
arithmetic is on naturals with floor division. -/
namespace Sys2Proof.Machine

/-- A texel `(r, g, b, a)` (R170). -/
structure Texel where
  r : Nat
  g : Nat
  b : Nat
  a : Nat
deriving DecidableEq, Repr

/-- A color `(r, g, b)` (R170). -/
structure Color where
  r : Nat
  g : Nat
  b : Nat
deriving DecidableEq, Repr

/-- The four bytes of a texel, R, G, B, A (30_encoding.md R81). -/
def Texel.bytes (t : Texel) : List Byte :=
  [BitVec.ofNat 8 t.r, BitVec.ofNat 8 t.g, BitVec.ofNat 8 t.b, BitVec.ofNat 8 t.a]

/-- The value at an offset of a byte string. -/
def byteNat (l : List Byte) (k : Nat) : Nat := (l.getD k 0).toNat

/-- The texel whose bytes start at an offset of a byte string (R81). -/
def texelAt (l : List Byte) (k : Nat) : Texel :=
  { r := byteNat l k, g := byteNat l (k + 1), b := byteNat l (k + 2), a := byteNat l (k + 3) }

/-- The value of an absent texel, which no rule reads (43_pipeline.md R225). -/
def Texel.zero : Texel := { r := 0, g := 0, b := 0, a := 0 }

/-! ### Palettes (R171 to R174) -/

/-- `E5(v)` (R171). -/
def expand5 (v : Nat) : Nat := (v <<< 3) ||| (v >>> 2)

/-- `E6(v)` (R171). -/
def expand6 (v : Nat) : Nat := (v <<< 2) ||| (v >>> 4)

/-- `Unpack565(c)` (R171; field positions 30_encoding.md R80). -/
def unpack565 (c : Nat) : Color :=
  { r := expand5 (bitsAt c 15 11), g := expand6 (bitsAt c 10 5), b := expand5 (bitsAt c 4 0) }

/-- `Pack565(r, g, b)` (R172). -/
def pack565 (c : Color) : Nat := ((c.r >>> 3) <<< 11) ||| ((c.g >>> 2) <<< 5) ||| (c.b >>> 3)

/-- One third of the way from `c` to `d`, per channel, floor division (R173). -/
def blendThird (c d : Color) : Color :=
  { r := (2 * c.r + d.r) / 3, g := (2 * c.g + d.g) / 3, b := (2 * c.b + d.b) / 3 }

/-- `ColorPalette(c0, c1)` (R173). -/
def colorPalette (c0 c1 : Nat) : List Color :=
  [unpack565 c0, unpack565 c1, blendThird (unpack565 c0) (unpack565 c1), blendThird (unpack565 c1) (unpack565 c0)]

/-- `AlphaPalette(a0, a1)` (R174). -/
def alphaPalette (a0 a1 : Nat) : List Nat :=
  if a1 < a0 then [a0, a1] ++ [6, 5, 4, 3, 2, 1].map (fun k => (k * a0 + (7 - k) * a1) / 7)
  else [a0, a1] ++ [4, 3, 2, 1].map (fun k => (k * a0 + (5 - k) * a1) / 5) ++ [0, 255]

/-! ### Decode (R175) -/

/-- `LE(blk[lo .. lo+n-1])` (30_encoding.md R78). -/
def blockField (blk : List Byte) (lo n : Nat) : Nat := leNat ((blk.drop lo).take n)

/-- `alphaCode(i)` (30_encoding.md R79). -/
def alphaCodeAt (blk : List Byte) (i : Nat) : Nat := bitsAt (blockField blk 2 6) (3 * i + 2) (3 * i)

/-- `colorCode(i)` (R79). -/
def colorCodeAt (blk : List Byte) (i : Nat) : Nat := bitsAt (blockField blk 12 4) (2 * i + 1) (2 * i)

/-- `DecodeTexel(blk, i)` (R175). -/
def decodeTexel (blk : List Byte) (i : Nat) : Texel :=
  let color := (colorPalette (blockField blk 8 2) (blockField blk 10 2)).getD (colorCodeAt blk i) ⟨0, 0, 0⟩
  let alpha := (alphaPalette (byteNat blk 0) (byteNat blk 1)).getD (alphaCodeAt blk i) 0
  { r := color.r, g := color.g, b := color.b, a := alpha }

/-! ### Present texels and transparency (R177 to R179) -/

/-- `Present(i)` (R177). -/
def texelPresent (w h bx by_ i : Nat) : Bool := decide (4 * bx + i % 4 < w) && decide (4 * by_ + i / 4 < h)

/-- The numbers of the present texels, in texel order. -/
def presentIndices (w h bx by_ : Nat) : List Nat := (List.range 16).filter (texelPresent w h bx by_)

/-- The present texels, in texel order. -/
def presentTexels (tex : List Texel) (w h bx by_ : Nat) : List Texel :=
  (presentIndices w h bx by_).map fun i => tex.getD i Texel.zero

/-- Whether the block is transparent (R178). -/
def blockTransparent (present : List Texel) : Bool := present.all fun t => decide (t.a = 0)

/-- The emitted bytes (R191). -/
def emitBlock (a0 a1 alphaBits c0 c1 colorBits : Nat) : List Byte :=
  leBytes 1 a0 ++ leBytes 1 a1 ++ leBytes 6 alphaBits ++ leBytes 2 c0 ++ leBytes 2 c1 ++ leBytes 4 colorBits

/-- The block of R179. -/
def transparentBlock : List Byte :=
  emitBlock 0xFF 0x00 (packCodes 3 (List.replicate 16 1)) 0x0001 0x0000 0xFFFFFFFF

/-! ### Alpha endpoints (R180 to R184) -/

/-- The least of a list of byte values, 255 where there is none (a classifier has at least one sample, R180):
DEDUCED (log 18), safe. -/
def leastByte (l : List Nat) : Nat := l.foldl min 255

/-- The greatest of a list of byte values, 0 where there is none. -/
def greatestByte (l : List Nat) : Nat := l.foldl max 0

/-- Whether some sample is extreme (R180). -/
def anyExtreme (samples : List Nat) : Bool := samples.any fun v => decide (v ≤ 0x02) || decide (0xFD ≤ v)

/-- The samples strictly between the thresholds (R180). -/
def partialSamples (samples : List Nat) : List Nat := samples.filter fun v => decide (0x02 < v) && decide (v < 0xFD)

/-- Whether the mode is direct (R182). -/
def directMode (band : AlphaBand) (samples : List Nat) : Bool :=
  anyExtreme samples || alphaBandHolds band (leastByte samples) (greatestByte samples)

/-- The direct-mode endpoints `(A0, A1)`; the decrement wraps below 0 to 255 (R183). -/
def directEndpoints (mn mx : Nat) : Nat × Nat :=
  if mx = mn then (if mx = 0 then 255 else mx - 1, mn) else (mx, mn)

/-- The endpoints `(A0, A1)` the classifier gives (R182 to R184). -/
def alphaEndpoints (band : AlphaBand) (samples : List Nat) : Nat × Nat :=
  if directMode band samples then directEndpoints (leastByte samples) (greatestByte samples)
  else (leastByte (partialSamples samples), greatestByte (partialSamples samples))

/-! ### Color endpoints and indices (R185 to R189) -/

/-- The greatest corner of the bounding box (R185). -/
def boxMax (l : List Texel) : Color :=
  { r := greatestByte (l.map (·.r)), g := greatestByte (l.map (·.g)), b := greatestByte (l.map (·.b)) }

/-- The least corner of the bounding box (R185). -/
def boxMin (l : List Texel) : Color :=
  { r := leastByte (l.map (·.r)), g := leastByte (l.map (·.g)), b := leastByte (l.map (·.b)) }

/-- The texels of the bounding box: present, alpha not 0 (R185). -/
def boxTexels (present : List Texel) : List Texel := present.filter fun t => decide (t.a ≠ 0)

/-- The color endpoints `(c0, c1)` (R186). -/
def colorEndpoints (mx mn : Color) : Nat × Nat :=
  let c0 := pack565 mx
  let c1 := pack565 mn
  (if c0 = c1 then (c0 + 1) % 65536 else c0, c1)

/-- The channel weights (R187). -/
def channelWeights (mx mn : Color) : Color :=
  { r := 256 - (mx.r - mn.r), g := 256 - (mx.g - mn.g), b := 256 - (mx.b - mn.b) }

/-- The weighted distance of a texel from a palette color (R188). -/
def colorDistance (w : Color) (t : Texel) (p : Color) : Nat :=
  w.r * absDiff t.r p.r + w.g * absDiff t.g p.g + w.b * absDiff t.b p.b

/-- The scan of R188 and R189 over the remaining distances: the index reached, the best index and distance so far. -/
def nearestLoop : Nat → Option (Nat × Nat) → List Nat → Nat
  | _, best, [] => (best.map (·.1)).getD 0
  | j, best, d :: ds =>
    let next := match best with
      | none => (j, d)
      | some (b, bestD) => if d < bestD then (j, d) else (b, bestD)
    if d = 0 then next.1 else nearestLoop (j + 1) (some next) ds

/-- The index of the nearest entry, the lowest on a tie (R188, R189). -/
def nearest (distances : List Nat) : Nat := nearestLoop 0 none distances

/-- `colorCode` of a present texel (R188). -/
def nearestColor (w : Color) (palette : List Color) (t : Texel) : Nat := nearest (palette.map (colorDistance w t))

/-- `alphaCode` of a present texel (R189). -/
def nearestAlpha (palette : List Nat) (t : Texel) : Nat := nearest (palette.map (absDiff t.a))

/-- `EncodeBlock(tex, W, H, bx, by)` (R192), 16 bytes. -/
def encodeTexels (band : AlphaBand) (tex : List Texel) (w h bx by_ : Nat) : List Byte :=
  let present := presentTexels tex w h bx by_
  if blockTransparent present then transparentBlock
  else
    let ends := alphaEndpoints band (present.map (·.a))
    let mx := boxMax (boxTexels present)
    let mn := boxMin (boxTexels present)
    let colors := colorEndpoints mx mn
    let weights := channelWeights mx mn
    let cp := colorPalette colors.1 colors.2
    let ap := alphaPalette ends.1 ends.2
    let code (f : Texel → Nat) (i : Nat) : Nat :=
      if texelPresent w h bx by_ i then f (tex.getD i Texel.zero) else 0
    emitBlock ends.1 ends.2 (packCodes 3 ((List.range 16).map (code (nearestAlpha ap))))
      colors.1 colors.2 (packCodes 2 ((List.range 16).map (code (nearestColor weights cp))))

end Sys2Proof.Machine
end

