-- ==== Sys2Proof/Machine/BlockCommands.lean ====
section
/-! DEFINITION. Sys2Proof/Machine/BlockCommands.lean: DECODE_BLOCK and ENCODE_BLOCK (42_block_codec.md R176, R192).
Neither reads a profile, a descriptor or a buffer, and neither has an error. -/
namespace Sys2Proof.Machine

/-- The 64 bytes of 16 decoded texels, texel i at bytes 4i .. 4i+3 (R176). -/
def decodedBytes (blk : List Byte) : List Byte := (List.range 16).flatMap fun i => (decodeTexel blk i).bytes

/-- The 16 texels of a 64-byte register, texel i at bytes 4i .. 4i+3 (10_state.md R32). -/
def texelsOf (l : List Byte) : List Texel := (List.range 16).map fun i => texelAt l (4 * i)

/-- `DECODE_BLOCK` (R176). -/
def execDecodeBlock (s : State) : Result :=
  .next (s.withRes (s.res.setTex (bytesOf 64 (decodedBytes s.opr.blk.val.toList)))).complete

/-- `ENCODE_BLOCK` (R192). -/
def execEncodeBlock (s : State) : Result :=
  .next (s.withRes (s.res.setBlk (bytesOf 16 (encodeTexels s.cfg.alphaBand (texelsOf s.opr.tex.val.toList)
    (s.num .imgW) (s.num .imgH) (s.num .blkX) (s.num .blkY))))).complete

end Sys2Proof.Machine
end

