-- ==== Sys2Proof/Machine/Retile.lean ====
section
/-! DEFINITION. Sys2Proof/Machine/Retile.lean: the tiling orchestrator (41_tiling_orchestrator.md R150 to R157): the
block grid, the descriptor checks, the offset pass, and RETILE_TO_LINEAR and RETILE_TO_TILED. -/
namespace Sys2Proof.Machine

/-! ### Grid and payload (R150, R151) -/

/-- `blocksPerRow` (R150). -/
def blocksWide (s : State) : Nat := (s.num .dWidth + 3) / 4

/-- Block rows (R150). -/
def blocksHigh (s : State) : Nat := (s.num .dHeight + 3) / 4

/-- `FORMAT_BPP[D_FORMAT & 0x3F]` (R151); 0 where the table has no entry, which CheckDescriptor refuses. -/
def surfaceBpp (s : State) : Nat := (formatBppOf s.cfg (hwFormat (s.num .dFormat))).getD 0

/-- `payloadSize` (R151). -/
def payloadSize (s : State) : Nat := surfaceBpp s / 8

/-- `LinearOffset(bx, by)` for a payload size (R150). -/
def linearOffset (s : State) (payload : Nat) (b : Nat × Nat) : Nat := (b.2 * blocksWide s + b.1) * payload

/-- The block coordinates `(bx, by)` in row-major order: `by` outer, `bx` inner (R157). -/
def blockGrid (s : State) : List (Nat × Nat) :=
  (List.range (blocksHigh s)).flatMap fun by_ => (List.range (blocksWide s)).map fun bx => (bx, by_)

/-! ### Descriptor checks (R152) -/

/-- `CheckDescriptor()` (R152). -/
def checkDescriptor (s : State) : Except Cause Unit :=
  if profileAdmitted s.cfg.profile = false then .error .profileNotAdmitted
  else if 16 < s.num .dTileMode then .error .tileModeRange
  else match formatBppOf s.cfg (hwFormat (s.num .dFormat)) with
    | none => .error .formatUnknown
    | some bpp =>
      if bpp ≠ 64 ∧ bpp ≠ 128 then .error .payloadBpp
      else if s.num .dWidth = 0 ∨ s.num .dHeight = 0 then .error .emptySurface
      else if s.num .dPitch = 0 then .error .pitchZero
      else if s.num .dDepth ≠ 1 ∨ s.num .dSlices ≠ 1 ∨ s.num .dSamples ≠ 1 then .error .notSingle
      else .ok ()

/-- The codec commands' BC3 test (43_pipeline.md R221, R222, R224). -/
def checkBc3 (s : State) : Except Cause Unit :=
  if hwFormat (s.num .dFormat) ≠ bc3Format then .error .notBc3 else .ok ()

/-! ### The offset pass (R153) -/

/-- The operands `TiledOffset` passes to `Address` (R153). -/
def blockAddrArgs (s : State) (b : Nat × Nat) : AddrArgs :=
  { x := b.1, y := b.2, slice := 0, sample := 0, bpp := surfaceBpp s, pitch := s.num .dPitch
    height := blocksHigh s, numSlices := 1, numSamples := 1
    tileMode := s.num .dTileMode, swizzle := s.num .dSwizzle }

/-- `TiledOffset(bx, by)` for a payload size (R153): R151's in a retile, 16 in a codec command (43_pipeline.md R221). -/
def tiledOffset (s : State) (payload : Nat) (b : Nat × Nat) : Except Cause Nat :=
  match address s.cfg (blockAddrArgs s b) with
  | .error c => .error c
  | .ok r => if fitsOffset s.cfg (r.byte + payload) then .ok r.byte else .error .offsetWidth

/-- A block of the grid and its tiled offset. -/
structure PlacedBlock where
  block : Nat × Nat
  offset : Nat
deriving DecidableEq, Repr

/-- One step of the offset pass. -/
def placeBlock (s : State) (payload : Nat) (b : Nat × Nat) : Except Cause PlacedBlock :=
  match tiledOffset s payload b with
  | .error c => .error c
  | .ok o => .ok { block := b, offset := o }

/-- Every block's tiled offset, in row-major order, or the first error (R154, R244). -/
def placeBlocks (s : State) (payload : Nat) : Except Cause (List PlacedBlock) :=
  traverseExcept (placeBlock s payload) (blockGrid s)

/-! ### Buffer checks (R156) -/

/-- PreconditionViolation 1 and 2: the bytes the command needs of `SRC` and of `DST`. -/
def checkBuffers (s : State) (srcNeed dstNeed : Nat) : Except Cause Unit :=
  if s.num .srcLen < srcNeed then .error .srcShort
  else if s.num .dstCap < dstNeed then .error .dstShort
  else .ok ()

/-- PreconditionViolation 1, 2, 3 of a command on a tiled surface (R156). -/
def checkTiled (s : State) (payload srcNeed dstNeed : Nat) (placed : List PlacedBlock) : Except Cause Unit :=
  match checkBuffers s srcNeed dstNeed with
  | .error c => .error c
  | .ok _ =>
    if placed.any (fun p => decide (s.num .dDataSize < p.offset + payload)) then .error .tiledRange
    else .ok ()

/-! ### The end of a command that writes `DST` -/

/-- `DST` and `RES_LEN` are written and the command completes (R154). -/
def State.deliver (s : State) (dst : Memory) (len : Nat) : State :=
  ((s.withDst dst).withRes (s.res.setLen len)).complete

/-- `for a in 0..n-1: MemWrite(DST, a, 1, [0])` (R155). -/
def zeroFill (dst : Memory) (n : Nat) : Memory := dst.writeBytes 0 (List.replicate n 0)

/-- One payload moved: source offset, then destination offset (20_memory.md R57). -/
def movePayload (src : Memory) (n : Nat) (dst : Memory) (move : Nat × Nat) : Except Fault Memory :=
  match readSrc src move.1 n with
  | .error f => .error f
  | .ok bs => .ok (dst.writeBytes move.2 bs)

/-- Payloads moved in order (R64, R157). -/
def movePayloads (src : Memory) (n : Nat) (dst : Memory) (moves : List (Nat × Nat)) : Except Fault Memory :=
  foldExcept (movePayload src n) dst moves

/-- `RETILE_TO_LINEAR` (R154). -/
def execRetileToLinear (s : State) : Result :=
  orRaise s (checkDescriptor s) fun _ =>
  orRaise s (placeBlocks s (payloadSize s)) fun placed =>
  let need := blocksWide s * blocksHigh s * payloadSize s
  orRaise s (checkTiled s (payloadSize s) (s.num .dDataSize) need placed) fun _ =>
  orFault (movePayloads s.src (payloadSize s) s.dst
      (placed.map fun p => (p.offset, linearOffset s (payloadSize s) p.block))) fun dst =>
  .next (s.deliver dst need)

/-- `RETILE_TO_TILED` (R155). -/
def execRetileToTiled (s : State) : Result :=
  orRaise s (checkDescriptor s) fun _ =>
  orRaise s (placeBlocks s (payloadSize s)) fun placed =>
  let need := s.num .dDataSize
  orRaise s (checkTiled s (payloadSize s) (blocksWide s * blocksHigh s * payloadSize s) need placed) fun _ =>
  orFault (movePayloads s.src (payloadSize s) (zeroFill s.dst need)
      (placed.map fun p => (linearOffset s (payloadSize s) p.block, p.offset))) fun dst =>
  .next (s.deliver dst need)

end Sys2Proof.Machine
end

