-- ==== Sys2Proof/Machine/Pipeline.lean ====
section
/-! DEFINITION. Sys2Proof/Machine/Pipeline.lean: DECODE_SURFACE, ENCODE_SURFACE, DECODE_LINEAR and ENCODE_LINEAR
(43_pipeline.md R220 to R225). -/
namespace Sys2Proof.Machine

/-! ### Pixels (R220, R225) -/

/-- The offset of the pixel of texel i of a block in an RGBA8 image of width `w` (R220). -/
def pixelOffset (w : Nat) (b : Nat × Nat) (i : Nat) : Nat := ((4 * b.2 + i / 4) * w + (4 * b.1 + i % 4)) * 4

/-- One texel of `WritePixels` (R225). -/
def writePixel (w : Nat) (b : Nat × Nat) (blk : List Byte) (dst : Memory) (i : Nat) : Memory :=
  dst.writeBytes (pixelOffset w b i) (decodeTexel blk i).bytes

/-- `WritePixels(blk, bx, by)`: the present texels, in order; absent texels are dropped (R225). -/
def writePixels (w h : Nat) (b : Nat × Nat) (blk : List Byte) (dst : Memory) : Memory :=
  (presentIndices w h b.1 b.2).foldl (writePixel w b blk) dst

/-- One texel of `GatherTexels` (R225). -/
def gatherTexel (src : Memory) (w h : Nat) (b : Nat × Nat) (i : Nat) : Except Fault Texel :=
  if texelPresent w h b.1 b.2 i then
    match readSrc src (pixelOffset w b i) 4 with
    | .error f => .error f
    | .ok bs => .ok (texelAt bs 0)
  else .ok Texel.zero

/-- `GatherTexels(bx, by)` (R225). -/
def gatherTexels (src : Memory) (w h : Nat) (b : Nat × Nat) : Except Fault (List Texel) :=
  traverseExcept (gatherTexel src w h b) (List.range 16)

/-! ### Blocks decoded and encoded in order -/

/-- One block decoded from its source offset into the image. -/
def decodeInto (src : Memory) (w h : Nat) (dst : Memory) (p : PlacedBlock) : Except Fault Memory :=
  match readSrc src p.offset 16 with
  | .error f => .error f
  | .ok blk => .ok (writePixels w h p.block blk dst)

/-- One block encoded from the image to its destination offset. -/
def encodeInto (band : AlphaBand) (src : Memory) (w h : Nat) (dst : Memory) (p : PlacedBlock) : Except Fault Memory :=
  match gatherTexels src w h p.block with
  | .error f => .error f
  | .ok tex => .ok (dst.writeBytes p.offset (encodeTexels band tex w h p.block.1 p.block.2))

/-- The blocks of a linear block array, in row-major order (R220). -/
def linearBlocks (s : State) : List PlacedBlock :=
  (blockGrid s).map fun b => { block := b, offset := linearOffset s 16 b }

/-- The bytes of the RGBA8 image (R220). -/
def imageBytes (s : State) : Nat := s.num .dWidth * s.num .dHeight * 4

/-- Decode blocks into `DST`. -/
def decodeAll (s : State) (blocks : List PlacedBlock) : Except Fault Memory :=
  foldExcept (decodeInto s.src (s.num .dWidth) (s.num .dHeight)) s.dst blocks

/-- Encode blocks into a destination. -/
def encodeAll (s : State) (dst : Memory) (blocks : List PlacedBlock) : Except Fault Memory :=
  foldExcept (encodeInto s.cfg.alphaBand s.src (s.num .dWidth) (s.num .dHeight)) dst blocks

/-! ### The commands -/

/-- `DECODE_SURFACE` (R221); its payload is 16 whatever the format table says: DEDUCED (log 21), unsafe for such a table. -/
def execDecodeSurface (s : State) : Result :=
  orRaise s (checkDescriptor s) fun _ =>
  orRaise s (checkBc3 s) fun _ =>
  orRaise s (placeBlocks s 16) fun placed =>
  let need := imageBytes s
  orRaise s (checkTiled s 16 (s.num .dDataSize) need placed) fun _ =>
  orFault (decodeAll s placed) fun dst => .next (s.deliver dst need)

/-- `ENCODE_SURFACE` (R222); the payload as above (log 21). -/
def execEncodeSurface (s : State) : Result :=
  orRaise s (checkDescriptor s) fun _ =>
  orRaise s (checkBc3 s) fun _ =>
  orRaise s (placeBlocks s 16) fun placed =>
  let need := s.num .dDataSize
  orRaise s (checkTiled s 16 (imageBytes s) need placed) fun _ =>
  orFault (encodeAll s (zeroFill s.dst need) placed) fun dst => .next (s.deliver dst need)

/-- `CheckLinear()` (R224). -/
def checkLinear (s : State) : Except Cause Unit :=
  match checkBc3 s with
  | .error c => .error c
  | .ok _ => if s.num .dWidth = 0 ∨ s.num .dHeight = 0 then .error .emptySurface else .ok ()

/-- `DECODE_LINEAR` (R223). -/
def execDecodeLinear (s : State) : Result :=
  orRaise s (checkLinear s) fun _ =>
  let need := imageBytes s
  orRaise s (checkBuffers s (blocksWide s * blocksHigh s * 16) need) fun _ =>
  orFault (decodeAll s (linearBlocks s)) fun dst => .next (s.deliver dst need)

/-- `ENCODE_LINEAR` (R224). -/
def execEncodeLinear (s : State) : Result :=
  orRaise s (checkLinear s) fun _ =>
  let need := blocksWide s * blocksHigh s * 16
  orRaise s (checkBuffers s (imageBytes s) need) fun _ =>
  orFault (encodeAll s s.dst (linearBlocks s)) fun dst => .next (s.deliver dst need)

end Sys2Proof.Machine
end

