-- ==== Sys2Proof/Machine/Dispatch.lean ====
section
/-! DEFINITION. Sys2Proof/Machine/Dispatch.lean: one arm per command (30_encoding.md R71). -/
namespace Sys2Proof.Machine

def exec (i : Instr) (s : State) : Host.Outcome State Fault Refusal :=
  match i with
  | .addr => Sys2Proof.Machine.execAddr s
  | .addrLinear => Sys2Proof.Machine.execAddrLinear s
  | .addrMicro => Sys2Proof.Machine.execAddrMicro s
  | .addrMacro => Sys2Proof.Machine.execAddrMacro s
  | .retileToLinear => Sys2Proof.Machine.execRetileToLinear s
  | .retileToTiled => Sys2Proof.Machine.execRetileToTiled s
  | .decodeBlock => Sys2Proof.Machine.execDecodeBlock s
  | .encodeBlock => Sys2Proof.Machine.execEncodeBlock s
  | .decodeSurface => Sys2Proof.Machine.execDecodeSurface s
  | .encodeSurface => Sys2Proof.Machine.execEncodeSurface s
  | .decodeLinear => Sys2Proof.Machine.execDecodeLinear s
  | .encodeLinear => Sys2Proof.Machine.execEncodeLinear s

end Sys2Proof.Machine
end

