-- ==== Sys2Proof/Machine/HostOps.lean ====
section
/-! DEFINITION. Sys2Proof/Machine/HostOps.lean: what each host line does (30_encoding.md R85; 10_state.md R29, R36,
R37; 70_reset_and_hazards.md R271), and the pseudo-instructions (R86). -/
namespace Sys2Proof.Machine

/-- The host writes a word to `CMD` (R29): `CMD` takes it, then the command it encodes runs to completion, or the word
raises IllegalCommand (30_encoding.md R72). -/
def issue (w : Word) (s : State) : Result :=
  match decode w with
  | .ok i => exec i (s.withCmd w)
  | .error e => .next ((s.withCmd w).raise (causeOfIllegal e))

/-- The host resets the instance: the configuration survives (R271), and so do the host's remaining lines. The buffers are
the host's and their content unspecified (10_state.md R38): no byte is listed. DESIGN CHOICE (log 6), safe. -/
def resetInstance (s : State) : State := (State.reset.withCfg s.cfg).withProgram s.program

/-- What the host gets back from a read (R37, R274). -/
inductive ReadValue where
  | number (n : Nat)
  | bytes (l : List Byte)
deriving DecidableEq, Repr

/-- `DST[a .. a+n-1]` as the host reads it (R37, 20_memory.md R51). -/
def readDst (dst : Memory) (a n : Nat) : Except Fault (List Byte) :=
  match dst.readBytes a n with
  | .error e => .error (.dstUnwritten e)
  | .ok bs => .ok bs

/-- The value of a host read (R37). A read of `CMD` has none (R29). A result register nothing has written reads as the
value reset gave it (log 1). That the step keeps no record of the value read is the model's: DESIGN CHOICE (log 11), safe. -/
def readValue (s : State) : ReadTarget → Except Fault ReadValue
  | .resByte => .ok (.number s.res.byte.val)
  | .resBit => .ok (.number s.res.bit.val.toNat)
  | .resBlk => .ok (.bytes s.res.blk.val.toList)
  | .resTex => .ok (.bytes s.res.tex.val.toList)
  | .resLen => .ok (.number s.res.len.val.toNat)
  | .status => .ok (.number s.status.toNat)
  | .dst a n =>
    match readDst s.dst a n with
    | .error f => .error f
    | .ok bs => .ok (.bytes bs)
  | .cmd => .error .cmdWriteOnly

/-- What a host line does to the instance (R85, R37). One number written to `BLK` or `TEX` is laid out by `LEbytes_n`
(00_scope.md R11, R78): DEDUCED for `BLK`, DESIGN CHOICE for `TEX` (log 23), unsafe. Reads and writes of `STATUS` change nothing (20_memory.md R59,
10_state.md R36). -/
def runLine (l : HostLine) (s : State) : Result :=
  match l with
  | .set r v => .next (s.withOpr (s.opr.set r (BitVec.ofNat 32 v)))
  | .setBlk v => .next (s.withOpr (s.opr.setBlk (bytesOf 16 (leBytes 16 v))))
  | .setTex v => .next (s.withOpr (s.opr.setTex (bytesOf 64 (leBytes 64 v))))
  | .loadSrc a bytes => .next (s.withSrc (s.src.writeBytes a bytes))
  | .loadDst a bytes => .next (s.withDst (s.dst.writeBytes a bytes))
  | .loadBlk bytes => .next (s.withOpr (s.opr.setBlk (bytesOf 16 bytes)))
  | .loadTex bytes => .next (s.withOpr (s.opr.setTex (bytesOf 64 bytes)))
  | .command w => issue w s
  | .copySrcDst n => orFault (readDst s.dst 0 n) fun bs => .next (s.withSrc (s.src.writeBytes 0 bs))
  | .copyBlk => .next (s.withOpr (s.opr.setBlk s.res.blk.val))
  | .copyTex => .next (s.withOpr (s.opr.setTex s.res.tex.val))
  | .read t => orFault (readValue s t) fun _ => .next s
  | .writeStatus _ => .next s
  | .reset => .next (resetInstance s)

/-- The next line is taken from the program, and does what it does if it is a host action (WellFormed.lean);
another line is refused: DESIGN CHOICE (log 12), safe. -/
def takeLine (l : HostLine) (rest : List HostLine) (s : State) : Result :=
  if l.wf then runLine l (s.withProgram rest) else .refused .illFormedLine

/-! ### Pseudo-instructions (R86) -/

/-- `address x, y, slice, sample, bpp, pitch, height, numSlices, numSamples, tileMode, swizzle`. -/
def pseudoAddress (a : AddrArgs) : List HostLine :=
  [.set .x a.x, .set .y a.y, .set .slice a.slice, .set .sample a.sample, .set .bpp a.bpp, .set .pitch a.pitch,
    .set .height a.height, .set .numSlices a.numSlices, .set .numSamples a.numSamples, .set .tileMode a.tileMode,
    .set .swizzle a.swizzle, .command (encode .addr)]

/-- `retile.tolinear`. -/
def pseudoRetileToLinear : List HostLine := [.command (encode .retileToLinear)]

/-- `retile.totiled`. -/
def pseudoRetileToTiled : List HostLine := [.command (encode .retileToTiled)]

/-- `encblk w, h, bx, by`. -/
def pseudoEncblk (w h bx by_ : Nat) : List HostLine :=
  [.set .imgW w, .set .imgH h, .set .blkX bx, .set .blkY by_, .command (encode .encodeBlock)]

end Sys2Proof.Machine
end

