-- ==== Sys2Proof/Machine/Step.lean ====
section
/-! DEFINITION. Sys2Proof/Machine/Step.lean: one step is one line of the host's program (30_encoding.md R85): a
command is one atomic transition (20_memory.md R60), and with no line left the engine is idle and keeps every
register (60_exceptions.md R255). -/
namespace Sys2Proof.Machine

/-- One step. -/
def step (s : State) : Host.Outcome State Fault Refusal :=
  match s.program with
  | [] => .next s
  | l :: rest => takeLine l rest s

/-- The state whose next step writes this word to `CMD`. A command is not fetched from memory (20_memory.md R67): the
host writes it (10_state.md R29), so the word is put first among the host's lines (log 3). -/
def State.withFetchWord (s : State) (nbits w : Nat) : State :=
  { s with program := .command (BitVec.ofNat 32 (w % 2 ^ nbits)) :: s.program }

end Sys2Proof.Machine
end

