-- ==== Sys2Proof/Safety.lean ====
section
/-! DEFINITION. Sys2Proof/Safety.lean: what counts as a run the spec gives a meaning. The spec makes a read of an
unwritten register a model fault (10_state.md R34, 60_exceptions.md R248); this model gives every register a value (log 1),
and says here, on State's written marks, when the spec's fault would have been met. The terms of the claims about
errors and frames stand here too. -/
namespace Sys2Proof.Machine

/-- The operand registers by name, the two byte registers among them. -/
inductive OperandName where
  | word (r : OperandReg)
  | blk
  | tex
deriving DecidableEq, Repr

/-- Whether an operand register was written since reset (R34). -/
def operandWritten (s : State) : OperandName → Bool
  | .word r => (s.opr.get r).written
  | .blk => s.opr.blk.written
  | .tex => s.opr.tex.written

/-- Whether a result register was written since reset (R35); the other targets of a read are no such register. -/
def resultWritten (s : State) : ReadTarget → Bool
  | .resByte => s.res.byte.written
  | .resBit => s.res.bit.written
  | .resBlk => s.res.blk.written
  | .resTex => s.res.tex.written
  | .resLen => s.res.len.written
  | .status => true
  | .dst _ _ => true
  | .cmd => true

/-- The address operands a class reads beyond R100's common checks (40_address_engine.md R100, R115). -/
def classReads (s : State) : TileClass → List OperandReg
  | .linear => .numSlices :: (if s.num .numSlices = 0 then [] else [.x, .y, .slice, .sample])
  | .microTiled => [.x, .y, .slice]
  | .macroTiled => .numSamples :: (if s.num .numSamples = 0 then [] else [.x, .y, .slice, .sample, .swizzle])

/-- The registers an address command reads, up to the check that ends it (R100, R115). -/
def addrReads (cls : Option TileClass) (s : State) : List OperandReg :=
  let k := tileClass (s.num .tileMode)
  if profileAdmitted s.cfg.profile = false then []
  else if 16 < s.num .tileMode then [.tileMode]
  else if cls.isSome = true ∧ cls ≠ some k then [.tileMode]
  else if s.num .bpp = 0 ∨ 128 < s.num .bpp then [.tileMode, .bpp]
  else if s.num .pitch = 0 then [.tileMode, .bpp, .pitch]
  else if s.num .height = 0 then [.tileMode, .bpp, .pitch, .height]
  else [.tileMode, .bpp, .pitch, .height] ++ classReads s k

/-- The registers CheckDescriptor reads, up to the check that ends it (41_tiling_orchestrator.md R152). A check that joins
tests with `or` (D_WIDTH, D_HEIGHT; D_DEPTH, D_SLICES, D_SAMPLES) counts every register it names as read, also where an earlier
test decides it: R9 and R12 give `or` no evaluation order, on which R34's and R248's model fault hangs. DESIGN CHOICE
(log 22), unsafe. -/
def descriptorReads (s : State) : List OperandReg :=
  if profileAdmitted s.cfg.profile = false then []
  else if 16 < s.num .dTileMode then [.dTileMode]
  else if formatBppOf s.cfg (hwFormat (s.num .dFormat)) ≠ some 64
      ∧ formatBppOf s.cfg (hwFormat (s.num .dFormat)) ≠ some 128 then [.dTileMode, .dFormat]
  else if s.num .dWidth = 0 ∨ s.num .dHeight = 0 then [.dTileMode, .dFormat, .dWidth, .dHeight]
  else if s.num .dPitch = 0 then [.dTileMode, .dFormat, .dWidth, .dHeight, .dPitch]
  else [.dTileMode, .dFormat, .dWidth, .dHeight, .dPitch, .dDepth, .dSlices, .dSamples]

/-- The registers a command on a tiled surface reads; only the Macro class reads the swizzle (30_encoding.md R76; DEDUCED,
log 16, unsafe). `codec` says whether the command makes the BC3 test. -/
def surfaceReads (codec : Bool) (srcNeed : Nat) (s : State) : List OperandReg :=
  descriptorReads s ++
  match checkDescriptor s, codec && decide (hwFormat (s.num .dFormat) ≠ bc3Format) with
  | .ok _, false =>
    (if tileClass (s.num .dTileMode) = .macroTiled then [.dSwizzle] else []) ++
    match placeBlocks s (if codec then 16 else payloadSize s) with
    | .ok _ => [.dDataSize, .srcLen] ++ (if s.num .srcLen < srcNeed then [] else [.dstCap])
    | .error _ => []
  | _, _ => []

/-- The registers a linear command reads (43_pipeline.md R223, R224). The `or` of CheckLinear counts D_WIDTH and D_HEIGHT as
read, also where D_WIDTH decides it: DESIGN CHOICE (log 22), unsafe, as in `descriptorReads` (R34, R248). -/
def linearReads (srcNeed : Nat) (s : State) : List OperandReg :=
  if hwFormat (s.num .dFormat) ≠ bc3Format then [.dFormat]
  else if s.num .dWidth = 0 ∨ s.num .dHeight = 0 then [.dFormat, .dWidth, .dHeight]
  else if s.num .srcLen < srcNeed then [.dFormat, .dWidth, .dHeight, .srcLen]
  else [.dFormat, .dWidth, .dHeight, .srcLen, .dstCap]

/-- The operand registers a command reads in a state. -/
def commandReads (i : Instr) (s : State) : List OperandName :=
  match i with
  | .addr => (addrReads none s).map .word
  | .addrLinear => (addrReads (some .linear) s).map .word
  | .addrMicro => (addrReads (some .microTiled) s).map .word
  | .addrMacro => (addrReads (some .macroTiled) s).map .word
  | .retileToLinear => (surfaceReads false (s.num .dDataSize) s).map .word
  | .retileToTiled => (surfaceReads false (blocksWide s * blocksHigh s * payloadSize s) s).map .word
  | .decodeBlock => [.blk]
  | .encodeBlock => [.tex, .word .imgW, .word .imgH, .word .blkX, .word .blkY]
  | .decodeSurface => (surfaceReads true (s.num .dDataSize) s).map .word
  | .encodeSurface => (surfaceReads true (imageBytes s) s).map .word
  | .decodeLinear => (linearReads (blocksWide s * blocksHigh s * 16) s).map .word
  | .encodeLinear => (linearReads (imageBytes s) s).map .word

/-- Whether a command reads an operand register nothing has written: the spec's model fault of R34. -/
def readsUnwritten (i : Instr) (s : State) : Bool := (commandReads i s).any fun r => !operandWritten s r

/-- Whether a host line reads a register nothing has written (R34, R35). -/
def lineReadsUnwritten (l : HostLine) (s : State) : Bool :=
  match l with
  | .command w =>
    match decode w with
    | .ok i => readsUnwritten i s
    | .error _ => false
  | .copyBlk => !s.res.blk.written
  | .copyTex => !s.res.tex.written
  | .read t => !resultWritten s t
  | .set _ _ | .setBlk _ | .setTex _ | .loadSrc _ _ | .loadDst _ _ | .loadBlk _ | .loadTex _ | .copySrcDst _ | .writeStatus _ | .reset => false

/-- A step the spec gives a meaning: it reads no unwritten register and answers a next state. -/
def SafeStep (s : State) : Prop :=
  (∀ l rest, s.program = l :: rest → lineReadsUnwritten l s = false) ∧ ∃ t, step s = .next t

/-! ### Terms of the claims -/

/-- `STATUS.CODE` is OK (10_state.md R36). -/
abbrev StatusIsOk (t : State) : Prop :=
  statusCode t.status = 0 ∧ statusInfo t.status = 0 ∧ statusValid t.status = true

/-- CODE and INFO of a state. -/
abbrev ending (t : State) : Nat × Nat := ((statusCode t.status).toNat, (statusInfo t.status).toNat)

/-- What no command writes (10_state.md R37): `CMD`, the operand registers, `SRC`, the configuration, the host's lines. -/
abbrev KeepsInputs (s t : State) : Prop :=
  t.cmd = s.cmd ∧ t.opr = s.opr ∧ t.src = s.src ∧ t.cfg = s.cfg ∧ t.program = s.program

/-- Of the machine only `BLK` changes, and the host's lines are the rest. -/
abbrev OnlyBlkChanges (s t : State) (rest : List HostLine) : Prop :=
  (∀ q, t.opr.get q = s.opr.get q) ∧ t.opr.tex = s.opr.tex ∧ t.cmd = s.cmd ∧ t.res = s.res ∧ t.status = s.status ∧
    t.src = s.src ∧ t.dst = s.dst ∧ t.cfg = s.cfg ∧ t.program = rest

/-- Of the machine only `TEX` changes, and the host's lines are the rest. -/
abbrev OnlyTexChanges (s t : State) (rest : List HostLine) : Prop :=
  (∀ q, t.opr.get q = s.opr.get q) ∧ t.opr.blk = s.opr.blk ∧ t.cmd = s.cmd ∧ t.res = s.res ∧ t.status = s.status ∧
    t.src = s.src ∧ t.dst = s.dst ∧ t.cfg = s.cfg ∧ t.program = rest

/-- Every byte of `DST` reads as before. -/
abbrev KeepsDst (s t : State) : Prop := ∀ a, t.dst.read a = s.dst.read a

/-- Two result files agree on the registers a command writes (10_state.md R35). -/
def OwnResultsAgree (i : Instr) (r r' : ResultFile) : Prop :=
  match i with
  | .addr | .addrLinear | .addrMicro | .addrMacro => r'.byte = r.byte ∧ r'.bit = r.bit
  | .decodeBlock => r'.tex = r.tex
  | .encodeBlock => r'.blk = r.blk
  | .retileToLinear | .retileToTiled | .decodeSurface | .encodeSurface | .decodeLinear | .encodeLinear => r'.len = r.len

/-- The n-th block of the grid in row-major order (41_tiling_orchestrator.md R150, R157). -/
abbrev nthBlockOf (s : State) (n : Nat) : Nat × Nat := (n % blocksWide s, n / blocksWide s)

/-- The 16 texels of a block as the image in `SRC` gives them: a present texel's four bytes, an absent one's zeros
(43_pipeline.md R225). -/
def imageTexelsOf (s : State) (b : Nat × Nat) : List Texel :=
  (List.range 16).map fun i =>
    if 4 * b.1 + i % 4 < s.num .dWidth ∧ 4 * b.2 + i / 4 < s.num .dHeight then
      texelAt ((List.range 4).map fun j =>
        (s.src.read (((4 * b.2 + i / 4) * s.num .dWidth + (4 * b.1 + i % 4)) * 4 + j)).getD 0) 0
    else Texel.zero

/-- The canonical form of both buffers. -/
abbrev BuffersCanonical (s : State) : Prop := s.src.wf ∧ s.dst.wf

/-- The endings of 60_exceptions.md R242: `(CODE, INFO)`, with OK first. -/
def endingsOfR242 : List (Nat × Nat) :=
  (0, 0) :: ((List.range 17).map fun k => (1, k + 1)) ++ [(2, 1), (2, 2), (2, 3), (3, 1), (3, 2)]

/-- The endings 60_exceptions.md R243 allows a command, OK aside. -/
def errorsOfR243 : Instr → List (Nat × Nat)
  | .addr => [(1, 1), (1, 2), (1, 3), (1, 4), (1, 5), (1, 6), (1, 7), (1, 8), (1, 9), (1, 12), (1, 13)]
  | .addrLinear => [(1, 1), (1, 2), (1, 3), (1, 4), (1, 5), (1, 6), (1, 11), (1, 13)]
  | .addrMicro => [(1, 1), (1, 2), (1, 3), (1, 4), (1, 5), (1, 11), (1, 13)]
  | .addrMacro => [(1, 1), (1, 2), (1, 3), (1, 4), (1, 5), (1, 7), (1, 8), (1, 9), (1, 11), (1, 12), (1, 13)]
  | .retileToLinear | .retileToTiled =>
    [(1, 1), (1, 2), (1, 4), (1, 9), (1, 10), (1, 12), (1, 13), (1, 14), (1, 15), (1, 17), (2, 1), (2, 2), (2, 3)]
  | .decodeSurface | .encodeSurface =>
    [(1, 1), (1, 2), (1, 4), (1, 9), (1, 10), (1, 12), (1, 13), (1, 14), (1, 15), (1, 16), (1, 17), (2, 1), (2, 2), (2, 3)]
  | .decodeLinear | .encodeLinear => [(1, 16), (1, 17), (2, 1), (2, 2)]
  | .decodeBlock | .encodeBlock => []

/-- The reserved bits of `STATUS` read as 0, and CODE and INFO are a pair of R242 (10_state.md R36, R242). -/
def StatusLegal (s : State) : Prop :=
  statusReservedLow s.status = 0 ∧ statusReservedHigh s.status = 0 ∧ ending s ∈ endingsOfR242

end Sys2Proof.Machine
end

