-- ==== Sys2Proof/Certificates/Slice0/Obligations.lean ====
section
/-! DEFINITION. Sys2Proof/Certificates/Slice0/Obligations.lean: the statements for the provers, from the numbered rules of
spec/. -/
open Sys2Proof Sys2Proof.Machine

/-! ## Reset, decode, and what a step runs -/

/-- 10_state.md R38, 70_reset_and_hazards.md R270: after reset STATUS is 0 and every operand and result register is
unwritten. That no byte of a buffer holds a value is the model's form of "unspecified" (log 5). -/
def Obligations.ResetLeavesEverythingUnwritten : Prop :=
  State.reset.status = 0 ∧ (∀ r, (State.reset.opr.get r).written = false) ∧
  State.reset.opr.blk.written = false ∧ State.reset.opr.tex.written = false ∧
  State.reset.res.byte.written = false ∧ State.reset.res.bit.written = false ∧
  State.reset.res.blk.written = false ∧ State.reset.res.tex.written = false ∧ State.reset.res.len.written = false ∧
  (∀ a, State.reset.src.read a = none ∧ State.reset.dst.read a = none)

/-- The invariants below hold at reset. -/
def Obligations.ResetMeetsTheInvariants : Prop :=
  BuffersCanonical State.reset ∧ StatusLegal State.reset

/-- 30_encoding.md R71: each command's word decodes to it. -/
def Obligations.DecodeOfEncodeIsTheCommand : Prop := ∀ i : Instr, decode (encode i) = .ok i

/-- R71: each row of the opcode map, as a word written out, the reserved rows among them; and a word that decodes to a
command equals that command's word exactly. -/
def Obligations.OpcodeMapWordsDecode : Prop :=
  decode 0x00000001#32 = .ok .addr ∧ decode 0x00000002#32 = .ok .addrLinear ∧
  decode 0x00000003#32 = .ok .addrMicro ∧ decode 0x00000004#32 = .ok .addrMacro ∧
  decode 0x00000005#32 = .ok .retileToLinear ∧ decode 0x00000006#32 = .ok .retileToTiled ∧
  decode 0x00000007#32 = .ok .decodeBlock ∧ decode 0x00000008#32 = .ok .encodeBlock ∧
  decode 0x00000009#32 = .ok .decodeSurface ∧ decode 0x0000000A#32 = .ok .encodeSurface ∧
  decode 0x0000000B#32 = .ok .decodeLinear ∧ decode 0x0000000C#32 = .ok .encodeLinear ∧
  decode 0x00000000#32 = .error .opcode ∧ (∀ op < 256, 0x0D ≤ op → decode (BitVec.ofNat 32 op) = .error .opcode) ∧
  ∀ (w : Word) (i : Instr), decode w = .ok i → w = encode i

/-- R72: a word written to CMD raises IllegalCommand 1 where bits 31:8 are not zero, else IllegalCommand 2 where its
opcode is 0x00 or at least 0x0D, else it runs the one command whose OP it is. That CMD then holds the word is the model's
choice (log 4). -/
def Obligations.DecodeIsExact : Prop :=
  ∀ (w : Word) (s : State),
    (256 ≤ w.toNat → decode w = .error .reservedBits ∧
      issue w s = .next ((s.withCmd w).withStatus (statusWord 3 (statusValid s.status) 1))) ∧
    (w.toNat = 0 ∨ (13 ≤ w.toNat ∧ w.toNat ≤ 255) → decode w = .error .opcode ∧
      issue w s = .next ((s.withCmd w).withStatus (statusWord 3 (statusValid s.status) 2))) ∧
    (1 ≤ w.toNat ∧ w.toNat ≤ 12 → ∃ i, decode w = .ok i ∧ (opcode i).toNat = w.toNat ∧ encode i = w ∧
      issue w s = exec i (s.withCmd w))

/-- R29, R60: where the host's next line writes a word to CMD that decodes to a command, the step is that command on the
state whose CMD holds the word and whose program is the rest. The lines in State are the model's choice (log 3), and so is the
word that CMD keeps (log 4). -/
def Obligations.StepRunsTheDecodedCommand : Prop :=
  ∀ (s : State) (w : Word) (rest : List HostLine) (i : Instr),
    s.program = .command w :: rest → decode w = .ok i → step s = exec i ((s.withProgram rest).withCmd w)

/-- R72, R245: a word that names no command ends in IllegalCommand, INFO 1 for the reserved bits and 2 for the opcode; of
the state only CMD, the program and STATUS's CODE and INFO change. CMD keeping the word is the model's choice (log 4). -/
def Obligations.IllegalWordRaises : Prop :=
  ∀ (s : State) (w : Word) (rest : List HostLine) (e : IllegalWord),
    s.program = .command w :: rest → decode w = .error e →
    step s = .next (((s.withProgram rest).withCmd w).withStatus
      (statusWord 3 (statusValid s.status) (if e = .reservedBits then 1 else 2)))

/-- 60_exceptions.md R255: with no line left (log 3) the engine is idle and keeps every register. 10_state.md R36: a host write of
STATUS is ignored. R37, 20_memory.md R59: a host read changes nothing of the machine and gives the register's content, or the
bytes of DST where each holds a value; R51: a read or a copy of DST that meets a byte without a value stops at the first such
offset (log 5); R29: a host read of CMD has no value: a model fault. That a result register nothing has written is no
fault is the model's choice (log 1), and so is that the value stands in `readValue` and not in State (log 11). -/
def Obligations.IdleReadAndStatusLinesKeepTheState : Prop :=
  ∀ (s : State) (rest : List HostLine),
    (s.program = [] → step s = .next s) ∧
    (∀ w, s.program = .writeStatus w :: rest → step s = .next (s.withProgram rest)) ∧
    (∀ target value, (target, value) ∈ [(ReadTarget.resByte, ReadValue.number s.res.byte.val),
        (.resBit, .number s.res.bit.val.toNat), (.resLen, .number s.res.len.val.toNat),
        (.resBlk, .bytes s.res.blk.val.toList), (.resTex, .bytes s.res.tex.val.toList), (.status, .number s.status.toNat)] →
      s.program = .read target :: rest → step s = .next (s.withProgram rest) ∧ readValue s target = .ok value) ∧
    (∀ a n bs, s.program = .read (.dst a n) :: rest → bs.length = n → (∀ j < n, s.dst.read (a + j) = bs[j]?) →
      step s = .next (s.withProgram rest) ∧ readValue s (.dst a n) = .ok (.bytes bs)) ∧
    (∀ a n j, s.program = .read (.dst a n) :: rest → j < n → s.dst.read (a + j) = none →
      (∀ k < j, (s.dst.read (a + k)).isSome) → step s = .fault (.dstUnwritten (a + j))) ∧
    (∀ n j, s.program = .copySrcDst n :: rest → j < n → s.dst.read j = none → (∀ k < j, (s.dst.read k).isSome) →
      step s = .fault (.dstUnwritten j)) ∧
    (s.program = .read .cmd :: rest → step s = .fault .cmdWriteOnly)

/-! ## The host's lines -/

/-- 10_state.md R30 to R33, 30_encoding.md R85: a `set` line writes the named operand register and nothing else. `BLK` then
holds the bytes whose little-endian integer (R78) is the value, and `TEX` likewise: that a number is laid out so is the
model's reading for `BLK` and its choice for `TEX` (log 23). -/
def Obligations.SetWritesOneOperandRegister : Prop :=
  ∀ (s : State) (v : Nat) (rest : List HostLine),
    (∀ r : OperandReg, s.program = .set r v :: rest → v < 2 ^ 32 →
      ∃ t, step s = .next t ∧ t.num r = v ∧ (t.opr.get r).written = true ∧
        (∀ q, q ≠ r → t.opr.get q = s.opr.get q) ∧ t.opr.blk = s.opr.blk ∧ t.opr.tex = s.opr.tex ∧
        t.cmd = s.cmd ∧ t.res = s.res ∧ t.status = s.status ∧ t.src = s.src ∧ t.dst = s.dst ∧ t.cfg = s.cfg ∧
        t.program = rest) ∧
    (s.program = .setBlk v :: rest → v < 256 ^ 16 →
      ∃ t, step s = .next t ∧ leNat t.opr.blk.val.toList = v ∧ t.opr.blk.written = true ∧ OnlyBlkChanges s t rest) ∧
    (s.program = .setTex v :: rest → v < 256 ^ 64 →
      ∃ t, step s = .next t ∧ leNat t.opr.tex.val.toList = v ∧ t.opr.tex.written = true ∧ OnlyTexChanges s t rest)

/-- R85, 20_memory.md R51, 70_reset_and_hazards.md R275: `load SRC` writes its bytes from its offset, the host's write of DST
likewise, and `copy SRC, DST, n` moves the n bytes of DST into SRC where each holds a value; no other byte and no register
changes. The line that writes DST is the model's form of R37 (log 20). -/
def Obligations.BufferLinesMoveTheirBytes : Prop :=
  ∀ (s : State) (rest : List HostLine),
    (∀ (a : Nat) (bytes : List Byte), s.program = .loadSrc a bytes :: rest → bytes ≠ [] →
      ∃ m, step s = .next ((s.withProgram rest).withSrc m) ∧ (∀ j < bytes.length, m.read (a + j) = bytes[j]?) ∧
        (∀ k, k < a ∨ a + bytes.length ≤ k → m.read k = s.src.read k)) ∧
    (∀ (a : Nat) (bytes : List Byte), s.program = .loadDst a bytes :: rest → bytes ≠ [] →
      ∃ m, step s = .next ((s.withProgram rest).withDst m) ∧ (∀ j < bytes.length, m.read (a + j) = bytes[j]?) ∧
        (∀ k, k < a ∨ a + bytes.length ≤ k → m.read k = s.dst.read k)) ∧
    (∀ n : Nat, s.program = .copySrcDst n :: rest → (∀ a < n, (s.dst.read a).isSome) →
      ∃ m, step s = .next ((s.withProgram rest).withSrc m) ∧ (∀ a < n, m.read a = s.dst.read a) ∧
        (∀ a, n ≤ a → m.read a = s.src.read a))

/-- R85, 10_state.md R32: `load BLK`, `load TEX`, `copy BLK, RES_BLK` and `copy TEX, RES_TEX` write that byte register and
nothing else of the machine. That a copy of an unwritten result is no fault is the model's choice (log 1). -/
def Obligations.ByteRegisterLinesWriteTheirRegister : Prop :=
  ∀ (s : State) (rest : List HostLine),
    (∀ bytes : List Byte, s.program = .loadBlk bytes :: rest → bytes.length = 16 →
      ∃ t, step s = .next t ∧ t.opr.blk.val.toList = bytes ∧ t.opr.blk.written = true ∧ OnlyBlkChanges s t rest) ∧
    (∀ bytes : List Byte, s.program = .loadTex bytes :: rest → bytes.length = 64 →
      ∃ t, step s = .next t ∧ t.opr.tex.val.toList = bytes ∧ t.opr.tex.written = true ∧ OnlyTexChanges s t rest) ∧
    (s.program = .copyBlk :: rest →
      ∃ t, step s = .next t ∧ t.opr.blk.val = s.res.blk.val ∧ t.opr.blk.written = true ∧ OnlyBlkChanges s t rest) ∧
    (s.program = .copyTex :: rest →
      ∃ t, step s = .next t ∧ t.opr.tex.val = s.res.tex.val ∧ t.opr.tex.written = true ∧ OnlyTexChanges s t rest)

/-- 70_reset_and_hazards.md R271: a reset keeps the profile, the format table and the parameters; R270: STATUS is 0 and
every operand and result register is unwritten. The values beside the unwritten marks are the model's choice (log 1), and so
is that the host's lines survive (log 6). -/
def Obligations.ResetLineKeepsTheConfiguration : Prop :=
  ∀ (s : State) (rest : List HostLine), s.program = .reset :: rest →
    ∃ t, step s = .next t ∧ t.cfg = s.cfg ∧ t.status = 0 ∧ t.opr = State.reset.opr ∧ t.res = State.reset.res ∧
      t.program = rest

/-! ## Rules over all commands and all steps -/

/-- 20_memory.md R50: both buffers stay in canonical form at every step. -/
def Obligations.StepKeepsBuffersCanonical : Prop :=
  ∀ s t : State, step s = .next t → BuffersCanonical s → BuffersCanonical t

/-- 10_state.md R36, 60_exceptions.md R242: at every step the reserved bits of STATUS stay 0, and CODE and INFO stay a
pair of R242's list. -/
def Obligations.StepKeepsStatusLegal : Prop :=
  ∀ s t : State, step s = .next t → StatusLegal s → StatusLegal t

/-- 00_scope.md R7, 70_reset_and_hazards.md R271: no step changes the configuration. Its place in State is the
model's choice (log 2). -/
def Obligations.StepKeepsTheConfiguration : Prop := ∀ s t : State, step s = .next t → t.cfg = s.cfg

/-- 60_exceptions.md R245: a command that ends in an error has written the CODE and INFO of its cause and nothing else:
VALID, the result and operand registers, both buffers and the profile are as before. So does a word
that names no command, once CMD holds it: that CMD holds the word is the model's choice (log 4). -/
def Obligations.ErrorChangesOnlyCodeAndInfo : Prop :=
  (∀ (i : Instr) (s t : State), exec i s = .next t → statusCode t.status ≠ 0 →
    ∃ c : Cause, t = s.withStatus (statusWord c.code (statusValid s.status) c.info)) ∧
  (∀ (w : Word) (s t : State), issue w s = .next t → statusCode t.status ≠ 0 →
    ∃ c : Cause, t = (s.withCmd w).withStatus (statusWord c.code (statusValid s.status) c.info))

/-- 10_state.md R36: a command that ends with CODE 0 leaves INFO 0 and VALID 1, and a command never clears VALID. -/
def Obligations.SuccessSetsValidAndNoCommandClearsIt : Prop :=
  ∀ (i : Instr) (s t : State), exec i s = .next t →
    (statusCode t.status = 0 → StatusIsOk t) ∧ (statusValid s.status = true → statusValid t.status = true)

/-- 60_exceptions.md R243: each command ends OK or in one of the errors its row lists; a word that decodes to no command
ends in IllegalCommand 1 or 2. -/
def Obligations.CommandsRaiseOnlyTheirErrors : Prop :=
  (∀ (i : Instr) (s t : State), exec i s = .next t → ending t = (0, 0) ∨ ending t ∈ errorsOfR243 i) ∧
  (∀ (w : Word) (e : IllegalWord) (s : State), decode w = .error e →
    ∃ t, issue w s = .next t ∧ ending t ∈ [(3, 1), (3, 2)])

/-- 60_exceptions.md R246: a command that ended in an error ends in the same error when it is issued again. -/
def Obligations.ErrorsRepeat : Prop :=
  ∀ (i : Instr) (s t : State), exec i s = .next t → statusCode t.status ≠ 0 → exec i t = .next t

/-- 10_state.md R37, R35: no command writes an operand register, SRC, CMD, the configuration or the host's lines; a command
writes only the result registers of its own row, and the address and block commands write no byte of DST (20_memory.md R53). -/
def Obligations.CommandsWriteOnlyTheirResults : Prop :=
  ∀ (i : Instr) (s t : State), exec i s = .next t → KeepsInputs s t ∧
    (i ∈ [Instr.addr, .addrLinear, .addrMicro, .addrMacro] →
      KeepsDst s t ∧ t.res.blk = s.res.blk ∧ t.res.tex = s.res.tex ∧ t.res.len = s.res.len) ∧
    (i = .decodeBlock →
      KeepsDst s t ∧ t.res.byte = s.res.byte ∧ t.res.bit = s.res.bit ∧ t.res.blk = s.res.blk ∧ t.res.len = s.res.len) ∧
    (i = .encodeBlock →
      KeepsDst s t ∧ t.res.byte = s.res.byte ∧ t.res.bit = s.res.bit ∧ t.res.tex = s.res.tex ∧ t.res.len = s.res.len) ∧
    (i ∈ [Instr.retileToLinear, .retileToTiled, .decodeSurface, .encodeSurface, .decodeLinear, .encodeLinear] →
      t.res.byte = s.res.byte ∧ t.res.bit = s.res.bit ∧ t.res.blk = s.res.blk ∧ t.res.tex = s.res.tex)

/-- 20_memory.md R52: a command on buffers writes DST only below RES_LEN, and RES_LEN is at most DST_CAP: every byte at
RES_LEN and above reads as before. -/
def Obligations.WritesStayBelowResLenAndCapacity : Prop :=
  ∀ (i : Instr) (s t : State),
    i ∈ [Instr.retileToLinear, .retileToTiled, .decodeSurface, .encodeSurface, .decodeLinear, .encodeLinear] →
    exec i s = .next t → statusCode t.status = 0 →
    t.res.len.val.toNat ≤ s.num .dstCap ∧ ∀ a, t.res.len.val.toNat ≤ a → t.dst.read a = s.dst.read a

/-- 20_memory.md R52: a command reads SRC only below SRC_LEN: the bytes at SRC_LEN and above, written or not, change nothing
of what it does. -/
def Obligations.ReadsStayBelowSrcLen : Prop :=
  ∀ (i : Instr) (s : State) (m : Memory), (∀ a < s.num .srcLen, m.read a = s.src.read a) →
    match exec i s, exec i (s.withSrc m) with
    | .next t, .next t' => t' = t.withSrc m
    | .fault f, .fault f' => f' = f
    | _, _ => False

/-- 70_reset_and_hazards.md R272, R282: what a command does depends on nothing an earlier command left in STATUS or a
result register. -/
def Obligations.CommandsIgnoreEarlierResults : Prop :=
  ∀ (i : Instr) (s : State) (r : ResultFile) (w : Word),
    match exec i s, exec i ((s.withRes r).withStatus w) with
    | .next t, .next t' => ending t' = ending t ∧ t'.dst = t.dst ∧ (ending t = (0, 0) → OwnResultsAgree i t.res t'.res)
    | .fault f, .fault f' => f' = f
    | _, _ => False

/-! ## Address engine -/

/-- 10_state.md R26: which profiles are admitted, and that an address-computing command under another raises
ConfigurationError 1. -/
def Obligations.UnadmittedProfileRaises : Prop :=
  (∀ p : Profile, profileAdmitted p = true ↔
    p.pipes = 2 ∧ (p.banks = 4 ∨ p.banks = 8) ∧ (∃ k, p.groupBytes = 2 ^ k) ∧
      1 ≤ p.rowSize ∧ 1 ≤ p.splitSize ∧ 2 ≤ p.swapSize) ∧
  (∀ (s : State) (i : Instr), profileAdmitted s.cfg.profile = false →
    i ∈ [Instr.addr, .addrLinear, .addrMicro, .addrMacro, .retileToLinear, .retileToTiled, .decodeSurface,
      .encodeSurface] →
    exec i s = .next (s.withStatus (statusWord 1 (statusValid s.status) 1)))

/-- 40_address_engine.md R100, 60_exceptions.md R244: the first failing check, in the order of R100, is the one an address
command reports; the class check of ADDR_LINEAR, ADDR_MICRO and ADDR_MACRO stands after the range check. -/
def Obligations.AddressChecksInOrder : Prop :=
  ∀ s : State, profileAdmitted s.cfg.profile = true →
    let fails (i : Instr) (info : Byte) : Prop :=
      exec i s = .next (s.withStatus (statusWord 1 (statusValid s.status) info))
    let tm := s.num .tileMode
    (16 < tm → ∀ i ∈ [Instr.addr, .addrLinear, .addrMicro, .addrMacro], fails i 2) ∧
    (tm ≤ 16 →
      (2 ≤ tm → fails .addrLinear 11) ∧ (tm ≤ 1 ∨ 4 ≤ tm → fails .addrMicro 11) ∧
      (tm ≤ 3 → fails .addrMacro 11)) ∧
    (∀ i, i = .addr ∧ tm ≤ 16 ∨ i = .addrLinear ∧ tm ≤ 1 ∨ i = .addrMicro ∧ 2 ≤ tm ∧ tm ≤ 3 ∨
        i = .addrMacro ∧ 4 ≤ tm ∧ tm ≤ 16 →
      (s.num .bpp = 0 ∨ 128 < s.num .bpp → fails i 3) ∧
      (1 ≤ s.num .bpp → s.num .bpp ≤ 128 →
        (s.num .pitch = 0 → fails i 4) ∧
        (s.num .pitch ≠ 0 → s.num .height = 0 → fails i 5) ∧
        (s.num .pitch ≠ 0 → s.num .height ≠ 0 → tm ≤ 1 → s.num .numSlices = 0 → fails i 6) ∧
        (s.num .pitch ≠ 0 → s.num .height ≠ 0 → 4 ≤ tm → s.num .numSamples = 0 → fails i 7)))

/-- R115, R116: on a tile mode of a class, ADDR is that class's command. -/
def Obligations.AddrIsTheCommandOfItsClass : Prop :=
  ∀ s : State,
    (s.num .tileMode ≤ 1 → exec .addr s = exec .addrLinear s) ∧
    (2 ≤ s.num .tileMode ∧ s.num .tileMode ≤ 3 → exec .addr s = exec .addrMicro s) ∧
    (4 ≤ s.num .tileMode ∧ s.num .tileMode ≤ 16 → exec .addr s = exec .addrMacro s)

/-- R117, R101: where its operands pass R100's checks, ADDR_LINEAR, and ADDR on the same tile mode, completes with the address
computed in bits and split, or, where the byte offset does not fit OFFSET_WIDTH, raises ConfigurationError 13. -/
def Obligations.AddrLinearCompletes : Prop :=
  ∀ s : State, profileAdmitted s.cfg.profile = true → s.num .tileMode ≤ 1 →
    1 ≤ s.num .bpp ∧ s.num .bpp ≤ 128 → s.num .pitch ≠ 0 → s.num .height ≠ 0 → s.num .numSlices ≠ 0 →
    ∀ v, v = s.num .bpp * (s.num .x + s.num .pitch * s.num .y
          + (s.num .slice + s.num .numSlices * s.num .sample) * s.num .height * s.num .pitch) →
    ∀ i, i = .addrLinear ∨ i = .addr →
    ((∀ w, s.cfg.offsetWidth = some w → v / 8 < 2 ^ w) →
      exec i s = .next ((s.withRes (s.res.setAddr (v / 8) (v % 8))).withStatus statusOk)) ∧
    (∀ w, s.cfg.offsetWidth = some w → 2 ^ w ≤ v / 8 →
      exec i s = .next (s.withStatus (statusWord 1 (statusValid s.status) 13)))

/-- R118, R101: where its operands pass R100's checks, ADDR_MICRO, and ADDR on the same tile mode, completes with the
micro-tiled address, or, where the byte offset does not fit OFFSET_WIDTH, raises ConfigurationError 13. -/
def Obligations.AddrMicroCompletes : Prop :=
  ∀ s : State, profileAdmitted s.cfg.profile = true → 2 ≤ s.num .tileMode ∧ s.num .tileMode ≤ 3 →
    1 ≤ s.num .bpp ∧ s.num .bpp ≤ 128 → s.num .pitch ≠ 0 → s.num .height ≠ 0 →
    ∀ t idx byte, t = (if s.num .tileMode = 3 then 4 else 1) →
    idx = pixelIndex (s.num .x) (s.num .y) (s.num .slice) (s.num .bpp) (s.num .tileMode) →
    byte = s.num .bpp * idx / 8
        + (64 * t * s.num .bpp + 7) / 8 * (s.num .x / 8 + s.num .y / 8 * (s.num .pitch / 8))
        + (s.num .pitch * s.num .height * t * s.num .bpp + 7) / 8 * (s.num .slice / t) →
    ∀ i, i = .addrMicro ∨ i = .addr →
    ((∀ w, s.cfg.offsetWidth = some w → byte < 2 ^ w) →
      exec i s = .next ((s.withRes (s.res.setAddr byte (s.num .bpp * idx % 8))).withStatus statusOk)) ∧
    (∀ w, s.cfg.offsetWidth = some w → 2 ^ w ≤ byte →
      exec i s = .next (s.withStatus (statusWord 1 (statusValid s.status) 13)))

/-- R122, R126, R128, R101: where its operands pass R100's checks, one sample fits a split, a bank-swapped mode has four banks
and a nonzero width, and the result fits OFFSET_WIDTH, ADDR_MACRO, and ADDR on the same tile mode, completes with the macro
address. -/
def Obligations.AddrMacroCompletes : Prop :=
  ∀ s : State, profileAdmitted s.cfg.profile = true → 4 ≤ s.num .tileMode ∧ s.num .tileMode ≤ 16 →
    1 ≤ s.num .bpp ∧ s.num .bpp ≤ 128 → s.num .pitch ≠ 0 → s.num .height ≠ 0 → s.num .numSamples ≠ 0 →
    (s.num .numSamples = 1 ∨ 8 * s.num .bpp * thickness (s.num .tileMode) ≤ s.cfg.profile.splitSize) →
    (isBankSwapped (s.num .tileMode) = true → s.cfg.profile.banks = 4 ∧
      ∀ sp, sampleSplit s.cfg.profile (addrOperands s) = .ok sp →
        bankSwapStart s.cfg.profile (s.num .tileMode) (s.num .bpp) sp.ns ≠ 0) →
    (∀ w r, s.cfg.offsetWidth = some w → addrMacro s.cfg.profile s.cfg.halveWhile (addrOperands s) = .ok r →
      r.byte < 2 ^ w) →
    ∃ r : BitAddress, addrMacro s.cfg.profile s.cfg.halveWhile (addrOperands s) = .ok r ∧ r.bit < 8 ∧
      exec .addrMacro s = .next ((s.withRes (s.res.setAddr r.byte r.bit)).withStatus statusOk) ∧
      exec .addr s = .next ((s.withRes (s.res.setAddr r.byte r.bit)).withStatus statusOk)

/-- R119 to R128, R112, R101 in one formula, for every tile mode of the class and every number of samples, where one sample
fits a split and a bank-swapped mode has four banks and a nonzero width. With G = GROUP_BYTES the byte is the low part of the
total offset below G, the perturbed pipe and bank above it (the bank then swapped, R126), and the high part above both;
where it does not fit OFFSET_WIDTH, ConfigurationError 13. -/
def Obligations.AddrMacroResult : Prop :=
  ∀ s : State, profileAdmitted s.cfg.profile = true → 4 ≤ s.num .tileMode ∧ s.num .tileMode ≤ 16 →
    1 ≤ s.num .bpp ∧ s.num .bpp ≤ 128 → s.num .pitch ≠ 0 → s.num .height ≠ 0 → s.num .numSamples ≠ 0 →
    ∀ p x y z bpp tm n t mtP mtH oneSample,
    p = s.cfg.profile → x = s.num .x → y = s.num .y → z = s.num .slice → bpp = s.num .bpp → tm = s.num .tileMode →
    n = s.num .numSamples → t = thickness tm → mtP = macroTilePitch p tm → mtH = macroTileHeight p tm →
    oneSample = 8 * bpp * t → (n = 1 ∨ oneSample ≤ p.splitSize) →
    -- the element and the sample split (R119, R122)
    ∀ elem isSplit ns splits sliceBits sampleSlice elemIn,
    elem = bpp * pixelIndex x y z bpp tm + s.num .sample * (bpp * t * 64) →
    isSplit = decide (1 < n ∧ p.splitSize < n * oneSample) →
    ns = (if isSplit then p.splitSize / oneSample else n) → splits = (if isSplit then n / ns else 1) →
    sliceBits = n * bpp * t * 64 / splits →
    sampleSlice = (if isSplit then elem / sliceBits else 0) → elemIn = (if isSplit then elem % sliceBits else elem) →
    -- the total offset (R124, R125, R127)
    ∀ macroOff sliceOff total,
    macroOff = (x / mtP + s.num .pitch / mtP * (y / mtH)) * ((ns * t * bpp * mtH * mtP + 7) / 8) →
    sliceOff = (s.num .height * s.num .pitch * t * bpp * ns + 7) / 8 * ((sampleSlice + splits * z) / t) →
    total = (elemIn + 7) / 8 + (macroOff + sliceOff) / (2 * p.banks) →
    -- pipe and bank (R120, R121, R123)
    ∀ sliceIn bp, sliceIn = (if isThickMacro tm then z / 4 else z) →
    bp = ((pipeWoRot x y + 2 * bankWoRot p x y) ^^^ (2 * sampleSlice * (p.banks / 2 + 1)) ^^^
        (s.num .swizzle / 256 % 2 + 2 * (s.num .swizzle / 512 % 4) + sliceIn * rotation p tm)) % (2 * p.banks) →
    -- the bank swap (R112, R114, R126)
    ∀ nsw width bank, nsw = (if isThickMacro tm then 4 else ns) →
    width = min (2 * p.banks * p.rowSize / (nsw * aspect tm * 2 * bpp))
        (max (p.groupBytes * 8 * p.banks / (nsw * 8 * bpp)) (max 1 (p.swapSize / 2 / bpp) * 8 * p.banks)) →
    (isBankSwapped tm = true → p.banks = 4 ∧ width ≠ 0) →
    bank = (if isBankSwapped tm then
        bp / 2 ^^^ [0, 1, 3, 2].getD (x / mtP * mtP / halve s.cfg.halveWhile width (s.num .pitch) % 4) 0 else bp / 2) →
    ∀ byte, byte = total % p.groupBytes + p.groupBytes * (bp % 2 + 2 * bank) + 2 * p.banks * p.groupBytes * (total / p.groupBytes) →
    ∀ i, i = .addrMacro ∨ i = .addr →
    ((∀ w, s.cfg.offsetWidth = some w → byte < 2 ^ w) →
      exec i s = .next ((s.withRes (s.res.setAddr byte (elem % 8))).withStatus statusOk)) ∧
    (∀ w, s.cfg.offsetWidth = some w → 2 ^ w ≤ byte →
      exec i s = .next (s.withStatus (statusWord 1 (statusValid s.status) 13)))

/-- R127, R82, R123, R128: the macro byte offset holds offsetLow, pipe, bank and offsetHigh in disjoint places: below
GROUP_BYTES the low part of the total offset, above it the pipe of the perturbed bank and pipe, above that the bank the swap
answers, and above that the high part; and AddrMacro answers an address only so. -/
def Obligations.MacroAddressFieldsAreDisjoint : Prop :=
  ∀ (p : Profile) (h : HalveWhile) (a : AddrArgs), profileAdmitted p = true →
    (∀ (sp : SampleSplit) (total pipe bank : Nat), sampleSplit p a = .ok sp →
      total = macroTotalOffset p a sp → pipe = bankPipe p a sp.sampleSlice % p.pipes →
      swapBank p h a sp.ns (bankPipe p a sp.sampleSlice / p.pipes) = .ok bank →
      pipe < p.pipes ∧ bank < p.banks ∧ ∃ r, addrMacro p h a = .ok r ∧
        r.byte % p.groupBytes = total % p.groupBytes ∧ r.byte / p.groupBytes % p.pipes = pipe ∧
        r.byte / (p.groupBytes * p.pipes) % p.banks = bank ∧
        r.byte / (p.groupBytes * p.pipes * p.banks) = total / p.groupBytes ∧ r.bit = macroElemBits a % 8) ∧
    (∀ r, addrMacro p h a = .ok r → ∃ sp bank, sampleSplit p a = .ok sp ∧
      swapBank p h a sp.ns (bankPipe p a sp.sampleSlice / p.pipes) = .ok bank)

/-- R122: the sample split refuses exactly where there is more than one sample and one sample does not fit; where it
answers, at least one sample and one split remain; R112: slicesPerTile is then 1. -/
def Obligations.SampleSplitRefusesExactly : Prop :=
  ∀ (p : Profile) (a : AddrArgs), 1 ≤ a.numSamples → 1 ≤ a.bpp → 1 ≤ p.splitSize →
    (sampleSplit p a = .error .sampleSplit ↔
      1 < a.numSamples ∧ p.splitSize < 8 * a.bpp * thickness a.tileMode) ∧
    (∀ sp, sampleSplit p a = .ok sp → 1 ≤ sp.ns ∧ 1 ≤ sp.splits ∧ slicesPerTile p a.bpp sp.ns = 1)

/-- R113: the halving loop ends, at the first width that fails its condition, and never turns a nonzero width into 0. -/
def Obligations.HalvingStopsAtTheBound : Prop :=
  ∀ (h : HalveWhile) (w pitch : Nat), 1 ≤ pitch →
    (∃ k, halve h w pitch = w / 2 ^ k ∧ halveMore h (w / 2 ^ k) pitch = false ∧
      ∀ j < k, halveMore h (w / 2 ^ j) pitch = true) ∧
    (h = .gt → halve h w pitch ≤ 2 * pitch) ∧ (h = .ge → halve h w pitch < 2 * pitch) ∧
    (w ≠ 0 → halve h w pitch ≠ 0)

/-- R130: with x below the pitch the two settings of BSW_HALVE_WHILE give the same answer, and the rule's own example of an x
at or above the pitch where they differ. -/
def Obligations.HalvingReadingsAgreeInsideThePitch : Prop :=
  (∀ (p : Profile) (a : AddrArgs), a.x < a.pitch → addrMacro p .gt a = addrMacro p .ge a) ∧
  ∀ a : AddrArgs, a = { x := 32, y := 0, slice := 0, sample := 0, bpp := 128, pitch := 16, height := 16, numSlices := 1
                        numSamples := 1, tileMode := 8, swizzle := 0 } →
    addrMacro defaultProfile .gt a = .ok { byte := 8704, bit := 0 } ∧
    addrMacro defaultProfile .ge a = .ok { byte := 9728, bit := 0 }

/-- R108: the pixel index is the sum of the bits of R106 and R107, each at its place; it is below 64, 256 or 512 by thickness,
and only the low three bits of each coordinate are read. -/
def Obligations.PixelIndexBoundsAndInputs : Prop :=
  ∀ x y z bpp tm : Nat,
    pixelIndex x y z bpp tm
      = ∑ k ∈ Finset.range 9, (pixelBits bpp x y ++ depthBits (thickness tm) z).getD k 0 <<< k ∧
    (thickness tm = 1 → pixelIndex x y z bpp tm < 64) ∧ (thickness tm = 4 → pixelIndex x y z bpp tm < 256) ∧
    (thickness tm = 8 → pixelIndex x y z bpp tm < 512) ∧
    pixelIndex x y z bpp tm = pixelIndex (x % 8) (y % 8) (z % 8) bpp tm

/-- R129: under the default profile, with pitch and height 64, slice 0, one sample and swizzle 0, the byte offsets of the 64 by 64
elements are the multiples of the element size below the surface size, each once, for the thin tiled modes at 64 and 128
bits per element. The default sizes are log 13's. -/
def Obligations.ThinAddressesTileTheSurface : Prop :=
  ∀ tm ∈ [2, 4, 5, 6, 8, 9, 10, 12, 14], ∀ bpp ∈ [64, 128],
    let addrOf (x y : Nat) : Except Cause BitAddress := address defaultConfig
      { x := x, y := y, slice := 0, sample := 0, bpp := bpp, pitch := 64, height := 64, numSlices := 1
        numSamples := 1, tileMode := tm, swizzle := 0 }
    (∀ x < 64, ∀ y < 64, ∃ m < 4096, addrOf x y = .ok { byte := m * (bpp / 8), bit := 0 }) ∧
    (∀ m < 4096, ∃ x < 64, ∃ y < 64, addrOf x y = .ok { byte := m * (bpp / 8), bit := 0 }) ∧
    (∀ x < 64, ∀ y < 64, ∀ x' < 64, ∀ y' < 64, addrOf x y = addrOf x' y' → x = x' ∧ y = y')

/-- R122, R126, R112, R101: the errors of the macro class after R100's checks, in their order: no room for one sample, a
bank-swapped mode with 8 banks, a bank-swap width of 0, an offset too wide. -/
def Obligations.MacroErrorsInOrder : Prop :=
  ∀ s : State, profileAdmitted s.cfg.profile = true → 4 ≤ s.num .tileMode ∧ s.num .tileMode ≤ 16 →
    1 ≤ s.num .bpp ∧ s.num .bpp ≤ 128 → s.num .pitch ≠ 0 → s.num .height ≠ 0 → s.num .numSamples ≠ 0 →
    let fails (info : Byte) : Prop :=
      exec .addrMacro s = .next (s.withStatus (statusWord 1 (statusValid s.status) info)) ∧
      exec .addr s = .next (s.withStatus (statusWord 1 (statusValid s.status) info))
    (1 < s.num .numSamples → s.cfg.profile.splitSize < 8 * s.num .bpp * thickness (s.num .tileMode) → fails 8) ∧
    (∀ sp, sampleSplit s.cfg.profile (addrOperands s) = .ok sp → isBankSwapped (s.num .tileMode) = true →
      (s.cfg.profile.banks = 8 → fails 12) ∧
      (s.cfg.profile.banks = 4 →
        bankSwapStart s.cfg.profile (s.num .tileMode) (s.num .bpp) sp.ns = 0 → fails 9)) ∧
    (∀ r w, addrMacro s.cfg.profile s.cfg.halveWhile (addrOperands s) = .ok r → s.cfg.offsetWidth = some w →
      2 ^ w ≤ r.byte → fails 13)

/-- 30_encoding.md R76: pipeSwizzle is bit 8 of the swizzle value and bankSwizzle its bits [10:9]; no rule reads another bit,
and outside the Macro class no rule reads any. -/
def Obligations.OtherSwizzleBitsAreIgnored : Prop :=
  (∀ v : Nat, pipeSwizzle v = v / 2 ^ 8 % 2 ∧ bankSwizzle v = v / 2 ^ 9 % 4) ∧
  ∀ (i : Instr) (s : State) (r : OperandReg) (v : Word),
    (r = .swizzle ∧ (s.num .tileMode ≤ 3 ∨ v.toNat / 256 % 8 = s.num r / 256 % 8) ∨
      r = .dSwizzle ∧ (s.num .dTileMode ≤ 3 ∨ v.toNat / 256 % 8 = s.num r / 256 % 8)) →
    match exec i s, exec i (s.withOpr (s.opr.set r v)) with
    | .next t, .next t' => t'.res = t.res ∧ t'.dst = t.dst ∧ t'.status = t.status
    | .fault f, .fault f' => f' = f
    | _, _ => False

/-! ## Tiling orchestrator -/

/-- 41_tiling_orchestrator.md R152, 60_exceptions.md R244: the descriptor checks in order, and the BC3 test after them
(43_pipeline.md R221, R222), for the commands on a tiled surface. -/
def Obligations.DescriptorErrorsInOrder : Prop :=
  ∀ (s : State) (i : Instr), i ∈ [Instr.retileToLinear, .retileToTiled, .decodeSurface, .encodeSurface] →
    let fails (info : Byte) : Prop := exec i s = .next (s.withStatus (statusWord 1 (statusValid s.status) info))
    (profileAdmitted s.cfg.profile = false → fails 1) ∧
    (profileAdmitted s.cfg.profile = true →
      (16 < s.num .dTileMode → fails 2) ∧
      (s.num .dTileMode ≤ 16 → formatBppOf s.cfg (s.num .dFormat % 64) = none → fails 10) ∧
      (∀ bpp, s.num .dTileMode ≤ 16 → formatBppOf s.cfg (s.num .dFormat % 64) = some bpp →
        (bpp ≠ 64 → bpp ≠ 128 → fails 15) ∧
        (bpp = 64 ∨ bpp = 128 →
          (s.num .dWidth = 0 ∨ s.num .dHeight = 0 → fails 17) ∧
          (s.num .dWidth ≠ 0 → s.num .dHeight ≠ 0 →
            (s.num .dPitch = 0 → fails 4) ∧
            (s.num .dPitch ≠ 0 → (s.num .dDepth ≠ 1 ∨ s.num .dSlices ≠ 1 ∨ s.num .dSamples ≠ 1) → fails 14) ∧
            (s.num .dPitch ≠ 0 → s.num .dDepth = 1 → s.num .dSlices = 1 → s.num .dSamples = 1 →
              i = .decodeSurface ∨ i = .encodeSurface → s.num .dFormat % 64 ≠ 0x33 → fails 16)))))

/-- 41_tiling_orchestrator.md R156, 60_exceptions.md R244: after the descriptor checks the first block in row-major order
whose offset raises an error ends the command with it; once every offset is known, the buffer checks come in the order 1,
2, 3. -/
def Obligations.OffsetAndBufferErrorsInOrder : Prop :=
  ∀ (s : State) (i : Instr) (payload srcNeed dstNeed : Nat),
    checkDescriptor s = .ok () →
    (i = .retileToLinear ∧ payload = payloadSize s ∧ srcNeed = s.num .dDataSize ∧
        dstNeed = blocksWide s * blocksHigh s * payload) ∨
      (i = .retileToTiled ∧ payload = payloadSize s ∧ srcNeed = blocksWide s * blocksHigh s * payload ∧
        dstNeed = s.num .dDataSize) ∨
      (i = .decodeSurface ∧ payload = 16 ∧ srcNeed = s.num .dDataSize ∧
        dstNeed = s.num .dWidth * s.num .dHeight * 4 ∧ s.num .dFormat % 64 = 0x33) ∨
      (i = .encodeSurface ∧ payload = 16 ∧ srcNeed = s.num .dWidth * s.num .dHeight * 4 ∧
        dstNeed = s.num .dDataSize ∧ s.num .dFormat % 64 = 0x33) →
    (∀ n c, n < blocksWide s * blocksHigh s →
      (∀ m < n, ∃ o, tiledOffset s payload (nthBlockOf s m) = .ok o) →
      tiledOffset s payload (nthBlockOf s n) = .error c → exec i s = .next (s.raise c)) ∧
    (∀ off : Nat → Nat,
      (∀ n < blocksWide s * blocksHigh s, tiledOffset s payload (nthBlockOf s n) = .ok (off n)) →
      (s.num .srcLen < srcNeed → exec i s = .next (s.withStatus (statusWord 2 (statusValid s.status) 1))) ∧
      (srcNeed ≤ s.num .srcLen → s.num .dstCap < dstNeed →
        exec i s = .next (s.withStatus (statusWord 2 (statusValid s.status) 2))) ∧
      (srcNeed ≤ s.num .srcLen → dstNeed ≤ s.num .dstCap →
        (∃ n < blocksWide s * blocksHigh s, s.num .dDataSize < off n + payload) →
        exec i s = .next (s.withStatus (statusWord 2 (statusValid s.status) 3))))

/-- R153: the bit offset of a block's tiled address is always 0. -/
def Obligations.TiledOffsetsHaveNoBitPart : Prop :=
  ∀ (s : State) (b : Nat × Nat) (r : BitAddress), checkDescriptor s = .ok () →
    address s.cfg (blockAddrArgs s b) = .ok r → r.bit = 0

/-- R154: where the checks pass and every byte of every block at its tiled offset holds a value, RETILE_TO_LINEAR completes: the
n-th block in row-major order is copied from its tiled offset to n·payloadSize, and nothing else of DST changes. 20_memory.md R51,
60_exceptions.md R248: where a byte of a block holds no value, the command stops on such a byte. -/
def Obligations.RetileToLinearCopiesEveryBlock : Prop :=
  ∀ (s : State) (off : Nat → Nat), checkDescriptor s = .ok () →
    (∀ n < blocksWide s * blocksHigh s,
      tiledOffset s (payloadSize s) (nthBlockOf s n) = .ok (off n) ∧ off n + payloadSize s ≤ s.num .dDataSize) →
    s.num .dDataSize ≤ s.num .srcLen → blocksWide s * blocksHigh s * payloadSize s ≤ s.num .dstCap →
    ((∀ n < blocksWide s * blocksHigh s, ∀ j < payloadSize s, (s.src.read (off n + j)).isSome) →
      ∃ t, exec .retileToLinear s = .next t ∧ StatusIsOk t ∧
        t.res.len.val.toNat = blocksWide s * blocksHigh s * payloadSize s ∧ KeepsInputs s t ∧
        (∀ n < blocksWide s * blocksHigh s, ∀ j < payloadSize s,
          t.dst.read (n * payloadSize s + j) = s.src.read (off n + j)) ∧
        (∀ a, blocksWide s * blocksHigh s * payloadSize s ≤ a → t.dst.read a = s.dst.read a)) ∧
    (∀ n < blocksWide s * blocksHigh s, ∀ j < payloadSize s, s.src.read (off n + j) = none →
      ∃ m < blocksWide s * blocksHigh s, ∃ k < payloadSize s, s.src.read (off m + k) = none ∧
        exec .retileToLinear s = .fault (.srcUnwritten (off m + k)))

/-- R155, R157: where the checks pass and every byte of the linear array holds a value, RETILE_TO_TILED completes: a byte of
the tiled surface holds the byte of the last block in row-major order that covers it, or 0 where none does, and nothing
else of DST changes. 20_memory.md R51, 60_exceptions.md R248: where a byte of the array holds no value, the command stops on such
a byte. -/
def Obligations.RetileToTiledPlacesEveryBlock : Prop :=
  ∀ (s : State) (off : Nat → Nat), checkDescriptor s = .ok () →
    (∀ n < blocksWide s * blocksHigh s,
      tiledOffset s (payloadSize s) (nthBlockOf s n) = .ok (off n) ∧ off n + payloadSize s ≤ s.num .dDataSize) →
    blocksWide s * blocksHigh s * payloadSize s ≤ s.num .srcLen → s.num .dDataSize ≤ s.num .dstCap →
    ((∀ a < blocksWide s * blocksHigh s * payloadSize s, (s.src.read a).isSome) →
      ∃ t, exec .retileToTiled s = .next t ∧ StatusIsOk t ∧ t.res.len.val.toNat = s.num .dDataSize ∧ KeepsInputs s t ∧
        (∀ n < blocksWide s * blocksHigh s, ∀ j < payloadSize s,
          (∀ m, n < m → m < blocksWide s * blocksHigh s →
            off n + j < off m ∨ off m + payloadSize s ≤ off n + j) →
          t.dst.read (off n + j) = s.src.read (n * payloadSize s + j)) ∧
        (∀ a < s.num .dDataSize,
          (∀ n < blocksWide s * blocksHigh s, a < off n ∨ off n + payloadSize s ≤ a) → t.dst.read a = some 0) ∧
        (∀ a, s.num .dDataSize ≤ a → t.dst.read a = s.dst.read a)) ∧
    (∀ a < blocksWide s * blocksHigh s * payloadSize s, s.src.read a = none →
      ∃ e < blocksWide s * blocksHigh s * payloadSize s, s.src.read e = none ∧
        exec .retileToTiled s = .fault (.srcUnwritten e))

/-- R158 (b): RETILE_TO_TILED and then RETILE_TO_LINEAR on its output, given as SRC, reproduces the linear block array, for
offsets that are pairwise distinct multiples of the payload. -/
def Obligations.RetileRoundTripFromLinear : Prop :=
  ∀ (s : State) (off : Nat → Nat) (t u : State) (scratch : Memory) (len cap : Word),
    (∀ n < blocksWide s * blocksHigh s,
      tiledOffset s (payloadSize s) (nthBlockOf s n) = .ok (off n) ∧ payloadSize s ∣ off n) →
    (∀ m n, m < n → n < blocksWide s * blocksHigh s → off m ≠ off n) →
    exec .retileToTiled s = .next t → StatusIsOk t →
    exec .retileToLinear (((t.withSrc t.dst).withDst scratch).withOpr ((t.opr.set .srcLen len).set .dstCap cap))
      = .next u → StatusIsOk u →
    ∀ a < blocksWide s * blocksHigh s * payloadSize s, u.dst.read a = s.src.read a

/-- R158 (a): RETILE_TO_LINEAR and then RETILE_TO_TILED on its output, given as SRC, reproduces every byte of the tiled
surface that lies in some block's range and gives 0 for the others, for offsets that are pairwise distinct multiples of
the payload. -/
def Obligations.RetileRoundTripFromTiled : Prop :=
  ∀ (s : State) (off : Nat → Nat) (t u : State) (scratch : Memory) (len cap : Word),
    (∀ n < blocksWide s * blocksHigh s,
      tiledOffset s (payloadSize s) (nthBlockOf s n) = .ok (off n) ∧ payloadSize s ∣ off n) →
    (∀ m n, m < n → n < blocksWide s * blocksHigh s → off m ≠ off n) →
    exec .retileToLinear s = .next t → StatusIsOk t →
    exec .retileToTiled (((t.withSrc t.dst).withDst scratch).withOpr ((t.opr.set .srcLen len).set .dstCap cap))
      = .next u → StatusIsOk u →
    ∀ a < s.num .dDataSize,
      ((∃ n < blocksWide s * blocksHigh s, off n ≤ a ∧ a < off n + payloadSize s) →
        u.dst.read a = s.src.read a) ∧
      ((∀ n < blocksWide s * blocksHigh s, ¬ (off n ≤ a ∧ a < off n + payloadSize s)) → u.dst.read a = some 0)

/-! ## Block codec -/

/-- 42_block_codec.md R176: DECODE_BLOCK completes in every state; texel i of RES_TEX is DecodeTexel of BLK, as the bytes R,
G, B, A at 4i, each channel a byte. That an unwritten BLK is no fault is the model's choice (log 1). -/
def Obligations.DecodeBlockCompletes : Prop :=
  ∀ s : State, ∃ t, exec .decodeBlock s = .next t ∧ StatusIsOk t ∧ KeepsInputs s t ∧ t.dst = s.dst ∧
    ∀ i < 16, texelAt t.res.tex.val.toList (4 * i) = decodeTexel s.opr.blk.val.toList i

/-- R192: ENCODE_BLOCK completes in every state, with RES_BLK the 16 bytes of EncodeBlock on the texels of TEX. That
unwritten operands are no fault is the model's choice (log 1). -/
def Obligations.EncodeBlockCompletes : Prop :=
  ∀ s : State, ∃ t, exec .encodeBlock s = .next t ∧ StatusIsOk t ∧ KeepsInputs s t ∧ t.dst = s.dst ∧
    t.res.blk.val.toList
      = encodeTexels s.cfg.alphaBand ((List.range 16).map fun i => texelAt s.opr.tex.val.toList (4 * i))
          (s.num .imgW) (s.num .imgH) (s.num .blkX) (s.num .blkY)

/-- R178, R179: a block whose present texels all have alpha 0, and one with no present texel, encodes to the sixteen bytes of
R179. -/
def Obligations.TransparentBlockHasItsEncoding : Prop :=
  ∀ (band : AlphaBand) (tex : List Texel) (w h bx by_ : Nat),
    (∀ i < 16, 4 * bx + i % 4 < w → 4 * by_ + i / 4 < h → (tex.getD i Texel.zero).a = 0) →
    encodeTexels band tex w h bx by_
      = [0xFF, 0x00, 0x49, 0x92, 0x24, 0x49, 0x92, 0x24, 0x01, 0x00, 0x00, 0x00, 0xFF, 0xFF, 0xFF, 0xFF]

/-- R193: for a non-transparent block every present texel decodes to the nearest entry, lowest index on a tie, of the color
palette under the block's weights and of the alpha palette, both built from the endpoints the block holds; for a transparent
block every texel decodes to alpha 0. -/
def Obligations.NearestReconstruction : Prop :=
  ∀ (band : AlphaBand) (tex : List Texel) (w h bx by_ : Nat) (blk : List Byte) (i : Nat),
    (∀ t ∈ tex, t.r < 256 ∧ t.g < 256 ∧ t.b < 256 ∧ t.a < 256) →
    blk = encodeTexels band tex w h bx by_ → i < 16 →
    (blockTransparent (presentTexels tex w h bx by_) = false → texelPresent w h bx by_ i = true →
      ∀ (px : Texel) (colors : List Color) (alphas : List Nat) (weights : Color),
      px = tex.getD i Texel.zero →
      colors = colorPalette (blockField blk 8 2) (blockField blk 10 2) →
      alphas = alphaPalette (byteNat blk 0) (byteNat blk 1) →
      weights = channelWeights (boxMax (boxTexels (presentTexels tex w h bx by_)))
        (boxMin (boxTexels (presentTexels tex w h bx by_))) →
      ∃ j k, ∃ (hj : j < colors.length) (hk : k < alphas.length),
        decodeTexel blk i = { r := colors[j].r, g := colors[j].g, b := colors[j].b, a := alphas[k] } ∧
        (∀ m, ∀ hm : m < colors.length, colorDistance weights px colors[j] ≤ colorDistance weights px colors[m] ∧
          (m < j → colorDistance weights px colors[j] < colorDistance weights px colors[m])) ∧
        (∀ m, ∀ hm : m < alphas.length, absDiff px.a alphas[k] ≤ absDiff px.a alphas[m] ∧
          (m < k → absDiff px.a alphas[k] < absDiff px.a alphas[m]))) ∧
    (blockTransparent (presentTexels tex w h bx by_) = true → (decodeTexel blk i).a = 0)

/-- R194: quantizing an expanded 565 word gives it back. -/
def Obligations.Pack565OfUnpack565 : Prop :=
  (∀ v < 32, expand5 v >>> 3 = v) ∧ (∀ v < 64, expand6 v >>> 2 = v) ∧
  (∀ c < 65536, pack565 (unpack565 c) = c)

/-- R174: the alpha palette of two bytes has eight entries, each a byte. -/
def Obligations.AlphaPaletteIsEightBytes : Prop :=
  ∀ a0 a1 : Nat, a0 < 256 → a1 < 256 →
    (alphaPalette a0 a1).length = 8 ∧ ∀ v ∈ alphaPalette a0 a1, v < 256

/-- R183, R184: the endpoints of the classifier: in direct mode A0 is the greatest sample and A1 the least, the greatest
decremented, below 0 to 255, where they are equal; in partial mode the least and the greatest, unchanged. -/
def Obligations.AlphaEndpointsByMode : Prop :=
  ∀ (band : AlphaBand) (samples : List Nat) (mn mx : Nat), (∀ v ∈ samples, mn ≤ v ∧ v ≤ mx) →
    mn ∈ samples → mx ∈ samples → mx < 256 →
    (directMode band samples = true → mn < mx → alphaEndpoints band samples = (mx, mn)) ∧
    (directMode band samples = true → mn = mx → alphaEndpoints band samples = (if mx = 0 then 255 else mx - 1, mn)) ∧
    (directMode band samples = false → alphaEndpoints band samples = (mn, mx))

/-- R188, R189: the scan answers the lowest index of a least distance. -/
def Obligations.NearestIsTheLowestLeast : Prop :=
  ∀ l : List Nat, l ≠ [] → ∃ h : nearest l < l.length,
    ∀ m, ∀ hm : m < l.length, l[nearest l] ≤ l[m] ∧ (m < nearest l → l[nearest l] < l[m])

/-! ## Pipeline -/

/-- 43_pipeline.md R223, R225: where the checks pass and every byte of the block array holds a value, DECODE_LINEAR completes:
the pixel of each present texel of the n-th block is DecodeTexel of the 16 bytes at 16n, and nothing else of DST changes.
20_memory.md R51, 60_exceptions.md R248: where a byte of the array holds no value, the command stops on such a byte. -/
def Obligations.DecodeLinearWritesEveryPixel : Prop :=
  ∀ s : State, checkLinear s = .ok () →
    blocksWide s * blocksHigh s * 16 ≤ s.num .srcLen → s.num .dWidth * s.num .dHeight * 4 ≤ s.num .dstCap →
    ((∀ a < blocksWide s * blocksHigh s * 16, (s.src.read a).isSome) →
      ∃ t, exec .decodeLinear s = .next t ∧ StatusIsOk t ∧ KeepsInputs s t ∧
        t.res.len.val.toNat = s.num .dWidth * s.num .dHeight * 4 ∧
        (∀ px < s.num .dWidth, ∀ py < s.num .dHeight, ∀ j < 4,
          t.dst.read ((py * s.num .dWidth + px) * 4 + j)
            = (decodeTexel ((List.range 16).map fun k =>
                  (s.src.read ((py / 4 * blocksWide s + px / 4) * 16 + k)).getD 0) (py % 4 * 4 + px % 4)).bytes[j]?) ∧
        (∀ a, s.num .dWidth * s.num .dHeight * 4 ≤ a → t.dst.read a = s.dst.read a)) ∧
    (∀ a < blocksWide s * blocksHigh s * 16, s.src.read a = none →
      ∃ e < blocksWide s * blocksHigh s * 16, s.src.read e = none ∧ exec .decodeLinear s = .fault (.srcUnwritten e))

/-- R224, R225: where the checks pass and every byte of the image holds a value, ENCODE_LINEAR completes: the 16 bytes at 16n
are EncodeBlock of the texels of the n-th block, and nothing else of DST changes. 20_memory.md R51, 60_exceptions.md R248: where a
byte of the image holds no value, the command stops on such a byte. -/
def Obligations.EncodeLinearWritesEveryBlock : Prop :=
  ∀ s : State, checkLinear s = .ok () →
    s.num .dWidth * s.num .dHeight * 4 ≤ s.num .srcLen → blocksWide s * blocksHigh s * 16 ≤ s.num .dstCap →
    ((∀ a < s.num .dWidth * s.num .dHeight * 4, (s.src.read a).isSome) →
      ∃ t, exec .encodeLinear s = .next t ∧ StatusIsOk t ∧ KeepsInputs s t ∧
        t.res.len.val.toNat = blocksWide s * blocksHigh s * 16 ∧
        (∀ n < blocksWide s * blocksHigh s, ∀ j < 16,
          t.dst.read (n * 16 + j)
            = (encodeTexels s.cfg.alphaBand (imageTexelsOf s (nthBlockOf s n)) (s.num .dWidth) (s.num .dHeight)
                (n % blocksWide s) (n / blocksWide s))[j]?) ∧
        (∀ a, blocksWide s * blocksHigh s * 16 ≤ a → t.dst.read a = s.dst.read a)) ∧
    (∀ a < s.num .dWidth * s.num .dHeight * 4, s.src.read a = none →
      ∃ e < s.num .dWidth * s.num .dHeight * 4, s.src.read e = none ∧ exec .encodeLinear s = .fault (.srcUnwritten e))

/-- R221, R225: where the checks pass and every byte of every block at its tiled offset holds a value, DECODE_SURFACE completes:
the pixel of each present texel of the n-th block is DecodeTexel of the 16 bytes at its tiled offset, and nothing else of DST
changes. 20_memory.md R51, 60_exceptions.md R248: where a byte of a block holds no value, the command stops on such a byte. -/
def Obligations.DecodeSurfaceWritesEveryPixel : Prop :=
  ∀ (s : State) (off : Nat → Nat), checkDescriptor s = .ok () → s.num .dFormat % 64 = 0x33 →
    (∀ n < blocksWide s * blocksHigh s,
      tiledOffset s 16 (nthBlockOf s n) = .ok (off n) ∧ off n + 16 ≤ s.num .dDataSize) →
    s.num .dDataSize ≤ s.num .srcLen → s.num .dWidth * s.num .dHeight * 4 ≤ s.num .dstCap →
    ((∀ n < blocksWide s * blocksHigh s, ∀ j < 16, (s.src.read (off n + j)).isSome) →
      ∃ t, exec .decodeSurface s = .next t ∧ StatusIsOk t ∧ KeepsInputs s t ∧
        t.res.len.val.toNat = s.num .dWidth * s.num .dHeight * 4 ∧
        (∀ px < s.num .dWidth, ∀ py < s.num .dHeight, ∀ j < 4,
          t.dst.read ((py * s.num .dWidth + px) * 4 + j)
            = (decodeTexel ((List.range 16).map fun k =>
                  (s.src.read (off (py / 4 * blocksWide s + px / 4) + k)).getD 0) (py % 4 * 4 + px % 4)).bytes[j]?) ∧
        (∀ a, s.num .dWidth * s.num .dHeight * 4 ≤ a → t.dst.read a = s.dst.read a)) ∧
    (∀ n < blocksWide s * blocksHigh s, ∀ j < 16, s.src.read (off n + j) = none →
      ∃ m < blocksWide s * blocksHigh s, ∃ k < 16, s.src.read (off m + k) = none ∧
        exec .decodeSurface s = .fault (.srcUnwritten (off m + k)))

/-- R222, R225, 41_tiling_orchestrator.md R157: where the checks pass and every byte of the image holds a value, ENCODE_SURFACE
completes: a byte of the tiled surface holds the byte of the last block in row-major order that covers it, encoded from the
image, or 0 where none does, and nothing else of DST changes. 20_memory.md R51, 60_exceptions.md R248: where a byte of the image
holds no value, the command stops on such a byte. -/
def Obligations.EncodeSurfaceWritesEveryBlock : Prop :=
  ∀ (s : State) (off : Nat → Nat), checkDescriptor s = .ok () → s.num .dFormat % 64 = 0x33 →
    (∀ n < blocksWide s * blocksHigh s,
      tiledOffset s 16 (nthBlockOf s n) = .ok (off n) ∧ off n + 16 ≤ s.num .dDataSize) →
    s.num .dWidth * s.num .dHeight * 4 ≤ s.num .srcLen → s.num .dDataSize ≤ s.num .dstCap →
    ((∀ a < s.num .dWidth * s.num .dHeight * 4, (s.src.read a).isSome) →
      ∃ t, exec .encodeSurface s = .next t ∧ StatusIsOk t ∧ KeepsInputs s t ∧
        t.res.len.val.toNat = s.num .dDataSize ∧
        (∀ n < blocksWide s * blocksHigh s, ∀ j < 16,
          (∀ m, n < m → m < blocksWide s * blocksHigh s → off n + j < off m ∨ off m + 16 ≤ off n + j) →
          t.dst.read (off n + j)
            = (encodeTexels s.cfg.alphaBand (imageTexelsOf s (nthBlockOf s n)) (s.num .dWidth) (s.num .dHeight)
                (n % blocksWide s) (n / blocksWide s))[j]?) ∧
        (∀ a < s.num .dDataSize,
          (∀ n < blocksWide s * blocksHigh s, a < off n ∨ off n + 16 ≤ a) → t.dst.read a = some 0) ∧
        (∀ a, s.num .dDataSize ≤ a → t.dst.read a = s.dst.read a)) ∧
    (∀ a < s.num .dWidth * s.num .dHeight * 4, s.src.read a = none →
      ∃ e < s.num .dWidth * s.num .dHeight * 4, s.src.read e = none ∧ exec .encodeSurface s = .fault (.srcUnwritten e))

/-- R226: where both sides succeed and the format table gives BC3 its 128 bits (log 21), DECODE_SURFACE gives the DST and RES_LEN of
RETILE_TO_LINEAR into a scratch buffer followed by DECODE_LINEAR on it. -/
def Obligations.DecodeSurfaceIsRetileThenDecode : Prop :=
  ∀ (s t u v : State) (scratch : Memory) (cap len : Word), formatBppOf s.cfg 0x33 = some 128 →
    exec .decodeSurface s = .next t → StatusIsOk t →
    exec .retileToLinear ((s.withDst scratch).withOpr (s.opr.set .dstCap cap)) = .next u → StatusIsOk u →
    exec .decodeLinear ((s.withSrc u.dst).withOpr (s.opr.set .srcLen len)) = .next v → StatusIsOk v →
    v.dst = t.dst ∧ v.res.len = t.res.len

/-- R226: where both sides succeed and the format table gives BC3 its 128 bits (log 21), ENCODE_SURFACE gives the DST and RES_LEN of
ENCODE_LINEAR followed by RETILE_TO_TILED on its output. -/
def Obligations.EncodeSurfaceIsEncodeThenRetile : Prop :=
  ∀ (s t u v : State) (scratch : Memory) (cap len : Word), formatBppOf s.cfg 0x33 = some 128 →
    exec .encodeSurface s = .next t → StatusIsOk t →
    exec .encodeLinear ((s.withDst scratch).withOpr (s.opr.set .dstCap cap)) = .next u → StatusIsOk u →
    exec .retileToTiled ((s.withSrc u.dst).withOpr (s.opr.set .srcLen len)) = .next v → StatusIsOk v →
    v.dst = t.dst ∧ v.res.len = t.res.len

/-- R223, R224: the linear commands read no profile, no format table, and no descriptor register but D_WIDTH, D_HEIGHT and
D_FORMAT. -/
def Obligations.LinearCommandsIgnoreTiling : Prop :=
  ∀ (i : Instr) (s : State) (r : OperandReg) (v : Word) (p : Profile) (table : List (Nat × Nat)),
    i = .decodeLinear ∨ i = .encodeLinear →
    r ∈ [OperandReg.dDepth, .dTileMode, .dSwizzle, .dPitch, .dSamples, .dSlices, .dDataSize] →
    match exec i s,
      exec i ((s.withOpr (s.opr.set r v)).withCfg { s.cfg with profile := p, formatBpp := table }) with
    | .next t, .next t' => t'.res = t.res ∧ t'.dst = t.dst ∧ t'.status = t.status
    | .fault f, .fault f' => f' = f
    | _, _ => False
end

