-- ==== Sys2Proof/Laws/Bits.lean ====
section
/-! SUPPORT. Sys2Proof/Laws/Bits.lean: little-endian byte strings (00_scope.md R11) and the content of a byte
register. -/
namespace Sys2Proof.Machine

@[simp] theorem length_leBytes (n v : Nat) : (leBytes n v).length = n := by
  induction n generalizing v with
  | zero => rfl
  | succ n ih => simp [leBytes, ih]

/-- `LEbytes_n` is the inverse of `LE` below `2^(8n)` (R11). -/
theorem leNat_leBytes (n v : Nat) (h : v < 256 ^ n) : leNat (leBytes n v) = v := by
  induction n generalizing v with
  | zero => simp only [Nat.pow_zero] at h; simp [leBytes, leNat]; omega
  | succ n ih =>
    rw [Nat.pow_succ] at h
    simp only [leBytes, leNat, BitVec.toNat_ofNat, ih (v / 256) (by omega)]
    omega

/-- A byte register takes a byte string of its length as it is. -/
theorem toList_bytesOf (n : Nat) (l : List Byte) (h : l.length = n) : (bytesOf n l).toList = l := by
  apply List.ext_getElem?
  intro k
  by_cases hk : k < n
  · have hl : k < l.length := by omega
    simp [bytesOf, Vector.toList, hk, hl]
  · have hl : l[k]? = none := by simp; omega
    simp [bytesOf, Vector.toList, hk, hl]

end Sys2Proof.Machine
end

