-- ==== Sys2Proof/Laws/State.lean ====
section
/-! SUPPORT. Sys2Proof/Laws/State.lean: what each named update leaves in each field, true by rfl, so that no later
proof unfolds a record update. -/
namespace Sys2Proof.Machine

/-! ### State.withCmd -/

@[simp] theorem State.withCmd_cmd (s : State) (w : Word) : (s.withCmd w).cmd = w := rfl
@[simp] theorem State.withCmd_opr (s : State) (w : Word) : (s.withCmd w).opr = s.opr := rfl
@[simp] theorem State.withCmd_res (s : State) (w : Word) : (s.withCmd w).res = s.res := rfl
@[simp] theorem State.withCmd_status (s : State) (w : Word) : (s.withCmd w).status = s.status := rfl
@[simp] theorem State.withCmd_src (s : State) (w : Word) : (s.withCmd w).src = s.src := rfl
@[simp] theorem State.withCmd_dst (s : State) (w : Word) : (s.withCmd w).dst = s.dst := rfl
@[simp] theorem State.withCmd_cfg (s : State) (w : Word) : (s.withCmd w).cfg = s.cfg := rfl
@[simp] theorem State.withCmd_program (s : State) (w : Word) : (s.withCmd w).program = s.program := rfl

/-! ### State.withOpr -/

@[simp] theorem State.withOpr_cmd (s : State) (o : OperandFile) : (s.withOpr o).cmd = s.cmd := rfl
@[simp] theorem State.withOpr_opr (s : State) (o : OperandFile) : (s.withOpr o).opr = o := rfl
@[simp] theorem State.withOpr_res (s : State) (o : OperandFile) : (s.withOpr o).res = s.res := rfl
@[simp] theorem State.withOpr_status (s : State) (o : OperandFile) : (s.withOpr o).status = s.status := rfl
@[simp] theorem State.withOpr_src (s : State) (o : OperandFile) : (s.withOpr o).src = s.src := rfl
@[simp] theorem State.withOpr_dst (s : State) (o : OperandFile) : (s.withOpr o).dst = s.dst := rfl
@[simp] theorem State.withOpr_cfg (s : State) (o : OperandFile) : (s.withOpr o).cfg = s.cfg := rfl
@[simp] theorem State.withOpr_program (s : State) (o : OperandFile) : (s.withOpr o).program = s.program := rfl

/-! ### State.withRes -/

@[simp] theorem State.withRes_cmd (s : State) (r : ResultFile) : (s.withRes r).cmd = s.cmd := rfl
@[simp] theorem State.withRes_opr (s : State) (r : ResultFile) : (s.withRes r).opr = s.opr := rfl
@[simp] theorem State.withRes_res (s : State) (r : ResultFile) : (s.withRes r).res = r := rfl
@[simp] theorem State.withRes_status (s : State) (r : ResultFile) : (s.withRes r).status = s.status := rfl
@[simp] theorem State.withRes_src (s : State) (r : ResultFile) : (s.withRes r).src = s.src := rfl
@[simp] theorem State.withRes_dst (s : State) (r : ResultFile) : (s.withRes r).dst = s.dst := rfl
@[simp] theorem State.withRes_cfg (s : State) (r : ResultFile) : (s.withRes r).cfg = s.cfg := rfl
@[simp] theorem State.withRes_program (s : State) (r : ResultFile) : (s.withRes r).program = s.program := rfl

/-! ### State.withStatus -/

@[simp] theorem State.withStatus_cmd (s : State) (w : Word) : (s.withStatus w).cmd = s.cmd := rfl
@[simp] theorem State.withStatus_opr (s : State) (w : Word) : (s.withStatus w).opr = s.opr := rfl
@[simp] theorem State.withStatus_res (s : State) (w : Word) : (s.withStatus w).res = s.res := rfl
@[simp] theorem State.withStatus_status (s : State) (w : Word) : (s.withStatus w).status = w := rfl
@[simp] theorem State.withStatus_src (s : State) (w : Word) : (s.withStatus w).src = s.src := rfl
@[simp] theorem State.withStatus_dst (s : State) (w : Word) : (s.withStatus w).dst = s.dst := rfl
@[simp] theorem State.withStatus_cfg (s : State) (w : Word) : (s.withStatus w).cfg = s.cfg := rfl
@[simp] theorem State.withStatus_program (s : State) (w : Word) : (s.withStatus w).program = s.program := rfl

/-! ### State.withSrc -/

@[simp] theorem State.withSrc_cmd (s : State) (m : Memory) : (s.withSrc m).cmd = s.cmd := rfl
@[simp] theorem State.withSrc_opr (s : State) (m : Memory) : (s.withSrc m).opr = s.opr := rfl
@[simp] theorem State.withSrc_res (s : State) (m : Memory) : (s.withSrc m).res = s.res := rfl
@[simp] theorem State.withSrc_status (s : State) (m : Memory) : (s.withSrc m).status = s.status := rfl
@[simp] theorem State.withSrc_src (s : State) (m : Memory) : (s.withSrc m).src = m := rfl
@[simp] theorem State.withSrc_dst (s : State) (m : Memory) : (s.withSrc m).dst = s.dst := rfl
@[simp] theorem State.withSrc_cfg (s : State) (m : Memory) : (s.withSrc m).cfg = s.cfg := rfl
@[simp] theorem State.withSrc_program (s : State) (m : Memory) : (s.withSrc m).program = s.program := rfl

/-! ### State.withDst -/

@[simp] theorem State.withDst_cmd (s : State) (m : Memory) : (s.withDst m).cmd = s.cmd := rfl
@[simp] theorem State.withDst_opr (s : State) (m : Memory) : (s.withDst m).opr = s.opr := rfl
@[simp] theorem State.withDst_res (s : State) (m : Memory) : (s.withDst m).res = s.res := rfl
@[simp] theorem State.withDst_status (s : State) (m : Memory) : (s.withDst m).status = s.status := rfl
@[simp] theorem State.withDst_src (s : State) (m : Memory) : (s.withDst m).src = s.src := rfl
@[simp] theorem State.withDst_dst (s : State) (m : Memory) : (s.withDst m).dst = m := rfl
@[simp] theorem State.withDst_cfg (s : State) (m : Memory) : (s.withDst m).cfg = s.cfg := rfl
@[simp] theorem State.withDst_program (s : State) (m : Memory) : (s.withDst m).program = s.program := rfl

/-! ### State.withCfg -/

@[simp] theorem State.withCfg_cmd (s : State) (c : Config) : (s.withCfg c).cmd = s.cmd := rfl
@[simp] theorem State.withCfg_opr (s : State) (c : Config) : (s.withCfg c).opr = s.opr := rfl
@[simp] theorem State.withCfg_res (s : State) (c : Config) : (s.withCfg c).res = s.res := rfl
@[simp] theorem State.withCfg_status (s : State) (c : Config) : (s.withCfg c).status = s.status := rfl
@[simp] theorem State.withCfg_src (s : State) (c : Config) : (s.withCfg c).src = s.src := rfl
@[simp] theorem State.withCfg_dst (s : State) (c : Config) : (s.withCfg c).dst = s.dst := rfl
@[simp] theorem State.withCfg_cfg (s : State) (c : Config) : (s.withCfg c).cfg = c := rfl
@[simp] theorem State.withCfg_program (s : State) (c : Config) : (s.withCfg c).program = s.program := rfl

/-! ### State.withProgram -/

@[simp] theorem State.withProgram_cmd (s : State) (p : List HostLine) : (s.withProgram p).cmd = s.cmd := rfl
@[simp] theorem State.withProgram_opr (s : State) (p : List HostLine) : (s.withProgram p).opr = s.opr := rfl
@[simp] theorem State.withProgram_res (s : State) (p : List HostLine) : (s.withProgram p).res = s.res := rfl
@[simp] theorem State.withProgram_status (s : State) (p : List HostLine) : (s.withProgram p).status = s.status := rfl
@[simp] theorem State.withProgram_src (s : State) (p : List HostLine) : (s.withProgram p).src = s.src := rfl
@[simp] theorem State.withProgram_dst (s : State) (p : List HostLine) : (s.withProgram p).dst = s.dst := rfl
@[simp] theorem State.withProgram_cfg (s : State) (p : List HostLine) : (s.withProgram p).cfg = s.cfg := rfl
@[simp] theorem State.withProgram_program (s : State) (p : List HostLine) : (s.withProgram p).program = p := rfl

/-! ### OPR values -/

@[simp] theorem State.withCmd_num (s : State) (w : Word) (q : OperandReg) : (s.withCmd w).num q = s.num q := rfl
@[simp] theorem State.withRes_num (s : State) (r : ResultFile) (q : OperandReg) : (s.withRes r).num q = s.num q := rfl
@[simp] theorem State.withStatus_num (s : State) (w : Word) (q : OperandReg) : (s.withStatus w).num q = s.num q := rfl
@[simp] theorem State.withSrc_num (s : State) (m : Memory) (q : OperandReg) : (s.withSrc m).num q = s.num q := rfl
@[simp] theorem State.withDst_num (s : State) (m : Memory) (q : OperandReg) : (s.withDst m).num q = s.num q := rfl
@[simp] theorem State.withCfg_num (s : State) (c : Config) (q : OperandReg) : (s.withCfg c).num q = s.num q := rfl
@[simp] theorem State.withProgram_num (s : State) (p : List HostLine) (q : OperandReg) : (s.withProgram p).num q = s.num q := rfl

/-! ### Two updates of one field, and an update by the field's own value -/

@[simp] theorem State.withCmd_withCmd (s : State) (w w' : Word) : (s.withCmd w).withCmd w' = s.withCmd w' := rfl
@[simp] theorem State.withCmd_self (s : State) : s.withCmd s.cmd = s := rfl
@[simp] theorem State.withOpr_withOpr (s : State) (o o' : OperandFile) : (s.withOpr o).withOpr o' = s.withOpr o' := rfl
@[simp] theorem State.withOpr_self (s : State) : s.withOpr s.opr = s := rfl
@[simp] theorem State.withRes_withRes (s : State) (r r' : ResultFile) : (s.withRes r).withRes r' = s.withRes r' := rfl
@[simp] theorem State.withRes_self (s : State) : s.withRes s.res = s := rfl
@[simp] theorem State.withStatus_withStatus (s : State) (w w' : Word) : (s.withStatus w).withStatus w' = s.withStatus w' := rfl
@[simp] theorem State.withStatus_self (s : State) : s.withStatus s.status = s := rfl
@[simp] theorem State.withSrc_withSrc (s : State) (m m' : Memory) : (s.withSrc m).withSrc m' = s.withSrc m' := rfl
@[simp] theorem State.withSrc_self (s : State) : s.withSrc s.src = s := rfl
@[simp] theorem State.withDst_withDst (s : State) (m m' : Memory) : (s.withDst m).withDst m' = s.withDst m' := rfl
@[simp] theorem State.withDst_self (s : State) : s.withDst s.dst = s := rfl
@[simp] theorem State.withCfg_withCfg (s : State) (c c' : Config) : (s.withCfg c).withCfg c' = s.withCfg c' := rfl
@[simp] theorem State.withCfg_self (s : State) : s.withCfg s.cfg = s := rfl
@[simp] theorem State.withProgram_withProgram (s : State) (p p' : List HostLine) : (s.withProgram p).withProgram p' = s.withProgram p' := rfl
@[simp] theorem State.withProgram_self (s : State) : s.withProgram s.program = s := rfl

/-! ### How a command ends -/

@[simp] theorem State.raise_cmd (s : State) (c : Cause) : (s.raise c).cmd = s.cmd := rfl
@[simp] theorem State.raise_opr (s : State) (c : Cause) : (s.raise c).opr = s.opr := rfl
@[simp] theorem State.raise_res (s : State) (c : Cause) : (s.raise c).res = s.res := rfl
@[simp] theorem State.raise_status (s : State) (c : Cause) : (s.raise c).status = statusError s.status c := rfl
@[simp] theorem State.raise_src (s : State) (c : Cause) : (s.raise c).src = s.src := rfl
@[simp] theorem State.raise_dst (s : State) (c : Cause) : (s.raise c).dst = s.dst := rfl
@[simp] theorem State.raise_cfg (s : State) (c : Cause) : (s.raise c).cfg = s.cfg := rfl
@[simp] theorem State.raise_program (s : State) (c : Cause) : (s.raise c).program = s.program := rfl
@[simp] theorem State.complete_cmd (s : State) : (s.complete).cmd = s.cmd := rfl
@[simp] theorem State.complete_opr (s : State) : (s.complete).opr = s.opr := rfl
@[simp] theorem State.complete_res (s : State) : (s.complete).res = s.res := rfl
@[simp] theorem State.complete_status (s : State) : (s.complete).status = statusOk := rfl
@[simp] theorem State.complete_src (s : State) : (s.complete).src = s.src := rfl
@[simp] theorem State.complete_dst (s : State) : (s.complete).dst = s.dst := rfl
@[simp] theorem State.complete_cfg (s : State) : (s.complete).cfg = s.cfg := rfl
@[simp] theorem State.complete_program (s : State) : (s.complete).program = s.program := rfl
@[simp] theorem State.deliver_cmd (s : State) (m : Memory) (n : Nat) : (s.deliver m n).cmd = s.cmd := rfl
@[simp] theorem State.deliver_opr (s : State) (m : Memory) (n : Nat) : (s.deliver m n).opr = s.opr := rfl
@[simp] theorem State.deliver_res (s : State) (m : Memory) (n : Nat) : (s.deliver m n).res = s.res.setLen n := rfl
@[simp] theorem State.deliver_status (s : State) (m : Memory) (n : Nat) : (s.deliver m n).status = statusOk := rfl
@[simp] theorem State.deliver_src (s : State) (m : Memory) (n : Nat) : (s.deliver m n).src = s.src := rfl
@[simp] theorem State.deliver_dst (s : State) (m : Memory) (n : Nat) : (s.deliver m n).dst = m := rfl
@[simp] theorem State.deliver_cfg (s : State) (m : Memory) (n : Nat) : (s.deliver m n).cfg = s.cfg := rfl
@[simp] theorem State.deliver_program (s : State) (m : Memory) (n : Nat) : (s.deliver m n).program = s.program := rfl
@[simp] theorem resetInstance_cmd (s : State) : (resetInstance s).cmd = 0 := rfl
@[simp] theorem resetInstance_opr (s : State) : (resetInstance s).opr = OperandFile.reset := rfl
@[simp] theorem resetInstance_res (s : State) : (resetInstance s).res = ResultFile.reset := rfl
@[simp] theorem resetInstance_status (s : State) : (resetInstance s).status = 0 := rfl
@[simp] theorem resetInstance_src (s : State) : (resetInstance s).src = [] := rfl
@[simp] theorem resetInstance_dst (s : State) : (resetInstance s).dst = [] := rfl
@[simp] theorem resetInstance_cfg (s : State) : (resetInstance s).cfg = s.cfg := rfl
@[simp] theorem resetInstance_program (s : State) : (resetInstance s).program = s.program := rfl

/-! ### Registers -/

@[simp] theorem Reg.wrote_val {α : Type} (v : α) : (Reg.wrote v).val = v := rfl
@[simp] theorem Reg.wrote_written {α : Type} (v : α) : (Reg.wrote v).written = true := rfl
@[simp] theorem ResultFile.setAddr_byte (r : ResultFile) (b k : Nat) : (r.setAddr b k).byte = .wrote b := rfl
@[simp] theorem ResultFile.setAddr_bit (r : ResultFile) (b k : Nat) : (r.setAddr b k).bit = .wrote (BitVec.ofNat 3 k) := rfl
@[simp] theorem ResultFile.setAddr_blk (r : ResultFile) (b k : Nat) : (r.setAddr b k).blk = r.blk := rfl
@[simp] theorem ResultFile.setAddr_tex (r : ResultFile) (b k : Nat) : (r.setAddr b k).tex = r.tex := rfl
@[simp] theorem ResultFile.setAddr_len (r : ResultFile) (b k : Nat) : (r.setAddr b k).len = r.len := rfl
@[simp] theorem ResultFile.setBlk_byte (r : ResultFile) (v : Vector Byte 16) : (r.setBlk v).byte = r.byte := rfl
@[simp] theorem ResultFile.setBlk_bit (r : ResultFile) (v : Vector Byte 16) : (r.setBlk v).bit = r.bit := rfl
@[simp] theorem ResultFile.setBlk_blk (r : ResultFile) (v : Vector Byte 16) : (r.setBlk v).blk = .wrote v := rfl
@[simp] theorem ResultFile.setBlk_tex (r : ResultFile) (v : Vector Byte 16) : (r.setBlk v).tex = r.tex := rfl
@[simp] theorem ResultFile.setBlk_len (r : ResultFile) (v : Vector Byte 16) : (r.setBlk v).len = r.len := rfl
@[simp] theorem ResultFile.setTex_byte (r : ResultFile) (v : Vector Byte 64) : (r.setTex v).byte = r.byte := rfl
@[simp] theorem ResultFile.setTex_bit (r : ResultFile) (v : Vector Byte 64) : (r.setTex v).bit = r.bit := rfl
@[simp] theorem ResultFile.setTex_blk (r : ResultFile) (v : Vector Byte 64) : (r.setTex v).blk = r.blk := rfl
@[simp] theorem ResultFile.setTex_tex (r : ResultFile) (v : Vector Byte 64) : (r.setTex v).tex = .wrote v := rfl
@[simp] theorem ResultFile.setTex_len (r : ResultFile) (v : Vector Byte 64) : (r.setTex v).len = r.len := rfl
@[simp] theorem ResultFile.setLen_byte (r : ResultFile) (n : Nat) : (r.setLen n).byte = r.byte := rfl
@[simp] theorem ResultFile.setLen_bit (r : ResultFile) (n : Nat) : (r.setLen n).bit = r.bit := rfl
@[simp] theorem ResultFile.setLen_blk (r : ResultFile) (n : Nat) : (r.setLen n).blk = r.blk := rfl
@[simp] theorem ResultFile.setLen_tex (r : ResultFile) (n : Nat) : (r.setLen n).tex = r.tex := rfl
@[simp] theorem ResultFile.setLen_len (r : ResultFile) (n : Nat) : (r.setLen n).len = .wrote (BitVec.ofNat 32 n) := rfl

/-- A 32-bit operand register reads as written. -/
@[simp] theorem OperandFile.get_set_same (o : OperandFile) (r : OperandReg) (v : Word) : (o.set r v).get r = .wrote v := by
  cases r <;> rfl

/-- Writing a 32-bit operand register leaves the others. -/
theorem OperandFile.get_set_other (o : OperandFile) {r q : OperandReg} (v : Word) (h : q ≠ r) :
    (o.set r v).get q = o.get q := by
  cases r <;> cases q <;> first | rfl | exact absurd rfl h

@[simp] theorem OperandFile.set_blk (o : OperandFile) (r : OperandReg) (v : Word) : (o.set r v).blk = o.blk := by
  cases r <;> rfl

@[simp] theorem OperandFile.set_tex (o : OperandFile) (r : OperandReg) (v : Word) : (o.set r v).tex = o.tex := by
  cases r <;> rfl

@[simp] theorem OperandFile.setBlk_get (o : OperandFile) (v : Vector Byte 16) (q : OperandReg) :
    (o.setBlk v).get q = o.get q := by cases q <;> rfl
@[simp] theorem OperandFile.setBlk_blk (o : OperandFile) (v : Vector Byte 16) : (o.setBlk v).blk = .wrote v := rfl
@[simp] theorem OperandFile.setBlk_tex (o : OperandFile) (v : Vector Byte 16) : (o.setBlk v).tex = o.tex := rfl
@[simp] theorem OperandFile.setTex_get (o : OperandFile) (v : Vector Byte 64) (q : OperandReg) :
    (o.setTex v).get q = o.get q := by cases q <;> rfl
@[simp] theorem OperandFile.setTex_blk (o : OperandFile) (v : Vector Byte 64) : (o.setTex v).blk = o.blk := rfl
@[simp] theorem OperandFile.setTex_tex (o : OperandFile) (v : Vector Byte 64) : (o.setTex v).tex = .wrote v := rfl

end Sys2Proof.Machine
end

