-- ==== Sys2Proof/Laws/Status.lean ====
section
/-! SUPPORT. Sys2Proof/Laws/Status.lean: the fields of a `STATUS` word the machine writes (10_state.md R36). -/
namespace Sys2Proof.Machine

@[simp] theorem statusCode_statusWord (c : BitVec 2) (v : Bool) (i : Byte) : statusCode (statusWord c v i) = c := by
  unfold statusCode statusWord
  ext k hk
  simp only [BitVec.getElem_extractLsb', BitVec.getLsbD_append]
  simp [hk]

@[simp] theorem statusValid_statusWord (c : BitVec 2) (v : Bool) (i : Byte) : statusValid (statusWord c v i) = v := by
  unfold statusValid statusWord
  simp only [BitVec.getLsbD_append]
  simp

@[simp] theorem statusReservedLow_statusWord (c : BitVec 2) (v : Bool) (i : Byte) :
    statusReservedLow (statusWord c v i) = 0 := by
  unfold statusReservedLow statusWord
  ext k hk
  simp only [BitVec.getElem_extractLsb', BitVec.getLsbD_append]
  have h1 : ¬ 3 + k < 2 := by omega
  have h2 : ¬ 3 + k - 2 < 1 := by omega
  have h3 : 3 + k - 2 - 1 < 5 := by omega
  simp [h1, h2, h3]

@[simp] theorem statusInfo_statusWord (c : BitVec 2) (v : Bool) (i : Byte) : statusInfo (statusWord c v i) = i := by
  unfold statusInfo statusWord
  ext k hk
  simp only [BitVec.getElem_extractLsb', BitVec.getLsbD_append]
  have h1 : ¬ 8 + k < 2 := by omega
  have h2 : ¬ 8 + k - 2 < 1 := by omega
  have h3 : ¬ 8 + k - 2 - 1 < 5 := by omega
  have h4 : 8 + k - 2 - 1 - 5 = k := by omega
  simp [h1, h2, h3, h4, hk]

@[simp] theorem statusReservedHigh_statusWord (c : BitVec 2) (v : Bool) (i : Byte) :
    statusReservedHigh (statusWord c v i) = 0 := by
  unfold statusReservedHigh statusWord
  ext k hk
  simp only [BitVec.getElem_extractLsb', BitVec.getLsbD_append]
  have h1 : ¬ 16 + k < 2 := by omega
  have h2 : ¬ 16 + k - 2 < 1 := by omega
  have h3 : ¬ 16 + k - 2 - 1 < 5 := by omega
  have h4 : ¬ 16 + k - 2 - 1 - 5 < 8 := by omega
  simp [h1, h2, h3, h4]

@[simp] theorem statusCode_statusOk : statusCode statusOk = 0 := statusCode_statusWord 0 true 0
@[simp] theorem statusValid_statusOk : statusValid statusOk = true := statusValid_statusWord 0 true 0
@[simp] theorem statusInfo_statusOk : statusInfo statusOk = 0 := statusInfo_statusWord 0 true 0

@[simp] theorem statusCode_statusError (w : Word) (c : Cause) : statusCode (statusError w c) = c.code :=
  statusCode_statusWord _ _ _
@[simp] theorem statusValid_statusError (w : Word) (c : Cause) : statusValid (statusError w c) = statusValid w :=
  statusValid_statusWord _ _ _
@[simp] theorem statusInfo_statusError (w : Word) (c : Cause) : statusInfo (statusError w c) = c.info :=
  statusInfo_statusWord _ _ _

/-- No error has CODE 0 (60_exceptions.md R240). -/
theorem Cause.code_ne_zero (c : Cause) : c.code ≠ 0 := by cases c <;> decide

end Sys2Proof.Machine
end

