-- ==== Sys2Proof/Laws/Memory.lean ====
section
/-! SUPPORT. Sys2Proof/Laws/Memory.lean: reads after writes, and the canonical form of a buffer (20_memory.md R50, R51,
R64). -/
namespace Sys2Proof.Machine

/-! ### Reading -/

@[simp] theorem Memory.read_nil (a : Nat) : Memory.read [] a = none := rfl

theorem Memory.read_append (m n : Memory) (a : Nat) :
    Memory.read (m ++ n) a = (Memory.read m a).or (Memory.read n a) := by
  induction m with
  | nil => simp [Memory.read]
  | cons c m ih =>
    simp only [List.cons_append, Memory.read]
    split
    · rfl
    · exact ih

theorem Memory.read_filter_of_true {p : Host.Cell → Bool} {a : Nat} (h : ∀ b, p (a, b) = true) (m : Memory) :
    Memory.read (m.filter p) a = Memory.read m a := by
  induction m with
  | nil => rfl
  | cons c m ih =>
    obtain ⟨x, b⟩ := c
    by_cases hx : x = a
    · subst hx; simp [h, Memory.read]
    · by_cases hp : p (x, b) <;> simp [hp, Memory.read, hx, ih]

theorem Memory.read_filter_of_false {p : Host.Cell → Bool} {a : Nat} (h : ∀ b, p (a, b) = false) (m : Memory) :
    Memory.read (m.filter p) a = none := by
  induction m with
  | nil => rfl
  | cons c m ih =>
    obtain ⟨x, b⟩ := c
    by_cases hp : p (x, b)
    · have hx : x ≠ a := by rintro rfl; simp [h] at hp
      simp [hp, Memory.read, hx, ih]
    · simp [hp, ih]

theorem read_cellsAt (a : Nat) (bytes : List Byte) (k : Nat) :
    Memory.read (cellsAt a bytes) k = if a ≤ k then bytes[k - a]? else none := by
  induction bytes generalizing a with
  | nil => simp [cellsAt]
  | cons b bs ih =>
    simp only [cellsAt, Memory.read, ih]
    split
    · next h => subst h; simp
    · next h =>
      by_cases hle : a + 1 ≤ k
      · obtain ⟨d, rfl⟩ := Nat.exists_eq_add_of_le hle
        have h1 : a + 1 + d - (a + 1) = d := by omega
        have h2 : a + 1 + d - a = d + 1 := by omega
        have h3 : a ≤ a + 1 + d := by omega
        simp [h1, h2, h3]
      · have : ¬ a ≤ k := by omega
        simp [hle, this]

/-- A byte after a write: the written byte inside `[a, a + n)`, the old one elsewhere. -/
theorem Memory.read_writeBytes (m : Memory) (a : Nat) (bytes : List Byte) (k : Nat) :
    (m.writeBytes a bytes).read k =
      if a ≤ k ∧ k < a + bytes.length then bytes[k - a]? else m.read k := by
  unfold Memory.writeBytes
  rw [Memory.read_append, Memory.read_append, read_cellsAt]
  by_cases h1 : k < a
  · have hr : ¬ a + bytes.length ≤ k := by omega
    have hk : ¬ a ≤ k := by omega
    rw [Memory.read_filter_of_true (by simp [h1]), Memory.read_filter_of_false (a := k) (by simp [hr])]
    simp [hk]
  · by_cases h2 : a + bytes.length ≤ k
    · have hn : bytes[k - a]? = none := by simp; omega
      have hk : ¬ k < a + bytes.length := by omega
      rw [Memory.read_filter_of_false (a := k) (by simp [h1]), Memory.read_filter_of_true (by simp [h2])]
      simp [hn, hk]
    · have hk : a ≤ k ∧ k < a + bytes.length := by omega
      rw [Memory.read_filter_of_false (a := k) (by simp [h1]), Memory.read_filter_of_false (a := k) (by simp [h2])]
      simp [hk]

theorem Memory.read_writeBytes_outside (m : Memory) (a : Nat) (bytes : List Byte) (k : Nat)
    (h : k < a ∨ a + bytes.length ≤ k) : (m.writeBytes a bytes).read k = m.read k := by
  rw [Memory.read_writeBytes, if_neg (by omega)]

theorem Memory.read_writeBytes_inside (m : Memory) (a : Nat) (bytes : List Byte) (j : Nat) (h : j < bytes.length) :
    (m.writeBytes a bytes).read (a + j) = some bytes[j] := by
  rw [Memory.read_writeBytes, if_pos (by omega)]
  simp [h]

/-- What a read of n bytes answers: the bytes, one by one. -/
theorem Memory.readBytes_eq_ok (m : Memory) (a n : Nat) (bs : List Byte) :
    m.readBytes a n = .ok bs ↔ bs.length = n ∧ ∀ j < n, m.read (a + j) = bs[j]? := by
  induction n generalizing a bs with
  | zero =>
    simp only [Memory.readBytes, Nat.not_lt_zero, false_implies, implies_true, and_true, Except.ok.injEq]
    constructor
    · rintro rfl; rfl
    · intro h; exact (List.length_eq_zero_iff.mp h).symm
  | succ n ih =>
    simp only [Memory.readBytes]
    cases hr : m.read a with
    | none =>
      simp only [reduceCtorEq, false_iff, not_and]
      intro hl h
      have h0 := h 0 (by omega)
      rw [Nat.add_zero, hr] at h0
      have : bs[0]? = some (bs[0]'(by omega)) := by simp
      rw [this] at h0; cases h0
    | some b =>
      cases hb : Memory.readBytes m (a + 1) n with
      | error e =>
        simp only [reduceCtorEq, false_iff, not_and]
        intro hl h
        have hok : m.readBytes (a + 1) n = .ok bs.tail := by
          rw [ih]
          refine ⟨by simp [hl], fun j hj => ?_⟩
          have hk := h (j + 1) (by omega)
          rw [show a + 1 + j = a + (j + 1) by omega, hk]
          simp
        rw [hok] at hb; cases hb
      | ok bs' =>
        have hbs := (ih (a + 1) bs').mp hb
        simp only [Except.ok.injEq]
        constructor
        · rintro rfl
          refine ⟨by simp [hbs.1], fun j hj => ?_⟩
          cases j with
          | zero => simpa using hr
          | succ j =>
            rw [show a + (j + 1) = a + 1 + j by omega, hbs.2 j (by omega)]
            simp
        · rintro ⟨hl, h⟩
          apply List.ext_getElem?
          intro j
          cases j with
          | zero =>
            have h0 := h 0 (by omega)
            rw [Nat.add_zero, hr] at h0
            simpa using h0
          | succ j =>
            by_cases hj : j < n
            · have hk := h (j + 1) (by omega)
              rw [show a + (j + 1) = a + 1 + j by omega, hbs.2 j hj] at hk
              simpa using hk
            · have e1 : (b :: bs')[j + 1]? = none := by simp; omega
              have e2 : bs[j + 1]? = none := by simp; omega
              rw [e1, e2]

/-- A read of bytes that all hold a value succeeds. -/
theorem Memory.readBytes_ok_of_isSome (m : Memory) (a n : Nat) (h : ∀ j < n, (m.read (a + j)).isSome) :
    ∃ bs, m.readBytes a n = .ok bs := by
  refine ⟨(List.range n).map fun j => (m.read (a + j)).getD 0, ?_⟩
  rw [Memory.readBytes_eq_ok]
  refine ⟨by simp, fun j hj => ?_⟩
  obtain ⟨b, hb⟩ := Option.isSome_iff_exists.mp (h j hj)
  simp [hb, hj]

/-- A read that fails names an offset of the range that holds no value. -/
theorem Memory.readBytes_error (m : Memory) (a n e : Nat) (h : m.readBytes a n = .error e) :
    a ≤ e ∧ e < a + n ∧ m.read e = none := by
  induction n generalizing a with
  | zero => cases h
  | succ n ih =>
    simp only [Memory.readBytes] at h
    cases hr : m.read a with
    | none => rw [hr] at h; cases h; exact ⟨Nat.le_refl _, by omega, hr⟩
    | some b =>
      rw [hr] at h
      cases hb : Memory.readBytes m (a + 1) n with
      | error e' =>
        rw [hb] at h; cases h
        obtain ⟨h1, h2, h3⟩ := ih (a + 1) hb
        exact ⟨by omega, by omega, h3⟩
      | ok bs => rw [hb] at h; cases h

/-- A read fails at the first offset of its range that holds no value, and nowhere else. -/
theorem Memory.readBytes_eq_error (m : Memory) (a n j : Nat) (hj : j < n) (hn : m.read (a + j) = none)
    (hb : ∀ k < j, (m.read (a + k)).isSome) : m.readBytes a n = .error (a + j) := by
  induction n generalizing a j with
  | zero => omega
  | succ n ih =>
    cases j with
    | zero => simp only [Nat.add_zero] at hn; simp [Memory.readBytes, hn]
    | succ j =>
      obtain ⟨b, hab⟩ := Option.isSome_iff_exists.mp (hb 0 (by omega))
      rw [Nat.add_zero] at hab
      have hsucc : ∀ k, a + 1 + k = a + (k + 1) := fun k => by omega
      have hrest := ih (a + 1) j (by omega) (by rw [hsucc]; exact hn) fun k hk => by
        rw [hsucc]; exact hb (k + 1) (by omega)
      simp [Memory.readBytes, hab, hrest, hsucc]

/-- A read that succeeds found a value at every offset of its range. -/
theorem Memory.isSome_of_readBytes {m : Memory} {a n : Nat} {bs : List Byte} (h : m.readBytes a n = .ok bs) {j : Nat}
    (hj : j < n) : (m.read (a + j)).isSome := by
  obtain ⟨hl, hr⟩ := (m.readBytes_eq_ok a n bs).mp h
  rw [hr j hj]; simp; omega

/-- What a command's read of `SRC` answers. -/
theorem readSrc_eq_ok (src : Memory) (a n : Nat) (bs : List Byte) :
    readSrc src a n = .ok bs ↔ bs.length = n ∧ ∀ j < n, src.read (a + j) = bs[j]? := by
  rw [← Memory.readBytes_eq_ok]
  unfold readSrc
  split <;> simp_all

theorem readSrc_ok_of_isSome (src : Memory) (a n : Nat) (h : ∀ j < n, (src.read (a + j)).isSome) :
    ∃ bs, readSrc src a n = .ok bs := by
  obtain ⟨bs, hbs⟩ := src.readBytes_ok_of_isSome a n h
  exact ⟨bs, by simp [readSrc, hbs]⟩

/-- A command's read of `SRC` stops only on an offset of its range that holds no value. -/
theorem readSrc_error (src : Memory) (a n : Nat) (f : Fault) (h : readSrc src a n = .error f) :
    ∃ j < n, f = .srcUnwritten (a + j) ∧ src.read (a + j) = none := by
  unfold readSrc at h
  split at h
  · next e he =>
    cases h
    obtain ⟨h1, h2, h3⟩ := src.readBytes_error a n e he
    have : a + (e - a) = e := by omega
    exact ⟨e - a, by omega, by rw [this], by rw [this]; exact h3⟩
  · cases h

/-- A command's read of `SRC` that succeeds found a value at every offset of its range. -/
theorem isSome_of_readSrc {src : Memory} {a n : Nat} {bs : List Byte} (h : readSrc src a n = .ok bs) {j : Nat}
    (hj : j < n) : (src.read (a + j)).isSome := by
  obtain ⟨hl, hr⟩ := (readSrc_eq_ok src a n bs).mp h
  rw [hr j hj]; simp; omega

/-! ### The canonical form -/

theorem Memory.wf_nil : Memory.wf [] := List.Pairwise.nil

theorem mem_cellsAt {a : Nat} {bytes : List Byte} {c : Host.Cell} (h : c ∈ cellsAt a bytes) :
    a ≤ c.1 ∧ c.1 < a + bytes.length := by
  induction bytes generalizing a with
  | nil => cases h
  | cons b bs ih =>
    simp only [cellsAt, List.mem_cons] at h
    rcases h with rfl | h
    · simp
    · obtain ⟨h1, h2⟩ := ih h
      simp only [List.length_cons]; omega

theorem wf_cellsAt (a : Nat) (bytes : List Byte) : (cellsAt a bytes).wf := by
  induction bytes generalizing a with
  | nil => exact List.Pairwise.nil
  | cons b bs ih =>
    refine List.Pairwise.cons (fun c hc => ?_) (ih (a + 1))
    have := (mem_cellsAt hc).1
    simp only; omega

/-- A write keeps the canonical form. -/
theorem Memory.wf_writeBytes {m : Memory} (h : m.wf) (a : Nat) (bytes : List Byte) : (m.writeBytes a bytes).wf := by
  unfold Memory.writeBytes
  refine List.pairwise_append.mpr ⟨List.pairwise_append.mpr ⟨h.filter _, wf_cellsAt a bytes, ?_⟩, h.filter _, ?_⟩
  · intro c hc d hd
    have h1 := (List.mem_filter.mp hc).2
    have h2 := (mem_cellsAt hd).1
    simp only [decide_eq_true_eq] at h1
    omega
  · intro c hc d hd
    have h2 := (List.mem_filter.mp hd).2
    simp only [decide_eq_true_eq] at h2
    rcases List.mem_append.mp hc with hc | hc
    · have h1 := (List.mem_filter.mp hc).2
      simp only [decide_eq_true_eq] at h1
      omega
    · have h1 := (mem_cellsAt hc).2
      omega

/-- In canonical form equal reads mean equal buffers. -/
theorem Memory.ext_of_wf {m n : Memory} (hm : m.wf) (hn : n.wf) (h : ∀ a, m.read a = n.read a) : m = n := by
  induction m generalizing n with
  | nil =>
    cases n with
    | nil => rfl
    | cons d n => have := h d.1; simp [Memory.read] at this
  | cons c m ih =>
    have hlow : ∀ (l : Memory) (a : Nat), (∀ e ∈ l, a < e.1) → l.read a = none := by
      intro l a hl
      induction l with
      | nil => rfl
      | cons e l ihl =>
        have he := hl e (by simp)
        have : e.1 ≠ a := by omega
        simp only [Memory.read, this, if_false]
        exact ihl fun e' he' => hl e' (by simp [he'])
    obtain ⟨hc, hm'⟩ := List.pairwise_cons.mp hm
    cases n with
    | nil => have := h c.1; simp [Memory.read] at this
    | cons d n =>
      obtain ⟨hd, hn'⟩ := List.pairwise_cons.mp hn
      have hcd : c.1 = d.1 := by
        rcases Nat.lt_trichotomy c.1 d.1 with hlt | heq | hgt
        · have := h c.1
          rw [hlow (d :: n) c.1 (by
            intro e he; rcases List.mem_cons.mp he with rfl | he
            · exact hlt
            · exact Nat.lt_trans hlt (hd e he))] at this
          simp [Memory.read] at this
        · exact heq
        · have := h d.1
          rw [hlow (c :: m) d.1 (by
            intro e he; rcases List.mem_cons.mp he with rfl | he
            · exact hgt
            · exact Nat.lt_trans hgt (hc e he))] at this
          simp [Memory.read] at this
      have hb : c.2 = d.2 := by have := h c.1; simpa [Memory.read, hcd] using this
      have hrest : m = n := by
        refine ih hm' hn' fun a => ?_
        by_cases ha : c.1 = a
        · subst ha
          rw [hlow m c.1 hc, hlow n c.1 (by rw [hcd]; exact hd)]
        · have := h a
          have hda : d.1 ≠ a := by rw [← hcd]; exact ha
          simpa [Memory.read, ha, hda] using this
      rw [hrest, Prod.ext hcd hb]

end Sys2Proof.Machine
end

