-- ==== Sys2Proof/Laws/Ops.lean ====
section
/-! SUPPORT. Sys2Proof/Laws/Ops.lean: what the shared combinators can answer, and the laws of the two list
traversals. -/
namespace Sys2Proof.Machine

@[simp] theorem orRaise_ok {α : Type} (s : State) (a : α) (k : α → Result) : orRaise s (.ok a) k = k a := rfl
@[simp] theorem orRaise_error {α : Type} (s : State) (c : Cause) (k : α → Result) :
    orRaise s (.error c) k = .next (s.raise c) := rfl
@[simp] theorem orFault_ok {α : Type} (a : α) (k : α → Result) : orFault (.ok a) k = k a := rfl
@[simp] theorem orFault_error {α : Type} (f : Fault) (k : α → Result) : orFault (.error f) k = .fault f := rfl

/-- A check either ends the command with its error or lets it go on. -/
theorem orRaise_cases {α : Type} (s : State) (r : Except Cause α) (k : α → Result) :
    (∃ c, r = .error c ∧ orRaise s r k = .next (s.raise c)) ∨ (∃ a, r = .ok a ∧ orRaise s r k = k a) := by
  cases r with
  | error c => exact .inl ⟨c, rfl, rfl⟩
  | ok a => exact .inr ⟨a, rfl, rfl⟩

/-! ### traverseExcept -/

variable {ε α β : Type}

/-- A traversal succeeds exactly with the answers of `f`, one by one. -/
theorem traverseExcept_eq_ok (f : α → Except ε β) (l : List α) (bs : List β) :
    traverseExcept f l = .ok bs ↔ List.Forall₂ (fun a b => f a = .ok b) l bs := by
  induction l generalizing bs with
  | nil =>
    simp only [traverseExcept, Except.ok.injEq]
    constructor
    · rintro rfl; exact .nil
    · intro h; cases h; rfl
  | cons a as ih =>
    simp only [traverseExcept]
    cases hf : f a with
    | error e =>
      simp only [reduceCtorEq, false_iff]
      intro h; cases h with | cons h _ => rw [hf] at h; cases h
    | ok b =>
      cases ht : traverseExcept f as with
      | error e =>
        simp only [reduceCtorEq, false_iff]
        intro h; cases h with | cons _ h => rw [← ih, ht] at h; cases h
      | ok bs' =>
        simp only [Except.ok.injEq]
        constructor
        · rintro rfl; exact .cons hf ((ih bs').mp ht)
        · intro h
          cases h with
          | cons h1 h2 => rw [hf] at h1; cases h1; rw [← ih, ht] at h2; cases h2; rfl

/-- A traversal of answers that all succeed. -/
theorem traverseExcept_map_ok (f : α → Except ε β) (g : α → β) (l : List α) (h : ∀ a ∈ l, f a = .ok (g a)) :
    traverseExcept f l = .ok (l.map g) := by
  induction l with
  | nil => rfl
  | cons a as ih =>
    simp [traverseExcept, h a (by simp), ih fun b hb => h b (by simp [hb])]

theorem traverseExcept_exists_ok (f : α → Except ε β) (l : List α) (h : ∀ a ∈ l, ∃ b, f a = .ok b) :
    ∃ bs, traverseExcept f l = .ok bs := by
  induction l with
  | nil => exact ⟨[], rfl⟩
  | cons a as ih =>
    obtain ⟨b, hb⟩ := h a (by simp)
    obtain ⟨bs, hbs⟩ := ih fun x hx => h x (by simp [hx])
    exact ⟨b :: bs, by simp [traverseExcept, hb, hbs]⟩

/-- Where a traversal succeeds, `f` succeeds on every element. -/
theorem traverseExcept_ok_mem (f : α → Except ε β) (l : List α) (bs : List β) (h : traverseExcept f l = .ok bs)
    {a : α} (ha : a ∈ l) : ∃ b, f a = .ok b := by
  cases hf : f a with
  | ok b => exact ⟨b, rfl⟩
  | error e =>
    exfalso
    rw [traverseExcept_eq_ok] at h
    induction h with
    | nil => cases ha
    | cons h1 _ ih =>
      rcases List.mem_cons.mp ha with rfl | ha'
      · rw [hf] at h1; cases h1
      · exact ih ha'

/-- The error of a traversal is the error of some element. -/
theorem traverseExcept_error (f : α → Except ε β) (l : List α) (e : ε) (h : traverseExcept f l = .error e) :
    ∃ a ∈ l, f a = .error e := by
  induction l with
  | nil => cases h
  | cons a as ih =>
    simp only [traverseExcept] at h
    cases hf : f a with
    | error e' => rw [hf] at h; cases h; exact ⟨a, by simp, hf⟩
    | ok b =>
      rw [hf] at h
      cases ht : traverseExcept f as with
      | error e' =>
        rw [ht] at h; cases h
        obtain ⟨x, hx, hxe⟩ := ih ht
        exact ⟨x, by simp [hx], hxe⟩
      | ok bs => rw [ht] at h; cases h

theorem traverseExcept_congr {f g : α → Except ε β} {l : List α} (h : ∀ a ∈ l, f a = g a) :
    traverseExcept f l = traverseExcept g l := by
  induction l with
  | nil => rfl
  | cons a as ih => simp only [traverseExcept, h a (by simp), ih fun b hb => h b (by simp [hb])]

/-! ### foldExcept -/

@[simp] theorem foldExcept_nil (f : β → α → Except ε β) (b : β) : foldExcept f b [] = .ok b := rfl

theorem foldExcept_cons_ok {f : β → α → Except ε β} {b b' : β} {a : α} (h : f b a = .ok b') (as : List α) :
    foldExcept f b (a :: as) = foldExcept f b' as := by simp [foldExcept, h]

/-- A fold whose every step succeeds is the plain fold. -/
theorem foldExcept_eq_foldl (f : β → α → Except ε β) (g : β → α → β) (l : List α)
    (h : ∀ a ∈ l, ∀ b, f b a = .ok (g b a)) (b : β) : foldExcept f b l = .ok (l.foldl g b) := by
  induction l generalizing b with
  | nil => rfl
  | cons a as ih =>
    simp only [foldExcept, h a (by simp), List.foldl_cons]
    exact ih (fun x hx => h x (by simp [hx])) _

/-- A property every step keeps holds at the end. -/
theorem foldExcept_invariant (P : β → Prop) (f : β → α → Except ε β) (l : List α)
    (hstep : ∀ b a b', P b → f b a = .ok b' → P b') {b c : β} (hb : P b) (h : foldExcept f b l = .ok c) : P c := by
  induction l generalizing b with
  | nil => cases h; exact hb
  | cons a as ih =>
    simp only [foldExcept] at h
    cases hf : f b a with
    | error e => rw [hf] at h; cases h
    | ok b' => rw [hf] at h; exact ih (hstep b a b' hb hf) h

/-- Where a fold succeeds, every element's step succeeded on some value. -/
theorem foldExcept_ok_mem (f : β → α → Except ε β) (l : List α) {b c : β} (h : foldExcept f b l = .ok c) {a : α}
    (ha : a ∈ l) : ∃ b' c', f b' a = .ok c' := by
  induction l generalizing b with
  | nil => cases ha
  | cons x xs ih =>
    simp only [foldExcept] at h
    cases hf : f b x with
    | error e => rw [hf] at h; cases h
    | ok b' =>
      rw [hf] at h
      rcases List.mem_cons.mp ha with rfl | ha'
      · exact ⟨b, b', hf⟩
      · exact ih h ha'

/-- The error of a fold is the error of some step. -/
theorem foldExcept_error (f : β → α → Except ε β) (l : List α) (b : β) (e : ε) (h : foldExcept f b l = .error e) :
    ∃ b' a, a ∈ l ∧ f b' a = .error e := by
  induction l generalizing b with
  | nil => cases h
  | cons a as ih =>
    simp only [foldExcept] at h
    cases hf : f b a with
    | error e' => rw [hf] at h; cases h; exact ⟨b, a, by simp, hf⟩
    | ok b' =>
      rw [hf] at h
      obtain ⟨c, x, hx, hxe⟩ := ih b' h
      exact ⟨c, x, by simp [hx], hxe⟩

end Sys2Proof.Machine
end

