-- ==== Sys2Proof/Laws/Writes.lean ====
section
/-! SUPPORT. Sys2Proof/Laws/Writes.lean: what a sequence of writes leaves (20_memory.md R64): the last write that
covers a byte decides it, and a byte no write covers keeps its value; with it, the specifications of the block moves,
the pixel writes and the offset pass. -/
namespace Sys2Proof.Machine

section Sequences
variable {ι : Type} (g : ι → Nat) (data : ι → List Byte)

/-- The writes of a list, in order. -/
abbrev writesOf (m : Memory) (l : List ι) : Memory := l.foldl (fun m x => m.writeBytes (g x) (data x)) m

theorem read_writesOf_uncovered (l : List ι) (m : Memory) (a : Nat)
    (h : ∀ x ∈ l, ¬ (g x ≤ a ∧ a < g x + (data x).length)) : (writesOf g data m l).read a = m.read a := by
  induction l generalizing m with
  | nil => rfl
  | cons x l ih =>
    simp only [writesOf, List.foldl_cons]
    rw [ih _ fun y hy => h y (by simp [hy])]
    exact m.read_writeBytes_outside _ _ _ (by have := h x (by simp); omega)

theorem read_writesOf_last (l₁ l₂ : List ι) (x : ι) (m : Memory) (a : Nat)
    (hx : g x ≤ a ∧ a < g x + (data x).length)
    (h : ∀ y ∈ l₂, ¬ (g y ≤ a ∧ a < g y + (data y).length)) :
    (writesOf g data m (l₁ ++ x :: l₂)).read a = (data x)[a - g x]? := by
  simp only [writesOf, List.foldl_append, List.foldl_cons]
  rw [read_writesOf_uncovered g data l₂ _ a h, Memory.read_writeBytes, if_pos hx]

/-- Where at most one member of a list covers a byte, that member decides it. -/
theorem read_writesOf_unique (l : List ι) (x : ι) (m : Memory) (a : Nat) (hl : l.Nodup) (hm : x ∈ l)
    (hx : g x ≤ a ∧ a < g x + (data x).length)
    (h : ∀ y ∈ l, g y ≤ a ∧ a < g y + (data y).length → y = x) :
    (writesOf g data m l).read a = (data x)[a - g x]? := by
  obtain ⟨l₁, l₂, rfl⟩ := List.append_of_mem hm
  refine read_writesOf_last g data l₁ l₂ x m a hx fun y hy hc => ?_
  have hyx := h y (by simp [hy]) hc
  subst hyx
  have := (List.nodup_append.mp hl).2.1
  exact (List.nodup_cons.mp this).1 hy

theorem wf_writesOf (l : List ι) {m : Memory} (h : m.wf) : (writesOf g data m l).wf := by
  induction l generalizing m with
  | nil => exact h
  | cons x l ih => exact ih (Memory.wf_writeBytes h _ _)

end Sequences

/-! ### The block grid in row-major order -/

/-- The n-th block of the grid in row-major order (41_tiling_orchestrator.md R157). -/
abbrev nthBlock (s : State) (n : Nat) : Nat × Nat := (n % blocksWide s, n / blocksWide s)

theorem flatMap_range_eq_map_range (w h : Nat) :
    ((List.range h).flatMap fun j => (List.range w).map fun i => (i, j))
      = (List.range (w * h)).map fun n => (n % w, n / w) := by
  rcases Nat.eq_zero_or_pos w with rfl | hw
  · simp
  induction h with
  | zero => simp
  | succ h ih =>
    rw [List.range_succ, List.flatMap_append, ih, Nat.mul_succ, List.range_add, List.map_append]
    congr 1
    simp only [List.flatMap_cons, List.flatMap_nil, List.append_nil, List.map_map]
    refine List.map_congr_left fun i hi => ?_
    have hi' : i < w := List.mem_range.mp hi
    simp only [Function.comp_apply, Nat.mul_add_mod, Nat.mod_eq_of_lt hi', Nat.mul_add_div hw,
      Nat.div_eq_of_lt hi', Nat.add_zero]

theorem blockGrid_eq (s : State) :
    blockGrid s = (List.range (blocksWide s * blocksHigh s)).map (nthBlock s) :=
  flatMap_range_eq_map_range _ _

/-- A block number is `by · blocksPerRow + bx` (R150). -/
theorem nthBlock_linear (s : State) (n : Nat) :
    (nthBlock s n).2 * blocksWide s + (nthBlock s n).1 = n := by
  simp only [Nat.mul_comm (n / blocksWide s)]
  exact Nat.div_add_mod n (blocksWide s)

theorem linearOffset_nthBlock (s : State) (payload n : Nat) : linearOffset s payload (nthBlock s n) = n * payload := by
  unfold linearOffset
  rw [nthBlock_linear]

/-- The offset pass where every block has an offset (R153). -/
theorem placeBlocks_eq_ok (s : State) (payload : Nat) (off : Nat → Nat)
    (h : ∀ n < blocksWide s * blocksHigh s, tiledOffset s payload (nthBlock s n) = .ok (off n)) :
    placeBlocks s payload = .ok ((List.range (blocksWide s * blocksHigh s)).map fun n =>
      { block := nthBlock s n, offset := off n }) := by
  unfold placeBlocks
  rw [blockGrid_eq]
  have key : ∀ l : List Nat, (∀ n ∈ l, n < blocksWide s * blocksHigh s) →
      traverseExcept (placeBlock s payload) (l.map (nthBlock s))
        = .ok (l.map fun n => { block := nthBlock s n, offset := off n }) := by
    intro l hl
    induction l with
    | nil => rfl
    | cons n l ih =>
      have hn : placeBlock s payload (nthBlock s n) = .ok { block := nthBlock s n, offset := off n } := by
        simp [placeBlock, h n (hl n (by simp))]
      simp only [List.map_cons, traverseExcept, hn, ih fun k hk => hl k (by simp [hk])]
  exact key _ fun n hn => List.mem_range.mp hn

/-- What a successful offset pass answers: each block with its tiled offset. -/
theorem placeBlocks_ok (s : State) (payload : Nat) (placed : List PlacedBlock) (h : placeBlocks s payload = .ok placed) :
    ∃ off : Nat → Nat, (∀ n < blocksWide s * blocksHigh s, tiledOffset s payload (nthBlock s n) = .ok (off n)) ∧
      placed = (List.range (blocksWide s * blocksHigh s)).map fun n => { block := nthBlock s n, offset := off n } := by
  have hall : ∀ b ∈ blockGrid s, ∃ o, tiledOffset s payload b = .ok o := by
    intro b hb
    obtain ⟨p, hp⟩ := traverseExcept_ok_mem _ _ _ h hb
    unfold placeBlock at hp
    cases ht : tiledOffset s payload b with
    | error c => rw [ht] at hp; cases hp
    | ok o => exact ⟨o, rfl⟩
  refine ⟨fun n => match tiledOffset s payload (nthBlock s n) with | .ok o => o | .error _ => 0, ?_, ?_⟩
  · intro n hn
    obtain ⟨o, ho⟩ := hall (nthBlock s n) (by
      rw [blockGrid_eq]; exact List.mem_map.mpr ⟨n, List.mem_range.mpr hn, rfl⟩)
    simp only [ho]
  · refine Except.ok.inj (h.symm.trans (placeBlocks_eq_ok s payload _ ?_))
    intro n hn
    obtain ⟨o, ho⟩ := hall (nthBlock s n) (by
      rw [blockGrid_eq]; exact List.mem_map.mpr ⟨n, List.mem_range.mpr hn, rfl⟩)
    simp only [ho]

/-! ### Block moves (R154, R155) -/

/-- The bytes of a buffer range, 0 where one holds no value. -/
abbrev srcBytes (src : Memory) (a n : Nat) : List Byte := (List.range n).map fun j => (src.read (a + j)).getD 0

theorem readSrc_eq_srcBytes (src : Memory) (a n : Nat) (h : ∀ j < n, (src.read (a + j)).isSome) :
    readSrc src a n = .ok (srcBytes src a n) := by
  rw [readSrc_eq_ok]
  refine ⟨by simp, fun j hj => ?_⟩
  obtain ⟨b, hb⟩ := Option.isSome_iff_exists.mp (h j hj)
  simp [hb, hj]

theorem srcBytes_getElem? (src : Memory) (a n j : Nat) (hj : j < n) (h : (src.read (a + j)).isSome) :
    (srcBytes src a n)[j]? = src.read (a + j) := by
  obtain ⟨b, hb⟩ := Option.isSome_iff_exists.mp h
  simp [hj, hb]

/-- Moves whose source bytes all hold a value are the writes of those bytes. -/
theorem movePayloads_eq_ok (src : Memory) (n : Nat) (dst : Memory) (moves : List (Nat × Nat))
    (h : ∀ m ∈ moves, ∀ j < n, (src.read (m.1 + j)).isSome) :
    movePayloads src n dst moves = .ok (writesOf Prod.snd (fun m => srcBytes src m.1 n) dst moves) := by
  unfold movePayloads
  refine foldExcept_eq_foldl _ _ _ (fun m hm d => ?_) dst
  simp [movePayload, readSrc_eq_srcBytes src m.1 n (h m hm)]

theorem movePayloads_wf (src : Memory) (n : Nat) {dst d : Memory} (moves : List (Nat × Nat)) (hw : dst.wf)
    (h : movePayloads src n dst moves = .ok d) : d.wf := by
  refine foldExcept_invariant Memory.wf _ moves (fun b a b' hb hf => ?_) hw h
  unfold movePayload at hf
  split at hf
  · cases hf
  · cases hf; exact Memory.wf_writeBytes hb _ _

theorem movePayloads_error (src : Memory) (n : Nat) (dst : Memory) (moves : List (Nat × Nat)) (f : Fault)
    (h : movePayloads src n dst moves = .error f) :
    ∃ m ∈ moves, ∃ j < n, f = .srcUnwritten (m.1 + j) ∧ src.read (m.1 + j) = none := by
  obtain ⟨d, m, hm, hf⟩ := foldExcept_error _ _ _ _ h
  unfold movePayload at hf
  split at hf
  · next f' hr => cases hf; exact ⟨m, hm, readSrc_error _ _ _ _ hr⟩
  · cases hf

/-- Moves that meet a source byte without a value stop on such a byte (20_memory.md R51). -/
theorem movePayloads_stops (src : Memory) (n : Nat) (dst : Memory) (moves : List (Nat × Nat)) {m : Nat × Nat} {j : Nat}
    (hm : m ∈ moves) (hj : j < n) (hn : src.read (m.1 + j) = none) :
    ∃ m ∈ moves, ∃ j < n, movePayloads src n dst moves = .error (.srcUnwritten (m.1 + j)) ∧ src.read (m.1 + j) = none := by
  cases h : movePayloads src n dst moves with
  | error f =>
    obtain ⟨m', hm', k, hk, rfl, hr⟩ := movePayloads_error src n dst moves f h
    exact ⟨m', hm', k, hk, rfl, hr⟩
  | ok d =>
    obtain ⟨d', d'', hf⟩ := foldExcept_ok_mem _ _ h hm
    unfold movePayload at hf
    split at hf
    · cases hf
    · next bs hr => simpa [hn] using isSome_of_readSrc hr hj

/-! ### Pixel writes (43_pipeline.md R225) -/

@[simp] theorem Texel.length_bytes (t : Texel) : t.bytes.length = 4 := rfl

/-- The texel writes of one block. -/
theorem writePixels_eq (w h : Nat) (b : Nat × Nat) (blk : List Byte) (dst : Memory) :
    writePixels w h b blk dst
      = writesOf (pixelOffset w b) (fun i => (decodeTexel blk i).bytes) dst (presentIndices w h b.1 b.2) := rfl

/-- The texels a list of blocks writes: block, then texel number. -/
abbrev pixelWrites (w h : Nat) (blocks : List PlacedBlock) : List (PlacedBlock × Nat) :=
  blocks.flatMap fun p => (presentIndices w h p.block.1 p.block.2).map fun i => (p, i)

/-- Decoded blocks whose bytes all hold a value are the writes of their present texels. -/
theorem decode_fold_eq_ok (src : Memory) (w h : Nat) (dst : Memory) (blocks : List PlacedBlock)
    (hs : ∀ p ∈ blocks, ∀ j < 16, (src.read (p.offset + j)).isSome) :
    foldExcept (decodeInto src w h) dst blocks
      = .ok (writesOf (fun q => pixelOffset w q.1.block q.2)
          (fun q => (decodeTexel (srcBytes src q.1.offset 16) q.2).bytes) dst (pixelWrites w h blocks)) := by
  induction blocks generalizing dst with
  | nil => rfl
  | cons p ps ih =>
    have hp : decodeInto src w h dst p = .ok (writePixels w h p.block (srcBytes src p.offset 16) dst) := by
      simp [decodeInto, readSrc_eq_srcBytes src p.offset 16 (hs p (by simp))]
    rw [foldExcept_cons_ok hp, ih _ fun q hq => hs q (by simp [hq])]
    simp only [pixelWrites, List.flatMap_cons, writesOf, List.foldl_append, List.foldl_map]
    rfl

theorem decode_fold_wf (src : Memory) (w h : Nat) {dst d : Memory} (blocks : List PlacedBlock) (hw : dst.wf)
    (hd : foldExcept (decodeInto src w h) dst blocks = .ok d) : d.wf := by
  refine foldExcept_invariant Memory.wf _ blocks (fun b a b' hb hf => ?_) hw hd
  unfold decodeInto at hf
  split at hf
  · cases hf
  · cases hf; exact wf_writesOf _ _ _ hb

theorem decode_fold_error (src : Memory) (w h : Nat) (dst : Memory) (blocks : List PlacedBlock) (f : Fault)
    (hf : foldExcept (decodeInto src w h) dst blocks = .error f) :
    ∃ p ∈ blocks, ∃ j < 16, f = .srcUnwritten (p.offset + j) ∧ src.read (p.offset + j) = none := by
  obtain ⟨d, p, hm, hp⟩ := foldExcept_error _ _ _ _ hf
  unfold decodeInto at hp
  split at hp
  · next f' hr => cases hp; exact ⟨p, hm, readSrc_error _ _ _ _ hr⟩
  · cases hp

/-- Decodes that meet a block byte without a value stop on such a byte (20_memory.md R51). -/
theorem decode_fold_stops (src : Memory) (w h : Nat) (dst : Memory) (blocks : List PlacedBlock) {p : PlacedBlock} {j : Nat}
    (hp : p ∈ blocks) (hj : j < 16) (hn : src.read (p.offset + j) = none) :
    ∃ p ∈ blocks, ∃ j < 16, foldExcept (decodeInto src w h) dst blocks = .error (.srcUnwritten (p.offset + j)) ∧
      src.read (p.offset + j) = none := by
  cases hf : foldExcept (decodeInto src w h) dst blocks with
  | error f =>
    obtain ⟨q, hq, k, hk, rfl, hr⟩ := decode_fold_error src w h dst blocks f hf
    exact ⟨q, hq, k, hk, rfl, hr⟩
  | ok d =>
    obtain ⟨d', d'', h'⟩ := foldExcept_ok_mem _ _ hf hp
    unfold decodeInto at h'
    split at h'
    · cases h'
    · next bs hr => simpa [hn] using isSome_of_readSrc hr hj

/-! ### Block encodes (R225) -/

/-- The texel of an image as the codec reads it; an absent one is zero. -/
abbrev imageTexel (src : Memory) (w h : Nat) (b : Nat × Nat) (i : Nat) : Texel :=
  if texelPresent w h b.1 b.2 i then texelAt (srcBytes src (pixelOffset w b i) 4) 0 else Texel.zero

theorem gatherTexels_eq_ok (src : Memory) (w h : Nat) (b : Nat × Nat)
    (hs : ∀ i < 16, texelPresent w h b.1 b.2 i = true → ∀ j < 4, (src.read (pixelOffset w b i + j)).isSome) :
    gatherTexels src w h b = .ok ((List.range 16).map (imageTexel src w h b)) := by
  refine traverseExcept_map_ok _ _ _ fun i hi => ?_
  unfold gatherTexel
  split
  · next hp =>
    rw [readSrc_eq_srcBytes src _ 4 (hs i (List.mem_range.mp hi) hp)]
  · next hp => rfl

/-- Encoded blocks whose pixels all hold a value are the writes of their encodings. -/
theorem encode_fold_eq_ok (band : AlphaBand) (src : Memory) (w h : Nat) (dst : Memory) (blocks : List PlacedBlock)
    (hs : ∀ p ∈ blocks, ∀ i < 16, texelPresent w h p.block.1 p.block.2 i = true →
      ∀ j < 4, (src.read (pixelOffset w p.block i + j)).isSome) :
    foldExcept (encodeInto band src w h) dst blocks
      = .ok (writesOf PlacedBlock.offset
          (fun p => encodeTexels band ((List.range 16).map (imageTexel src w h p.block)) w h p.block.1 p.block.2)
          dst blocks) := by
  refine foldExcept_eq_foldl _ _ _ (fun p hp d => ?_) dst
  simp [encodeInto, gatherTexels_eq_ok src w h p.block (hs p hp)]

theorem encode_fold_wf (band : AlphaBand) (src : Memory) (w h : Nat) {dst d : Memory} (blocks : List PlacedBlock)
    (hw : dst.wf) (hd : foldExcept (encodeInto band src w h) dst blocks = .ok d) : d.wf := by
  refine foldExcept_invariant Memory.wf _ blocks (fun b a b' hb hf => ?_) hw hd
  unfold encodeInto at hf
  split at hf
  · cases hf
  · cases hf; exact Memory.wf_writeBytes hb _ _

theorem encode_fold_error (band : AlphaBand) (src : Memory) (w h : Nat) (dst : Memory) (blocks : List PlacedBlock)
    (f : Fault) (hf : foldExcept (encodeInto band src w h) dst blocks = .error f) :
    ∃ p ∈ blocks, ∃ i < 16, texelPresent w h p.block.1 p.block.2 i = true ∧ ∃ j < 4,
      f = .srcUnwritten (pixelOffset w p.block i + j) ∧ src.read (pixelOffset w p.block i + j) = none := by
  obtain ⟨d, p, hm, hp⟩ := foldExcept_error _ _ _ _ hf
  unfold encodeInto at hp
  split at hp
  · next f' hr =>
    cases hp
    obtain ⟨i, hi16, hi⟩ := traverseExcept_error _ _ _ hr
    unfold gatherTexel at hi
    split at hi
    · next hpres =>
      split at hi
      · next f'' hr' =>
        cases hi
        exact ⟨p, hm, i, List.mem_range.mp hi16, hpres, readSrc_error _ _ _ _ hr'⟩
      · cases hi
    · cases hi
  · cases hp

/-- Encodes that meet a pixel byte without a value stop on such a byte (20_memory.md R51). -/
theorem encode_fold_stops (band : AlphaBand) (src : Memory) (w h : Nat) (dst : Memory) (blocks : List PlacedBlock)
    {p : PlacedBlock} {i j : Nat} (hp : p ∈ blocks) (hi : i < 16) (hpres : texelPresent w h p.block.1 p.block.2 i = true)
    (hj : j < 4) (hn : src.read (pixelOffset w p.block i + j) = none) :
    ∃ p ∈ blocks, ∃ i < 16, texelPresent w h p.block.1 p.block.2 i = true ∧ ∃ j < 4,
      foldExcept (encodeInto band src w h) dst blocks = .error (.srcUnwritten (pixelOffset w p.block i + j)) ∧
      src.read (pixelOffset w p.block i + j) = none := by
  cases hf : foldExcept (encodeInto band src w h) dst blocks with
  | error f =>
    obtain ⟨q, hq, k, hk, hkp, l, hl, rfl, hr⟩ := encode_fold_error band src w h dst blocks f hf
    exact ⟨q, hq, k, hk, hkp, l, hl, rfl, hr⟩
  | ok d =>
    obtain ⟨d', d'', h'⟩ := foldExcept_ok_mem _ _ hf hp
    unfold encodeInto at h'
    split at h'
    · cases h'
    · next tex hr =>
      obtain ⟨t, ht⟩ := traverseExcept_ok_mem _ _ _ hr (List.mem_range.mpr hi)
      unfold gatherTexel at ht
      rw [if_pos hpres] at ht
      split at ht
      · cases ht
      · next bs hbs => simpa [hn] using isSome_of_readSrc hbs hj

@[simp] theorem length_emitBlock (a0 a1 ab c0 c1 cb : Nat) : (emitBlock a0 a1 ab c0 c1 cb).length = 16 := by
  simp [emitBlock]

/-- A block has 16 bytes (42_block_codec.md R191). -/
@[simp] theorem length_encodeTexels (band : AlphaBand) (tex : List Texel) (w h bx by_ : Nat) :
    (encodeTexels band tex w h bx by_).length = 16 := by
  unfold encodeTexels
  simp only
  split
  · simp [transparentBlock]
  · simp

end Sys2Proof.Machine
end

