-- ==== Sys2Proof/Laws/Commands.lean ====
section
/-! SUPPORT. Sys2Proof/Laws/Commands.lean: everything a command can answer, said once per family and once for
exec. -/
namespace Sys2Proof.Machine

/-- An address command raises an error or writes `RES_BYTE` and `RES_BIT` and completes (40_address_engine.md R101). -/
theorem runAddr_cases (cls : Option TileClass) (f : AddrArgs → Except Cause BitAddress) (s : State) :
    (∃ c, runAddr cls f s = .next (s.raise c)) ∨
    (∃ r, f (addrOperands s) = .ok r ∧ fitsOffset s.cfg (r.byte + 1) = true ∧
      runAddr cls f s = .next (s.withRes (s.res.setAddr r.byte r.bit)).complete) := by
  unfold runAddr
  rcases orRaise_cases s (checkAddr cls s) (fun _ => orRaise s (f (addrOperands s)) fun r => writeAddr s r) with
    ⟨c, -, h⟩ | ⟨k, -, h⟩
  · exact .inl ⟨c, h⟩
  · rw [h]
    rcases orRaise_cases s (f (addrOperands s)) (fun r => writeAddr s r) with ⟨c, -, h⟩ | ⟨r, hr, h⟩
    · exact .inl ⟨c, h⟩
    · rw [h, writeAddr]
      split
      · next hf => exact .inr ⟨r, hr, hf, rfl⟩
      · exact .inl ⟨_, rfl⟩

/-- What a command on buffers can answer: an error, a delivery, or a stop on an unwritten byte of `SRC`. -/
def SurfaceAnswer (s : State) (r : Result) : Prop :=
  (∃ c, r = .next (s.raise c)) ∨
  (∃ d n, r = .next (s.deliver d n) ∧ (s.dst.wf → d.wf)) ∨
  (∃ e, r = .fault (.srcUnwritten e) ∧ s.src.read e = none)

theorem surfaceAnswer_orRaise {α : Type} (s : State) (r : Except Cause α) (k : α → Result)
    (h : ∀ a, SurfaceAnswer s (k a)) : SurfaceAnswer s (orRaise s r k) := by
  cases r with
  | error c => exact .inl ⟨c, rfl⟩
  | ok a => exact h a

theorem surfaceAnswer_orFault (s : State) (r : Except Fault Memory) (n : Nat)
    (hok : ∀ d, r = .ok d → s.dst.wf → d.wf)
    (herr : ∀ f, r = .error f → ∃ e, f = .srcUnwritten e ∧ s.src.read e = none) :
    SurfaceAnswer s (orFault r fun d => .next (s.deliver d n)) := by
  cases r with
  | error f =>
    obtain ⟨e, rfl, he⟩ := herr f rfl
    exact .inr (.inr ⟨e, rfl, he⟩)
  | ok d => exact .inr (.inl ⟨d, n, rfl, hok d rfl⟩)

theorem execRetileToLinear_cases (s : State) : SurfaceAnswer s (execRetileToLinear s) := by
  refine surfaceAnswer_orRaise _ _ _ fun _ => surfaceAnswer_orRaise _ _ _ fun _ =>
    surfaceAnswer_orRaise _ _ _ fun _ => surfaceAnswer_orFault _ _ _ (fun d hd hw => ?_) fun f hf => ?_
  · exact movePayloads_wf _ _ _ hw hd
  · obtain ⟨m, -, j, -, h⟩ := movePayloads_error _ _ _ _ _ hf
    exact ⟨_, h⟩

theorem execRetileToTiled_cases (s : State) : SurfaceAnswer s (execRetileToTiled s) := by
  refine surfaceAnswer_orRaise _ _ _ fun _ => surfaceAnswer_orRaise _ _ _ fun _ =>
    surfaceAnswer_orRaise _ _ _ fun _ => surfaceAnswer_orFault _ _ _ (fun d hd hw => ?_) fun f hf => ?_
  · exact movePayloads_wf _ _ _ (Memory.wf_writeBytes hw _ _) hd
  · obtain ⟨m, -, j, -, h⟩ := movePayloads_error _ _ _ _ _ hf
    exact ⟨_, h⟩

theorem execDecodeSurface_cases (s : State) : SurfaceAnswer s (execDecodeSurface s) := by
  refine surfaceAnswer_orRaise _ _ _ fun _ => surfaceAnswer_orRaise _ _ _ fun _ =>
    surfaceAnswer_orRaise _ _ _ fun _ => surfaceAnswer_orRaise _ _ _ fun _ =>
    surfaceAnswer_orFault _ _ _ (fun d hd hw => ?_) fun f hf => ?_
  · exact decode_fold_wf _ _ _ _ hw hd
  · obtain ⟨p, -, j, -, h⟩ := decode_fold_error _ _ _ _ _ _ hf
    exact ⟨_, h⟩

theorem execEncodeSurface_cases (s : State) : SurfaceAnswer s (execEncodeSurface s) := by
  refine surfaceAnswer_orRaise _ _ _ fun _ => surfaceAnswer_orRaise _ _ _ fun _ =>
    surfaceAnswer_orRaise _ _ _ fun _ => surfaceAnswer_orRaise _ _ _ fun _ =>
    surfaceAnswer_orFault _ _ _ (fun d hd hw => ?_) fun f hf => ?_
  · exact encode_fold_wf _ _ _ _ _ (Memory.wf_writeBytes hw _ _) hd
  · obtain ⟨p, -, i, -, -, j, -, h⟩ := encode_fold_error _ _ _ _ _ _ _ hf
    exact ⟨_, h⟩

theorem execDecodeLinear_cases (s : State) : SurfaceAnswer s (execDecodeLinear s) := by
  refine surfaceAnswer_orRaise _ _ _ fun _ => surfaceAnswer_orRaise _ _ _ fun _ =>
    surfaceAnswer_orFault _ _ _ (fun d hd hw => ?_) fun f hf => ?_
  · exact decode_fold_wf _ _ _ _ hw hd
  · obtain ⟨p, -, j, -, h⟩ := decode_fold_error _ _ _ _ _ _ hf
    exact ⟨_, h⟩

theorem execEncodeLinear_cases (s : State) : SurfaceAnswer s (execEncodeLinear s) := by
  refine surfaceAnswer_orRaise _ _ _ fun _ => surfaceAnswer_orRaise _ _ _ fun _ =>
    surfaceAnswer_orFault _ _ _ (fun d hd hw => ?_) fun f hf => ?_
  · exact encode_fold_wf _ _ _ _ _ hw hd
  · obtain ⟨p, -, i, -, -, j, -, h⟩ := encode_fold_error _ _ _ _ _ _ _ hf
    exact ⟨_, h⟩

/-- Everything exec can answer: an error, a completion that writes result registers and `DST` alone, or a stop on an
unwritten byte of `SRC` (60_exceptions.md R240, R245, R248). -/
theorem exec_cases (i : Instr) (s : State) :
    (∃ c, exec i s = .next (s.raise c)) ∨
    (∃ d r, exec i s = .next ((s.withDst d).withRes r).complete ∧ (s.dst.wf → d.wf)) ∨
    (∃ e, exec i s = .fault (.srcUnwritten e) ∧ s.src.read e = none) := by
  have haddr : ∀ cls f, exec i s = runAddr cls f s →
      (∃ c, exec i s = .next (s.raise c)) ∨
      (∃ d r, exec i s = .next ((s.withDst d).withRes r).complete ∧ (s.dst.wf → d.wf)) ∨
      (∃ e, exec i s = .fault (.srcUnwritten e) ∧ s.src.read e = none) := by
    intro cls f h
    rw [h]
    rcases runAddr_cases cls f s with ⟨c, hc⟩ | ⟨r, -, -, hr⟩
    · exact .inl ⟨c, hc⟩
    · exact .inr (.inl ⟨s.dst, _, hr, id⟩)
  have hsurf : SurfaceAnswer s (exec i s) →
      (∃ c, exec i s = .next (s.raise c)) ∨
      (∃ d r, exec i s = .next ((s.withDst d).withRes r).complete ∧ (s.dst.wf → d.wf)) ∨
      (∃ e, exec i s = .fault (.srcUnwritten e) ∧ s.src.read e = none) := by
    rintro (h | ⟨d, n, h, hw⟩ | h)
    · exact .inl h
    · exact .inr (.inl ⟨d, _, h, hw⟩)
    · exact .inr (.inr h)
  cases i with
  | addr => exact haddr none (address s.cfg) rfl
  | addrLinear => exact haddr (some .linear) (fun a => .ok (addrLinear a)) rfl
  | addrMicro => exact haddr (some .microTiled) (fun a => .ok (addrMicro a)) rfl
  | addrMacro => exact haddr (some .macroTiled) (addrMacro s.cfg.profile s.cfg.halveWhile) rfl
  | retileToLinear => exact hsurf (execRetileToLinear_cases s)
  | retileToTiled => exact hsurf (execRetileToTiled_cases s)
  | decodeBlock => exact .inr (.inl ⟨s.dst, _, rfl, id⟩)
  | encodeBlock => exact .inr (.inl ⟨s.dst, _, rfl, id⟩)
  | decodeSurface => exact hsurf (execDecodeSurface_cases s)
  | encodeSurface => exact hsurf (execEncodeSurface_cases s)
  | decodeLinear => exact hsurf (execDecodeLinear_cases s)
  | encodeLinear => exact hsurf (execEncodeLinear_cases s)

end Sys2Proof.Machine
end

