-- ==== Sys2Proof/Laws/PerInstr.lean ====
section
/-! SUPPORT. Sys2Proof/Laws/PerInstr.lean: what holds of each command as syntax, one lemma per constructor. -/

/-- The word of a command has RSVD = 0 and an OP from 0x01 to 0x0C, and the command is well formed
(30_encoding.md R70, R71). -/
def Sys2Proof.Laws.WordShape.Statement (i : Sys2Proof.Instr) : Prop :=
  i.wf = true ∧ Sys2Proof.cmdReserved (Sys2Proof.encode i) = 0 ∧
    Sys2Proof.cmdOp (Sys2Proof.encode i) = (Sys2Proof.opcode i).toNat ∧
    1 ≤ (Sys2Proof.opcode i).toNat ∧ (Sys2Proof.opcode i).toNat ≤ 12

namespace Sys2Proof.Laws.WordShape

theorem addr : Statement .addr := by unfold Statement; decide
theorem addrLinear : Statement .addrLinear := by unfold Statement; decide
theorem addrMicro : Statement .addrMicro := by unfold Statement; decide
theorem addrMacro : Statement .addrMacro := by unfold Statement; decide
theorem retileToLinear : Statement .retileToLinear := by unfold Statement; decide
theorem retileToTiled : Statement .retileToTiled := by unfold Statement; decide
theorem decodeBlock : Statement .decodeBlock := by unfold Statement; decide
theorem encodeBlock : Statement .encodeBlock := by unfold Statement; decide
theorem decodeSurface : Statement .decodeSurface := by unfold Statement; decide
theorem encodeSurface : Statement .encodeSurface := by unfold Statement; decide
theorem decodeLinear : Statement .decodeLinear := by unfold Statement; decide
theorem encodeLinear : Statement .encodeLinear := by unfold Statement; decide

end Sys2Proof.Laws.WordShape
end

