-- ==== Sys2Proof/Laws/Step.lean ====
section
/-! SUPPORT. Sys2Proof/Laws/Step.lean: everything a write of CMD and a step can answer. -/
namespace Sys2Proof.Machine

/-- A write of `CMD` is the command the word encodes, or the error of a word that encodes none (10_state.md R29). -/
theorem issue_cases (w : Word) (s : State) :
    (∃ i, decode w = .ok i ∧ issue w s = exec i (s.withCmd w)) ∨
    (∃ e, decode w = .error e ∧ issue w s = .next ((s.withCmd w).raise (causeOfIllegal e))) := by
  unfold issue
  cases h : decode w with
  | ok i => exact .inl ⟨i, rfl, rfl⟩
  | error e => exact .inr ⟨e, rfl, rfl⟩

theorem step_of_nil {s : State} (h : s.program = []) : step s = .next s := by simp [step, h]

theorem step_of_cons {s : State} {l : HostLine} {rest : List HostLine} (h : s.program = l :: rest) (hw : l.wf = true) :
    step s = runLine l (s.withProgram rest) := by simp [step, h, takeLine, hw]

/-- A next state of a step is the idle state or what the next well-formed line does (30_encoding.md R85). -/
theorem step_next {s t : State} (h : step s = .next t) :
    (s.program = [] ∧ t = s) ∨
    (∃ l rest, s.program = l :: rest ∧ l.wf = true ∧ runLine l (s.withProgram rest) = .next t) := by
  cases hp : s.program with
  | nil => rw [step_of_nil hp] at h; cases h; exact .inl ⟨rfl, rfl⟩
  | cons l rest =>
    cases hw : l.wf with
    | true => rw [step_of_cons hp hw] at h; exact .inr ⟨l, rest, rfl, hw, h⟩
    | false => simp [step, hp, takeLine, hw] at h

/-- A next state of a line: another value of one operand field or buffer, the same machine, the reset machine, or a
write of `CMD`. -/
theorem runLine_next {l : HostLine} {s t : State} (h : runLine l s = .next t) :
    (∃ o, t = s.withOpr o) ∨ (∃ a bytes, t = s.withSrc (s.src.writeBytes a bytes)) ∨
    (∃ a bytes, t = s.withDst (s.dst.writeBytes a bytes)) ∨ t = s ∨ (l = .reset ∧ t = resetInstance s) ∨
    (∃ w, l = .command w ∧ issue w s = .next t) := by
  cases l with
  | set r v => cases h; exact .inl ⟨_, rfl⟩
  | setBlk v => cases h; exact .inl ⟨_, rfl⟩
  | setTex v => cases h; exact .inl ⟨_, rfl⟩
  | loadSrc a bytes => cases h; exact .inr (.inl ⟨a, bytes, rfl⟩)
  | loadDst a bytes => cases h; exact .inr (.inr (.inl ⟨a, bytes, rfl⟩))
  | loadBlk bytes => cases h; exact .inl ⟨_, rfl⟩
  | loadTex bytes => cases h; exact .inl ⟨_, rfl⟩
  | command w => exact .inr (.inr (.inr (.inr (.inr ⟨w, rfl, h⟩))))
  | copySrcDst n =>
    simp only [runLine, orFault] at h
    split at h
    · cases h
    · cases h; exact .inr (.inl ⟨0, _, rfl⟩)
  | copyBlk => cases h; exact .inl ⟨_, rfl⟩
  | copyTex => cases h; exact .inl ⟨_, rfl⟩
  | read target =>
    simp only [runLine, orFault] at h
    split at h
    · cases h
    · cases h; exact .inr (.inr (.inr (.inl rfl)))
  | writeStatus w => cases h; exact .inr (.inr (.inr (.inl rfl)))
  | reset => cases h; exact .inr (.inr (.inr (.inr (.inl ⟨rfl, rfl⟩))))

end Sys2Proof.Machine
end

