-- ==== Sys2Proof/Laws/Tiling.lean ====
section
/-! SUPPORT. Sys2Proof/Laws/Tiling.lean: what an admitted profile gives the address functions, and the final assembly
as a sum of fields (40_address_engine.md R127). -/
namespace Sys2Proof.Machine

/-- What the address functions use of an admitted profile (10_state.md R26). -/
theorem facts_of_profileAdmitted {p : Profile} (h : profileAdmitted p = true) :
    p.pipes = 2 ∧ (p.banks = 4 ∨ p.banks = 8) ∧ p.groupBytes = 2 ^ groupBits p ∧ 1 ≤ p.rowSize ∧ 1 ≤ p.splitSize ∧
      2 ≤ p.swapSize := by
  simp only [profileAdmitted, isPowerOfTwo, Bool.and_eq_true, Bool.or_eq_true, decide_eq_true_eq] at h
  obtain ⟨⟨⟨⟨⟨h1, h2⟩, h3⟩, h4⟩, h5⟩, h6⟩ := h
  exact ⟨h1, h2, h3.symm, h4, h5, h6⟩

theorem pipeBits_of_two {p : Profile} (h : p.pipes = 2) : pipeBits p = 1 := by
  unfold pipeBits exactLog2; rw [h]; decide

theorem two_pow_bankBits {p : Profile} (h : p.banks = 4 ∨ p.banks = 8) : 2 ^ bankBits p = p.banks := by
  unfold bankBits exactLog2; rcases h with h | h <;> rw [h] <;> decide

/-- The final assembly is the sum of its fields (R127). -/
theorem assembleOffset_eq {p : Profile} (hp : profileAdmitted p = true) (total : Nat) {pipe bank : Nat} (h1 : pipe < 2)
    (h2 : bank < p.banks) :
    assembleOffset p total pipe bank
      = total % p.groupBytes + p.groupBytes * (pipe + 2 * bank) + 2 * p.banks * p.groupBytes * (total / p.groupBytes) := by
  obtain ⟨hpipes, hbanks, hg, -, -, -⟩ := facts_of_profileAdmitted hp
  have hb := two_pow_bankBits hbanks
  have hlow : total % 2 ^ groupBits p < 2 ^ groupBits p := Nat.mod_lt _ (by positivity)
  have hclear : clearLow total (groupBits p) = 2 ^ groupBits p * (total / 2 ^ groupBits p) := by
    have := Nat.div_add_mod total (2 ^ groupBits p)
    unfold clearLow; omega
  have hpg : pipe <<< groupBits p ||| total % 2 ^ groupBits p = 2 ^ groupBits p * pipe + total % 2 ^ groupBits p := by
    rw [Nat.shiftLeft_eq, Nat.mul_comm pipe, ← Nat.two_pow_add_eq_or_of_lt hlow]
  have hlt1 : 2 ^ groupBits p * pipe + total % 2 ^ groupBits p < 2 ^ (1 + groupBits p) := by
    rw [Nat.pow_add]
    calc _ < 2 ^ groupBits p * pipe + 2 ^ groupBits p := by omega
      _ = 2 ^ groupBits p * (pipe + 1) := by ring
      _ ≤ 2 ^ groupBits p * 2 := Nat.mul_le_mul_left _ (by omega)
      _ = _ := by ring
  have hbp : bank <<< (1 + groupBits p) ||| (2 ^ groupBits p * pipe + total % 2 ^ groupBits p)
      = 2 ^ (1 + groupBits p) * bank + (2 ^ groupBits p * pipe + total % 2 ^ groupBits p) := by
    rw [Nat.shiftLeft_eq, Nat.mul_comm bank, ← Nat.two_pow_add_eq_or_of_lt hlt1]
  have hlt2 : 2 ^ (1 + groupBits p) * bank + (2 ^ groupBits p * pipe + total % 2 ^ groupBits p)
      < 2 ^ (1 + groupBits p + bankBits p) := by
    rw [Nat.pow_add 2 (1 + groupBits p), hb]
    calc _ < 2 ^ (1 + groupBits p) * bank + 2 ^ (1 + groupBits p) := by omega
      _ = 2 ^ (1 + groupBits p) * (bank + 1) := by ring
      _ ≤ _ := Nat.mul_le_mul_left _ h2
  have hhigh : clearLow total (groupBits p) <<< (bankBits p + 1)
      = 2 ^ (1 + groupBits p + bankBits p) * (total / 2 ^ groupBits p) := by
    rw [hclear, Nat.shiftLeft_eq]; ring
  unfold assembleOffset
  simp only [pipeBits_of_two hpipes, Nat.and_two_pow_sub_one_eq_mod]
  rw [Nat.or_assoc (bank <<< _), hpg, hbp, hhigh, Nat.or_comm, ← Nat.two_pow_add_eq_or_of_lt hlt2, hg, ← hb]
  ring

/-- The bank of the perturbed bank and pipe is a bank number (R123). -/
theorem bankPipe_div_lt {p : Profile} (hp : profileAdmitted p = true) (a : AddrArgs) (sampleSlice : Nat) :
    bankPipe p a sampleSlice / p.pipes < p.banks := by
  obtain ⟨hpipes, hbanks, -⟩ := facts_of_profileAdmitted hp
  rw [Nat.div_lt_iff_lt_mul (by omega), Nat.mul_comm]
  exact Nat.mod_lt _ (by rcases hbanks with h | h <;> rw [h, hpipes] <;> decide)

/-- The bank swap answers a bank number (R126). -/
theorem swapBank_lt {p : Profile} (hp : profileAdmitted p = true) {h : HalveWhile} {a : AddrArgs} {ns b bank : Nat}
    (hb : b < p.banks) (hs : swapBank p h a ns b = .ok bank) : bank < p.banks := by
  obtain ⟨-, hbanks, -⟩ := facts_of_profileAdmitted hp
  unfold swapBank at hs
  split at hs
  · split at hs
    · cases hs
    · next h8 =>
      have h4 : p.banks = 4 := by omega
      split at hs
      · cases hs
      · next w hw =>
        simp only [Except.ok.injEq] at hs
        rw [h4] at hb
        rw [← hs, h4]
        refine Nat.xor_lt_two_pow (n := 2) hb ?_
        generalize macroTilePitch p a.tileMode * (a.x / macroTilePitch p a.tileMode) / w &&& (4 - 1) = k
        rcases k with _ | _ | _ | _ | k <;> simp [bankSwapOrder]
  · cases hs; exact hb

end Sys2Proof.Machine
end

