-- ==== Sys2Proof/Tests/Slice0.lean ====
section
/-! SUPPORT. Sys2Proof/Tests/Slice0.lean: the model's own tests. Expected values come from spec/95_test_vectors.md or an
example of a rule, as each test says; the `witness_` theorems show that the hypotheses of the statements in
Certificates/Slice0/Obligations.lean can be met. -/
namespace Sys2Proof.Tests
open Sys2Proof Sys2Proof.Machine

/-! ## Helpers -/

/-- Operand registers written in a row. -/
def sets (l : List (OperandReg × Nat)) (s : State) : State :=
  s.withOpr (l.foldl (fun o p => o.set p.1 (BitVec.ofNat 32 p.2)) s.opr)

/-- The machine with the operands of `address` (30_encoding.md R86), in its order. -/
def addrState (x y slice sample bpp pitch height numSlices numSamples tileMode swizzle : Nat) : State :=
  sets [(.x, x), (.y, y), (.slice, slice), (.sample, sample), (.bpp, bpp), (.pitch, pitch), (.height, height),
    (.numSlices, numSlices), (.numSamples, numSamples), (.tileMode, tileMode), (.swizzle, swizzle)] State.reset

/-- The machine with a BC3 surface descriptor of one slice, and the lengths of the buffers. -/
def surfaceState (width height tileMode pitch dataSize srcLen dstCap : Nat) (src : List Nat) : State :=
  (sets [(.dWidth, width), (.dHeight, height), (.dDepth, 1), (.dFormat, 0x33), (.dTileMode, tileMode), (.dSwizzle, 0),
    (.dPitch, pitch), (.dSamples, 1), (.dSlices, 1), (.dDataSize, dataSize), (.srcLen, srcLen), (.dstCap, dstCap)]
    State.reset).withSrc (cellsAt 0 (src.map (BitVec.ofNat 8)))

/-- The machine under another configuration. -/
def underProfile (p : Profile) (s : State) : State := s.withCfg { s.cfg with profile := p }

/-- The 8-bank profile of section 2.8. -/
def eightBanks : Profile := { defaultProfile with banks := 8 }

/-- A profile that is not admitted. -/
def fourPipes : Profile := { defaultProfile with pipes := 4 }

/-- Whether a step answers a next state of which `p` holds. -/
def ran (r : Result) (p : State → Bool) : Bool :=
  match r with
  | .next t => p t
  | .fault _ => false
  | .refused _ => false

/-- The next state, where there is one. -/
def after (r : Result) : State :=
  match r with
  | .next t => t
  | .fault _ => State.reset
  | .refused _ => State.reset

theorem eq_next_after {r : Result} {p : State → Bool} (h : ran r p = true) : r = .next (after r) := by
  cases r with
  | next t => rfl
  | fault f => exact absurd h (by simp [ran])
  | refused f => exact absurd h (by simp [ran])

theorem ran_after {r : Result} {p : State → Bool} (h : ran r p = true) : p (after r) = true := by
  cases r with
  | next t => exact h
  | fault f => exact absurd h (by simp [ran])
  | refused f => exact absurd h (by simp [ran])

/-- Whether a state holds this address and `STATUS` = 0x00000004 (10_state.md R36). -/
def holdsAddr (byte bit : Nat) (t : State) : Bool :=
  decide (t.res.byte.val = byte ∧ t.res.bit.val.toNat = bit ∧ t.status = 0x00000004)

/-- A value is this answer, as a decidable test. -/
def answers {α : Type} [DecidableEq α] (r : Except Cause α) (a : α) : Bool :=
  match r with
  | .ok b => decide (b = a)
  | .error _ => false

/-- Whether `DST` holds these bytes from an offset. -/
def dstHolds (a : Nat) (bytes : List Nat) (t : State) : Bool :=
  match t.dst.readBytes a bytes.length with
  | .ok bs => decide (bs = bytes.map (BitVec.ofNat 8))
  | .error _ => false

/-- A command on a state whose result must hold `p`. -/
def execHas (i : Instr) (s : State) (p : State → Bool) : Bool := ran (exec i s) p

/-! ## Well-formedness (30_encoding.md R85, 10_state.md R30 to R33) -/

theorem test_wf_set_too_wide : (HostLine.set .x (2 ^ 32)).wf = false := by decide
theorem test_wf_set_widest : (HostLine.set .x (2 ^ 32 - 1)).wf = true := by decide
theorem test_wf_setBlk_too_wide : (HostLine.setBlk (256 ^ 16)).wf = false := by decide
theorem test_wf_setTex_too_wide : (HostLine.setTex (256 ^ 64)).wf = false := by decide
theorem test_wf_loadSrc_empty : (HostLine.loadSrc 0 []).wf = false := by decide
theorem test_wf_loadDst_empty : (HostLine.loadDst 0 []).wf = false := by decide
theorem test_wf_loadBlk_short : (HostLine.loadBlk (List.replicate 15 0)).wf = false := by decide
theorem test_wf_loadBlk_exact : (HostLine.loadBlk (List.replicate 16 0)).wf = true := by decide
theorem test_wf_loadTex_long : (HostLine.loadTex (List.replicate 65 0)).wf = false := by decide
theorem test_wf_loadTex_exact : (HostLine.loadTex (List.replicate 64 0)).wf = true := by decide

/-- An ill-formed line is refused, and nothing runs. -/
theorem test_illFormedLine_refused :
    step (State.reset.withProgram [.loadBlk []]) = .refused .illFormedLine := rfl

/-! ## Decode: the words of 30_encoding.md R71, bit by bit, bits 31:8 then bits 7:0 -/

theorem test_decode_addr : decode 0b000000000000000000000000_00000001#32 = .ok .addr := by decide
theorem test_decode_addrLinear : decode 0b000000000000000000000000_00000010#32 = .ok .addrLinear := by decide
theorem test_decode_addrMicro : decode 0b000000000000000000000000_00000011#32 = .ok .addrMicro := by decide
theorem test_decode_addrMacro : decode 0b000000000000000000000000_00000100#32 = .ok .addrMacro := by decide
theorem test_decode_retileToLinear : decode 0b000000000000000000000000_00000101#32 = .ok .retileToLinear := by decide
theorem test_decode_retileToTiled : decode 0b000000000000000000000000_00000110#32 = .ok .retileToTiled := by decide
theorem test_decode_decodeBlock : decode 0b000000000000000000000000_00000111#32 = .ok .decodeBlock := by decide
theorem test_decode_encodeBlock : decode 0b000000000000000000000000_00001000#32 = .ok .encodeBlock := by decide
theorem test_decode_decodeSurface : decode 0b000000000000000000000000_00001001#32 = .ok .decodeSurface := by decide
theorem test_decode_encodeSurface : decode 0b000000000000000000000000_00001010#32 = .ok .encodeSurface := by decide
theorem test_decode_decodeLinear : decode 0b000000000000000000000000_00001011#32 = .ok .decodeLinear := by decide
theorem test_decode_encodeLinear : decode 0b000000000000000000000000_00001100#32 = .ok .encodeLinear := by decide

/-- Section 2.1: words that name no command. -/
theorem test_decode_illegal :
    decode 0x00000100 = .error .reservedBits ∧ decode 0x00000108 = .error .reservedBits ∧
    decode 0xFFFFFFFF = .error .reservedBits ∧ decode 0x0000000D = .error .opcode ∧
    decode 0x000000FF = .error .opcode ∧ decode 0x00000000 = .error .opcode := by decide

/-- The host's reading of the opcode table: its decoder and its first step. -/
theorem test_decodeTableWord : decodeTableWord 32 0x0000000A = some .encodeSurface ∧ decodeTableWord 8 0x0C = some .encodeLinear
    ∧ decodeTableWord 32 0x0000010A = none := by decide

theorem test_withFetchWord_runs (i : Instr) :
    step (State.reset.withFetchWord 32 (encode i).toNat) = exec i (State.reset.withCmd (encode i)) := by
  cases i <;> rfl

/-- Section 2.1: the first command after reset, 0x00000100, leaves `STATUS` = 0x00000103. -/
theorem test_illegal_status :
    ran (step (State.reset.withFetchWord 32 0x100)) (fun t => decide (t.status = 0x00000103)) = true := by decide

/-! ## Address commands -/

/-- The example of 40_address_engine.md R116. -/
theorem test_addr : execHas .addr (addrState 5 6 0 0 128 64 64 1 1 4 0) (holdsAddr 6304 0) = true := by decide

/-- Section 2.15: after a success `STATUS` is 0x00000004, and a ConfigurationError 11 makes it 0x00000B05, the result kept. -/
theorem test_addr_then_class_error :
    ran (exec .addrMicro (after (exec .addr (addrState 5 6 0 0 128 64 64 1 1 4 0))))
      (fun t => decide (t.status = 0x00000B05 ∧ t.res.byte.val = 6304)) = true := by decide

/-- Section 2.3. -/
theorem test_addrLinear : execHas .addrLinear (addrState 3 2 1 1 128 8 8 2 1 1 0) (holdsAddr 3376 0) = true := by
  decide
theorem test_addrLinear_bits : execHas .addrLinear (addrState 3 0 0 0 4 8 8 1 1 0 0) (holdsAddr 1 4) = true := by
  decide

/-- Section 2.4. -/
theorem test_addrMicro : execHas .addrMicro (addrState 1 0 5 0 128 16 16 1 1 3 0) (holdsAddr 17440 0) = true := by
  decide
theorem test_addrMicro_bits : execHas .addrMicro (addrState 3 0 0 0 4 16 16 1 1 2 0) (holdsAddr 1 4) = true := by
  decide

/-- Sections 2.5 to 2.7: the traced row, the third sample of a split, an aspect-4 mode, a bank-swapped mode. -/
theorem test_addrMacro :
    execHas .addrMacro (addrState 37 21 0 0 128 64 64 1 1 4 0) (holdsAddr 29872 0) = true ∧
    execHas .addrMacro (addrState 0 0 0 3 128 64 64 1 4 4 0) (holdsAddr 140800 0) = true ∧
    execHas .addrMacro (addrState 0 64 0 0 128 64 128 1 1 6 0) (holdsAddr 65536 0) = true ∧
    execHas .addrMacro (addrState 96 0 0 0 128 128 16 1 1 8 0) (holdsAddr 25600 0) = true := by decide

/-- Sections 2.6 and 2.8: a thick mode, the swizzle, and the 8-bank profile. -/
theorem test_addrMacro_profiles :
    execHas .addrMacro (addrState 0 0 5 0 128 64 64 1 1 7 0) (holdsAddr 270848 0) = true ∧
    execHas .addrMacro (addrState 0 0 0 0 128 64 64 1 1 4 0x700) (holdsAddr 1792 0) = true ∧
    execHas .addrMacro (underProfile eightBanks (addrState 5 6 0 0 128 128 128 1 1 4 0)) (holdsAddr 12448 0) = true ∧
    execHas .addrMacro (underProfile eightBanks (addrState 0 32 0 0 128 128 128 1 1 4 0)) (holdsAddr 66560 0) = true := by
  decide

theorem test_addrMacro_5_6 : execHas .addrMacro (addrState 5 6 0 0 128 64 64 1 1 4 0) (holdsAddr 6304 0) = true := by
  decide

/-! ## Retile -/

/-- Section 2.11, descriptor T2 with a data size of 80: blocks at 0, 32, 16, 48, and 0 in the padding. -/
def tiledT2 : State := surfaceState 8 8 2 8 80 64 80 (List.range 64)

theorem test_retileToTiled :
    execHas .retileToTiled tiledT2 (fun t => dstHolds 0 (List.range' 0 16 ++ List.range' 32 16 ++ List.range' 16 16
      ++ List.range' 48 16 ++ List.replicate 16 0) t && decide (t.res.len.val = 80)) = true := by decide

theorem test_retileToTiled_short :
    ran (exec .retileToTiled (sets [(.dDataSize, 48), (.dstCap, 48)] tiledT2))
      (fun t => decide (t.status = 0x00000302 ∧ t.dst = [])) = true := by decide

theorem test_retileToLinear :
    execHas .retileToLinear (surfaceState 8 8 2 8 64 64 64 (List.range 64))
      (fun t => dstHolds 0 (List.range' 0 16 ++ List.range' 32 16 ++ List.range' 16 16 ++ List.range' 48 16) t
        && decide (t.res.len.val = 64)) = true := by decide

/-- 20_memory.md R51: a source byte nobody wrote is a model fault. -/
theorem test_retileToLinear_unwritten :
    (match exec .retileToLinear (surfaceState 4 4 0 1 16 16 16 [0, 1, 2]) with
      | .fault f => decide (f = .srcUnwritten 3)
      | .next _ => false
      | .refused _ => false) = true := by decide

/-! ## Block codec -/

def blockV1 : List Nat := [0xFF, 0x00, 0x88, 0xC6, 0xFA, 0x88, 0xC6, 0xFA, 0x00, 0xF8, 0x1F, 0x00, 0xE4, 0xE4, 0xE4, 0xE4]

/-- Vector V1. -/
theorem test_decodeBlock :
    execHas .decodeBlock (State.reset.withOpr (State.reset.opr.setBlk (bytesOf 16 (blockV1.map (BitVec.ofNat 8)))))
      (fun t => decide (t.res.tex.val.toList.take 32 = ([255, 0, 0, 255, 0, 0, 255, 0, 170, 0, 85, 218, 85, 0, 170, 182,
        255, 0, 0, 145, 0, 0, 255, 109, 170, 0, 85, 72, 85, 0, 170, 36].map (BitVec.ofNat 8)))) = true := by decide

/-- E8: the 5-step form's slots 6 and 7, whose codes cross a byte. -/
theorem test_decode_alphaCodes :
    (List.range 6).map (fun i => (decodeTexel ([0x10, 0x20, 0xC0, 0xFF, 0, 0, 0, 0, 0, 0, 0, 0, 0, 0, 0, 0]) i).a)
      = [16, 16, 255, 255, 255, 32] := by decide

/-- The texels of vector V5. -/
def texV5 : List Nat := (List.range 16).flatMap fun i => [10 * i, 15 * i, 5 * i, 255]

/-- Vector V5: an edge block. -/
theorem test_encodeBlock :
    execHas .encodeBlock (sets [(.imgW, 2), (.imgH, 3), (.blkX, 0), (.blkY, 0)]
        (State.reset.withOpr (State.reset.opr.setTex (bytesOf 64 (texV5.map (BitVec.ofNat 8))))))
      (fun t => decide (t.res.blk.val.toList = ([0xFE, 0xFF, 0x09, 0x90, 0x00, 0x09, 0x00, 0x00, 0x25, 0x5C, 0x00, 0x00,
        0x05, 0x0B, 0x00, 0x00].map (BitVec.ofNat 8)))) = true := by decide

/-- The tie vector: texel 2 is as far from entry 1 as from entry 3, and entry 1 is kept. -/
theorem test_encodeBlock_tie :
    encodeTexels .specDefault ([⟨0, 0, 0, 255⟩, ⟨24, 0, 0, 255⟩, ⟨4, 0, 0, 255⟩] ++ List.replicate 13 ⟨0, 0, 0, 255⟩) 4 4 0 0
      = ([0xFE, 0xFF, 0x49, 0x92, 0x24, 0x49, 0x92, 0x24, 0x00, 0x18, 0x00, 0x00, 0x51, 0x55, 0x55, 0x55]) := by
  decide

/-! ## Pipeline -/

def transparentBytes : List Nat :=
  [0xFF, 0x00, 0x49, 0x92, 0x24, 0x49, 0x92, 0x24, 0x01, 0x00, 0x00, 0x00, 0xFF, 0xFF, 0xFF, 0xFF]

/-- The example of 43_pipeline.md R221. -/
theorem test_decodeSurface :
    execHas .decodeSurface (surfaceState 4 4 0 1 16 16 64 transparentBytes)
      (fun t => dstHolds 0 ((List.replicate 16 [0, 0, 2, 0]).flatten) t && decide (t.res.len.val = 64)) = true := by
  decide

/-- Section 2.14: another format is refused after the descriptor checks. -/
theorem test_decodeSurface_format :
    ran (exec .decodeSurface (sets [(.dFormat, 0x31)] (surfaceState 4 4 0 1 16 16 64 transparentBytes)))
      (fun t => decide (t.status = 0x00001001)) = true := by decide

def solidPixels : List Nat := (List.replicate 16 [0x80, 0x40, 0x20, 0xFF]).flatten

/-- The example of R222. -/
theorem test_encodeSurface :
    execHas .encodeSurface (surfaceState 4 4 0 1 16 64 16 solidPixels)
      (fun t => dstHolds 0 [0xFE, 0xFF, 0x49, 0x92, 0x24, 0x49, 0x92, 0x24, 0x05, 0x82, 0x04, 0x82, 0x55, 0x55, 0x55, 0x55] t
        && decide (t.res.len.val = 16)) = true := by decide

/-- Section 2.14: the V5 block cropped to 2 by 3 pixels. -/
theorem test_decodeLinear :
    execHas .decodeLinear (surfaceState 2 3 0 0 0 16 24
        [0xFE, 0xFF, 0x09, 0x90, 0x00, 0x09, 0x00, 0x00, 0x25, 0x5C, 0x00, 0x00, 0x05, 0x0B, 0x00, 0x00])
      (fun t => dstHolds 0 [0, 0, 0, 0xFF, 0, 0, 0, 0xFF, 0x1E, 0x2C, 0x0D, 0xFF, 0x3C, 0x59, 0x1B, 0xFF, 0x5A, 0x86, 0x29, 0xFF,
        0x5A, 0x86, 0x29, 0xFF] t && decide (t.res.len.val = 24)) = true := by decide

/-- The 5 by 5 image of section 2.14. -/
def image5x5 : List Nat :=
  (List.range 5).flatMap fun py => (List.range 5).flatMap fun px => [40 * px, 40 * py, 0, 255]

theorem test_encodeLinear :
    execHas .encodeLinear (surfaceState 5 5 0 0 0 100 64 image5x5)
      (fun t => dstHolds 0 ([0xFE, 0xFF, 0x49, 0x92, 0x24, 0x49, 0x92, 0x24, 0xC0, 0x7B, 0x00, 0x00, 0xB5, 0xBD, 0xAD, 0x2D]
        ++ [0xFE, 0xFF, 0x01, 0x10, 0x00, 0x01, 0x10, 0x00, 0xC0, 0xA3, 0x00, 0xA0, 0x01, 0x03, 0x02, 0x00]
        ++ [0xFE, 0xFF, 0x49, 0x02, 0x00, 0x00, 0x00, 0x00, 0x00, 0x7D, 0x00, 0x05, 0x2D, 0x00, 0x00, 0x00]
        ++ [0xFE, 0xFF, 0x01, 0x00, 0x00, 0x00, 0x00, 0x00, 0x01, 0xA5, 0x00, 0xA5, 0x01, 0x00, 0x00, 0x00]) t
        && decide (t.res.len.val = 64)) = true := by decide

/-- Section 2.14: the format is checked before the width. -/
theorem test_linear_checks_format_first :
    ran (exec .decodeLinear (sets [(.dFormat, 0x31), (.dWidth, 0)] (surfaceState 5 5 0 0 0 64 100 [])))
      (fun t => decide (t.status = 0x00001001)) = true := by decide

/-! ## Witnesses: the hypotheses of the statements can be met -/

/-- The machine with one line left, or several. -/
def withLines (l : List HostLine) : State := State.reset.withProgram l

theorem witness_DecodeIsExact :
    256 ≤ (256#32).toNat ∧ (0#32).toNat = 0 ∧ 13 ≤ (13#32).toNat ∧ (255#32).toNat ≤ 255 ∧
    1 ≤ (1#32).toNat ∧ (12#32).toNat ≤ 12 := by decide

theorem witness_StepRunsTheDecodedCommand :
    (withLines [.command 12, .reset]).program = .command 12 :: [.reset] ∧ decode 12 = .ok .encodeLinear := ⟨rfl, by decide⟩

theorem witness_IllegalWordRaises :
    (withLines [.command 0xD]).program = .command 0xD :: [] ∧ decode 0xD = .error .opcode ∧
    (withLines [.command 0x100]).program = .command 0x100 :: [] ∧ decode 0x100 = .error .reservedBits :=
  ⟨rfl, by decide, rfl, by decide⟩

/-- A machine whose `DST` holds the bytes 5 and 6 and which is about to run a line. -/
def holding (l : HostLine) : State := (withLines [l]).withDst (cellsAt 5 [7, 8])

/-- Each read, the whole of the bytes held, and one byte past them, for a read and for a copy. -/
theorem witness_IdleReadAndStatusLinesKeepTheState :
    State.reset.program = [] ∧ (withLines [.writeStatus 7]).program = .writeStatus 7 :: [] ∧
    (withLines [.read .status]).program = .read .status :: [] ∧
    ((holding (.read (.dst 5 2))).program = .read (.dst 5 2) :: [] ∧
      ∀ j < 2, (holding (.read (.dst 5 2))).dst.read (5 + j) = ([7, 8] : List Byte)[j]?) ∧
    ((holding (.read (.dst 5 3))).program = .read (.dst 5 3) :: [] ∧ (holding (.read (.dst 5 3))).dst.read (5 + 2) = none ∧
      ∀ k < 2, ((holding (.read (.dst 5 3))).dst.read (5 + k)).isSome) ∧
    ((holding (.copySrcDst 1)).program = .copySrcDst 1 :: [] ∧ (holding (.copySrcDst 1)).dst.read 0 = none) ∧
    (withLines [.read .cmd]).program = .read .cmd :: [] := by
  refine ⟨rfl, rfl, rfl, ⟨rfl, by decide⟩, ⟨rfl, by decide, by decide⟩, ⟨rfl, by decide⟩, rfl⟩

theorem witness_SetWritesOneOperandRegister :
    ((withLines [.set .dstCap (2 ^ 32 - 1)]).program = .set .dstCap (2 ^ 32 - 1) :: [] ∧ 2 ^ 32 - 1 < 2 ^ 32) ∧
    ((withLines [.setBlk (256 ^ 16 - 1)]).program = .setBlk (256 ^ 16 - 1) :: [] ∧ 256 ^ 16 - 1 < 256 ^ 16) ∧
    ((withLines [.setTex (256 ^ 64 - 1)]).program = .setTex (256 ^ 64 - 1) :: [] ∧ 256 ^ 64 - 1 < 256 ^ 64) :=
  ⟨⟨rfl, by decide⟩, ⟨rfl, by decide⟩, ⟨rfl, by decide⟩⟩

/-- 30_encoding.md R78: A0 is bits [7:0] of W, byte 0; A1 bits [15:8]; Color0 bits [79:64], bytes 8 and 9; the last color
byte bits [127:120]. -/
theorem test_setBlk :
    ran (step (withLines [.setBlk (0xFF + 0x7E <<< 8 + 0xF812 <<< 64 + 0xE4 <<< 120)]))
      (fun t => decide (t.opr.blk.val.toList = [0xFF, 0x7E, 0, 0, 0, 0, 0, 0, 0x12, 0xF8, 0, 0, 0, 0, 0, 0xE4] ∧
        t.opr.blk.written = true)) = true := by decide

/-- 00_scope.md R11: byte k is bits [8k+7:8k] of the number. -/
theorem test_setTex :
    ran (step (withLines [.setTex (0x04030201 + 0xAB <<< 504)]))
      (fun t => decide (t.opr.tex.val.toList = [1, 2, 3, 4] ++ List.replicate 59 0 ++ [0xAB])) = true := by decide

/-- A machine whose `DST` holds two bytes and which is about to copy them. -/
def copying : State := (withLines [.copySrcDst 2]).withDst (cellsAt 0 [7, 8])

theorem witness_BufferLinesMoveTheirBytes :
    (withLines [.loadSrc 0 [1]]).program = .loadSrc 0 [1] :: [] ∧ (withLines [.loadDst 5 [1, 2]]).program = .loadDst 5 [1, 2] :: [] ∧
    [(1 : Byte)] ≠ [] ∧ [(1 : Byte), 2] ≠ [] ∧
    copying.program = .copySrcDst 2 :: [] ∧ ∀ a < 2, (copying.dst.read a).isSome := by
  refine ⟨rfl, rfl, by decide, by decide, rfl, by decide⟩

theorem witness_ByteRegisterLinesWriteTheirRegister :
    (withLines [.loadBlk (List.replicate 16 1)]).program = .loadBlk (List.replicate 16 1) :: [] ∧
    (List.replicate 16 (1 : Byte)).length = 16 ∧
    (withLines [.loadTex (List.replicate 64 1)]).program = .loadTex (List.replicate 64 1) :: [] ∧
    (List.replicate 64 (1 : Byte)).length = 64 ∧
    (withLines [.copyBlk]).program = .copyBlk :: [] ∧ (withLines [.copyTex]).program = .copyTex :: [] :=
  ⟨rfl, by decide, rfl, by decide, rfl, rfl⟩

theorem witness_ResetLineKeepsTheConfiguration : (withLines [.reset]).program = .reset :: [] := rfl

theorem witness_StepKeepsBuffersCanonical :
    step copying = .next (after (step copying)) ∧ BuffersCanonical copying :=
  ⟨rfl, by decide⟩

theorem witness_StepKeepsStatusLegal :
    step (State.reset.withFetchWord 32 7) = .next (after (step (State.reset.withFetchWord 32 7))) ∧
    StatusLegal (State.reset.withFetchWord 32 7) := ⟨rfl, by unfold StatusLegal; decide⟩

theorem witness_StepKeepsTheConfiguration : step State.reset = .next State.reset := rfl

/-- The state after ADDR failed on the widest tile mode out of range. -/
def failed : State := after (exec .addr (addrState 0 0 0 0 8 8 8 1 1 17 0))

theorem witness_ErrorChangesOnlyCodeAndInfo :
    exec .addr (addrState 0 0 0 0 8 8 8 1 1 17 0) = .next failed ∧ statusCode failed.status ≠ 0 ∧
    issue 0x100 State.reset = .next (after (issue 0x100 State.reset)) ∧
    statusCode (after (issue 0x100 State.reset)).status ≠ 0 := by
  have h : ran (exec .addr (addrState 0 0 0 0 8 8 8 1 1 17 0)) (fun t => statusCode t.status != 0) = true := by decide
  have h2 : ran (issue 0x100 State.reset) (fun t => statusCode t.status != 0) = true := by decide
  exact ⟨eq_next_after h, by simpa [failed] using ran_after h, eq_next_after h2, by simpa using ran_after h2⟩

theorem witness_SuccessSetsValidAndNoCommandClearsIt :
    exec .decodeBlock State.reset = .next (after (exec .decodeBlock State.reset)) ∧
    statusCode (after (exec .decodeBlock State.reset)).status = 0 ∧
    exec .decodeBlock (State.reset.withStatus 4) = .next (after (exec .decodeBlock (State.reset.withStatus 4))) ∧
    statusValid (State.reset.withStatus 4).status = true := ⟨rfl, by decide, rfl, by decide⟩

theorem witness_CommandsRaiseOnlyTheirErrors :
    exec .decodeBlock State.reset = .next (after (exec .decodeBlock State.reset)) ∧ decode 0 = .error .opcode :=
  ⟨rfl, by decide⟩

theorem witness_ErrorsRepeat :
    exec .addr (addrState 0 0 0 0 8 8 8 1 1 17 0) = .next failed ∧ statusCode failed.status ≠ 0 :=
  ⟨witness_ErrorChangesOnlyCodeAndInfo.1, witness_ErrorChangesOnlyCodeAndInfo.2.1⟩

/-- A 4 by 4 BC3 surface of one block in tile mode 0, with the buffers every command on it needs. -/
def oneBlock : State := surfaceState 4 4 0 1 16 64 64 solidPixels

theorem oneBlock_runs (i : Instr)
    (h : i ∈ [Instr.retileToLinear, .retileToTiled, .decodeSurface, .encodeSurface, .decodeLinear, .encodeLinear]) :
    ran (exec i oneBlock) (fun t => statusCode t.status == 0) = true := by
  have all : ([Instr.retileToLinear, .retileToTiled, .decodeSurface, .encodeSurface, .decodeLinear, .encodeLinear].all
      fun i => ran (exec i oneBlock) (fun t => statusCode t.status == 0)) = true := by decide
  exact List.all_eq_true.mp all i h

theorem witness_CommandsWriteOnlyTheirResults :
    (∀ i ∈ [Instr.retileToLinear, .retileToTiled, .decodeSurface, .encodeSurface, .decodeLinear, .encodeLinear],
      exec i oneBlock = .next (after (exec i oneBlock))) ∧
    exec .addrMacro (addrState 5 6 0 0 128 64 64 1 1 4 0)
      = .next (after (exec .addrMacro (addrState 5 6 0 0 128 64 64 1 1 4 0))) ∧
    exec .encodeBlock State.reset = .next (after (exec .encodeBlock State.reset)) ∧
    exec .decodeBlock State.reset = .next (after (exec .decodeBlock State.reset)) :=
  ⟨fun i h => eq_next_after (oneBlock_runs i h), eq_next_after test_addrMacro_5_6, rfl, rfl⟩

/-- Two sources that agree below SRC_LEN and differ at it. -/
theorem witness_ReadsStayBelowSrcLen :
    (∀ a < oneBlock.num .srcLen, (oneBlock.src.writeBytes 64 [1]).read a = oneBlock.src.read a) ∧
    (oneBlock.src.writeBytes 64 [1]).read 64 ≠ oneBlock.src.read 64 := by decide

theorem witness_WritesStayBelowResLenAndCapacity :
    ∀ i ∈ [Instr.retileToLinear, .retileToTiled, .decodeSurface, .encodeSurface, .decodeLinear, .encodeLinear],
      exec i oneBlock = .next (after (exec i oneBlock)) ∧ statusCode (after (exec i oneBlock)).status = 0 :=
  fun i h => ⟨eq_next_after (oneBlock_runs i h), by simpa using ran_after (oneBlock_runs i h)⟩

theorem witness_UnadmittedProfileRaises :
    profileAdmitted (underProfile fourPipes State.reset).cfg.profile = false ∧
    Instr.addr ∈ [Instr.addr, .addrLinear, .addrMicro, .addrMacro, .retileToLinear, .retileToTiled, .decodeSurface,
      .encodeSurface] := by decide

/-- Each clause of the address checks, at the bounds of its range. -/
theorem witness_AddressChecksInOrder :
    profileAdmitted State.reset.cfg.profile = true ∧
    16 < (addrState 0 0 0 0 8 8 8 1 1 17 0).num .tileMode ∧
    ((addrState 0 0 0 0 8 8 8 1 1 16 0).num .tileMode ≤ 16 ∧ 4 ≤ (addrState 0 0 0 0 8 8 8 1 1 16 0).num .tileMode) ∧
    (2 ≤ (addrState 0 0 0 0 8 8 8 1 1 2 0).num .tileMode ∧ (addrState 0 0 0 0 8 8 8 1 1 3 0).num .tileMode ≤ 3) ∧
    (addrState 0 0 0 0 8 8 8 1 1 1 0).num .tileMode ≤ 1 ∧ 4 ≤ (addrState 0 0 0 0 8 8 8 1 1 4 0).num .tileMode ∧
    (addrState 0 0 0 0 0 8 8 1 1 0 0).num .bpp = 0 ∧ 128 < (addrState 0 0 0 0 129 8 8 1 1 0 0).num .bpp ∧
    (1 ≤ (addrState 0 0 0 0 128 0 8 1 1 0 0).num .bpp ∧ (addrState 0 0 0 0 128 0 8 1 1 0 0).num .bpp ≤ 128 ∧
      (addrState 0 0 0 0 128 0 8 1 1 0 0).num .pitch = 0) ∧
    ((addrState 0 0 0 0 1 8 0 1 1 0 0).num .pitch ≠ 0 ∧ (addrState 0 0 0 0 1 8 0 1 1 0 0).num .height = 0) ∧
    ((addrState 0 0 0 0 1 8 8 0 1 1 0).num .height ≠ 0 ∧ (addrState 0 0 0 0 1 8 8 0 1 1 0).num .tileMode ≤ 1 ∧
      (addrState 0 0 0 0 1 8 8 0 1 1 0).num .numSlices = 0) ∧
    ((addrState 0 0 0 0 1 8 8 1 0 4 0).num .height ≠ 0 ∧ 4 ≤ (addrState 0 0 0 0 1 8 8 1 0 4 0).num .tileMode ∧
      (addrState 0 0 0 0 1 8 8 1 0 4 0).num .numSamples = 0) := by decide

theorem witness_AddrIsTheCommandOfItsClass :
    (addrState 0 0 0 0 8 8 8 1 1 1 0).num .tileMode ≤ 1 ∧
    (2 ≤ (addrState 0 0 0 0 8 8 8 1 1 2 0).num .tileMode ∧ (addrState 0 0 0 0 8 8 8 1 1 3 0).num .tileMode ≤ 3) ∧
    (4 ≤ (addrState 0 0 0 0 8 8 8 1 1 4 0).num .tileMode ∧ (addrState 0 0 0 0 8 8 8 1 1 16 0).num .tileMode ≤ 16) := by decide

/-- A machine whose offsets have 4 bits. -/
def narrow (s : State) : State := s.withCfg { s.cfg with offsetWidth := some 4 }

/-- The bit address of R117. -/
def linearBits (s : State) : Nat :=
  s.num .bpp * (s.num .x + s.num .pitch * s.num .y
    + (s.num .slice + s.num .numSlices * s.num .sample) * s.num .height * s.num .pitch)

/-- Byte 15 fits 4 bits and byte 16 does not. -/
theorem witness_AddrLinearCompletes :
    (let s := narrow (addrState 16 0 0 0 8 32 8 1 1 0 0);
      profileAdmitted s.cfg.profile = true ∧ s.num .tileMode ≤ 1 ∧ (1 ≤ s.num .bpp ∧ s.num .bpp ≤ 128) ∧ s.num .pitch ≠ 0 ∧
      s.num .height ≠ 0 ∧ s.num .numSlices ≠ 0 ∧ s.cfg.offsetWidth = some 4 ∧ 2 ^ 4 ≤ linearBits s / 8) ∧
    (let s := narrow (addrState 15 0 0 0 8 32 8 1 1 1 0);
      profileAdmitted s.cfg.profile = true ∧ s.num .tileMode ≤ 1 ∧ (1 ≤ s.num .bpp ∧ s.num .bpp ≤ 128) ∧ s.num .pitch ≠ 0 ∧
      s.num .height ≠ 0 ∧ s.num .numSlices ≠ 0 ∧ s.cfg.offsetWidth = some 4 ∧ linearBits s / 8 < 2 ^ 4) := by decide

theorem witness_AddrMicroCompletes :
    (let s := narrow (addrState 1 0 3 0 128 16 16 1 1 3 0);
      profileAdmitted s.cfg.profile = true ∧ (2 ≤ s.num .tileMode ∧ s.num .tileMode ≤ 3) ∧
      (1 ≤ s.num .bpp ∧ s.num .bpp ≤ 128) ∧ s.num .pitch ≠ 0 ∧ s.num .height ≠ 0 ∧ s.cfg.offsetWidth = some 4 ∧
      2 ^ 4 ≤ s.num .bpp * pixelIndex (s.num .x) (s.num .y) (s.num .slice) (s.num .bpp) (s.num .tileMode) / 8) ∧
    (let s := addrState 9 3 0 0 128 16 16 1 1 2 0;
      profileAdmitted s.cfg.profile = true ∧ (2 ≤ s.num .tileMode ∧ s.num .tileMode ≤ 3) ∧
      (1 ≤ s.num .bpp ∧ s.num .bpp ≤ 128) ∧ s.num .pitch ≠ 0 ∧ s.num .height ≠ 0 ∧ s.cfg.offsetWidth = none) := by
  decide

/-- R100's conditions of the macro class, with one sample. -/
abbrev macroPremises (s : State) : Prop :=
  profileAdmitted s.cfg.profile = true ∧ (4 ≤ s.num .tileMode ∧ s.num .tileMode ≤ 16) ∧ (1 ≤ s.num .bpp ∧ s.num .bpp ≤ 128) ∧
    s.num .pitch ≠ 0 ∧ s.num .height ≠ 0

/-- The swapped mode of section 2.7. -/
def swapped : State := addrState 96 0 0 0 128 128 16 1 1 8 0

/-- A sample of one byte that fits a split. -/
def manySamples : State := addrState 5 6 0 3 8 64 64 1 4 16 0

theorem witness_AddrMacroCompletes :
    (macroPremises swapped ∧ swapped.num .numSamples = 1 ∧
      (isBankSwapped (swapped.num .tileMode) = true → swapped.cfg.profile.banks = 4 ∧
        ∀ sp, sampleSplit swapped.cfg.profile (addrOperands swapped) = .ok sp →
          bankSwapStart swapped.cfg.profile (swapped.num .tileMode) (swapped.num .bpp) sp.ns ≠ 0) ∧
      swapped.cfg.offsetWidth = none) ∧
    (macroPremises manySamples ∧ manySamples.num .numSamples ≠ 0 ∧
      8 * manySamples.num .bpp * thickness (manySamples.num .tileMode) ≤ manySamples.cfg.profile.splitSize ∧
      isBankSwapped (manySamples.num .tileMode) = false ∧ manySamples.cfg.offsetWidth = none) := by
  refine ⟨⟨by decide, by decide, fun _ => ⟨by decide, fun sp h => ?_⟩, by decide⟩, by decide⟩
  cases h
  decide

/-- The swapped mode of section 2.7 and the split of section 2.6, each value of the formula written out; byte 25600 fits 15 bits
and not 14. -/
theorem witness_AddrMacroResult :
    (let s := swapped;
      let p := s.cfg.profile;
      macroPremises s ∧ s.num .numSamples = 1 ∧ thickness 8 = 1 ∧ macroTilePitch p 8 = 32 ∧ macroTileHeight p 8 = 16 ∧
      128 * pixelIndex 96 0 0 128 8 + s.num .sample * (128 * 1 * 64) = 0 ∧
      (96 / 32 + s.num .pitch / 32 * (0 / 16)) * ((1 * 1 * 128 * 16 * 32 + 7) / 8) = 24576 ∧ 0 + (24576 + 0) / (2 * p.banks) = 3072 ∧
      ((pipeWoRot 96 0 + 2 * bankWoRot p 96 0) ^^^ 0 ^^^ 0) % (2 * p.banks) = 0 ∧
      min (2 * p.banks * p.rowSize / (1 * aspect 8 * 2 * 128))
        (max (p.groupBytes * 8 * p.banks / (1 * 8 * 128)) (max 1 (p.swapSize / 2 / 128) * 8 * p.banks)) = 32 ∧
      isBankSwapped 8 = true ∧ p.banks = 4 ∧ 32 ≠ 0 ∧
      0 / 2 ^^^ [0, 1, 3, 2].getD (96 / 32 * 32 / halve s.cfg.halveWhile 32 (s.num .pitch) % 4) 0 = 2 ∧
      3072 % p.groupBytes + p.groupBytes * (0 % 2 + 2 * 2) + 2 * p.banks * p.groupBytes * (3072 / p.groupBytes) = 25600 ∧
      25600 < 2 ^ 15 ∧ 2 ^ 14 ≤ 25600) ∧
    (let s := addrState 0 0 0 3 128 64 64 1 4 4 0;
      let p := s.cfg.profile;
      macroPremises s ∧ s.num .numSamples = 4 ∧ 8 * 128 * 1 ≤ p.splitSize ∧ decide (1 < 4 ∧ p.splitSize < 4 * 1024) = true ∧
      128 * pixelIndex 0 0 0 128 4 + s.num .sample * (128 * 1 * 64) = 24576 ∧ p.splitSize / 1024 = 2 ∧ 4 / 2 = 2 ∧
      24576 / (4 * 128 * 1 * 64 / 2) = 1 ∧ 24576 % (4 * 128 * 1 * 64 / 2) = 8192 ∧
      (s.num .height * s.num .pitch * 1 * 128 * 2 + 7) / 8 * ((1 + 2 * 0) / 1) = 131072 ∧
      (8192 + 7) / 8 + (0 + 131072) / (2 * p.banks) = 17408 ∧
      ((pipeWoRot 0 0 + 2 * bankWoRot p 0 0) ^^^ (2 * 1 * (p.banks / 2 + 1)) ^^^ 0) % (2 * p.banks) = 6 ∧
      isBankSwapped 4 = false ∧ 17408 % p.groupBytes + p.groupBytes * (6 % 2 + 2 * (6 / 2))
        + 2 * p.banks * p.groupBytes * (17408 / p.groupBytes) = 140800 ∧ s.cfg.offsetWidth = none) := by decide

/-- The swapped mode of section 2.7 again. -/
theorem witness_MacroAddressFieldsAreDisjoint :
    profileAdmitted defaultProfile = true ∧ sampleSplit defaultProfile (addrOperands swapped) = .ok ⟨1, 1, 0, 0⟩ ∧
    swapBank defaultProfile .gt (addrOperands swapped) 1
      (bankPipe defaultProfile (addrOperands swapped) 0 / defaultProfile.pipes) = .ok 2 ∧
    addrMacro defaultProfile .gt (addrOperands swapped) = .ok ⟨25600, 0⟩ :=
  ⟨by decide, by rfl, by rfl, by rfl⟩

/-- Both sides of the refusal: 8192 bits of tile for two thick samples, and the widest that fits. -/
theorem witness_SampleSplitRefusesExactly :
    (let a := addrOperands (addrState 0 0 0 0 128 64 64 1 2 7 0);
      1 ≤ a.numSamples ∧ 1 ≤ a.bpp ∧ 1 ≤ defaultProfile.splitSize ∧ 1 < a.numSamples ∧
      defaultProfile.splitSize < 8 * a.bpp * thickness a.tileMode) ∧
    (let a := addrOperands (addrState 0 0 0 0 64 64 64 1 2 7 0);
      1 ≤ a.numSamples ∧ 1 ≤ a.bpp ∧ defaultProfile.splitSize = 8 * a.bpp * thickness a.tileMode) := by decide

theorem witness_PixelIndexBoundsAndInputs : thickness 2 = 1 ∧ thickness 15 = 4 ∧ thickness 16 = 8 := by decide

theorem witness_OpcodeMapWordsDecode : 0xFF < 256 ∧ 0x0D ≤ 0xFF ∧ 0x0D < 256 ∧ decode 0xC = .ok .encodeLinear := by decide

theorem witness_HalvingStopsAtTheBound : 1 ≤ 1 ∧ HalveWhile.gt = .gt ∧ HalveWhile.ge = .ge ∧ 1 ≠ 0 := by decide

/-- The last column inside the pitch. -/
theorem witness_HalvingReadingsAgreeInsideThePitch :
    (addrOperands (addrState 15 0 0 0 128 16 16 1 1 8 0)).x < (addrOperands (addrState 15 0 0 0 128 16 16 1 1 8 0)).pitch := by
  decide

/-- R100's conditions, and each clause: no room for one sample, 8 banks, width 0, and a byte offset past 16 bits (section 2.10). -/
theorem witness_MacroErrorsInOrder :
    (let s := addrState 0 0 0 0 128 64 64 1 2 7 0;
      macroPremises s ∧ 1 < s.num .numSamples ∧
      s.cfg.profile.splitSize < 8 * s.num .bpp * thickness (s.num .tileMode)) ∧
    (let s := underProfile eightBanks (addrState 0 0 0 0 128 64 64 1 1 8 0);
      macroPremises s ∧ s.num .numSamples ≠ 0 ∧ isBankSwapped (s.num .tileMode) = true ∧ s.cfg.profile.banks = 8 ∧
      answers (sampleSplit s.cfg.profile (addrOperands s)) ⟨1, 1, 0, 0⟩ = true) ∧
    (let s := underProfile { defaultProfile with rowSize := 1 } (addrState 0 0 0 0 128 64 64 1 1 8 0);
      macroPremises s ∧ isBankSwapped (s.num .tileMode) = true ∧ s.cfg.profile.banks = 4 ∧
      answers (sampleSplit s.cfg.profile (addrOperands s)) ⟨1, 1, 0, 0⟩ = true ∧
      bankSwapStart s.cfg.profile (s.num .tileMode) (s.num .bpp) 1 = 0) ∧
    (let s := addrState 0 0 1 0 128 64 64 1 1 4 0;
      let t := s.withCfg { s.cfg with offsetWidth := some 16 };
      macroPremises t ∧ answers (addrMacro t.cfg.profile t.cfg.halveWhile (addrOperands t)) ⟨66048, 0⟩ = true ∧
      2 ^ 16 ≤ 66048) := by
  decide

theorem witness_OtherSwizzleBitsAreIgnored :
    ((0xFFFFFFFF : Word).toNat / 256 % 8 = (sets [(.swizzle, 0x700)] State.reset).num .swizzle / 256 % 8) ∧
    ((addrState 0 0 0 0 8 8 8 1 1 3 0).num .tileMode ≤ 3 ∧ State.reset.num .dTileMode ≤ 3) ∧
    ((0xFF : Word).toNat / 256 % 8 = State.reset.num .dSwizzle / 256 % 8) := by decide

/-! ### Tiled surfaces -/

/-- The conditions the surface descriptor checks ask, with the premise of one clause broken. -/
theorem witness_DescriptorErrorsInOrder :
    profileAdmitted oneBlock.cfg.profile = true ∧ profileAdmitted (underProfile fourPipes oneBlock).cfg.profile = false ∧
    16 < (sets [(.dTileMode, 17)] oneBlock).num .dTileMode ∧
    ((sets [(.dFormat, 0x1A)] oneBlock).num .dTileMode ≤ 16 ∧
      formatBppOf oneBlock.cfg ((sets [(.dFormat, 0x1A)] oneBlock).num .dFormat % 64) = none) ∧
    (let c := { oneBlock.cfg with formatBpp := [(0x33, 96)] };
      formatBppOf c ((oneBlock.withCfg c).num .dFormat % 64) = some 96 ∧ 96 ≠ 64 ∧ 96 ≠ 128) ∧
    formatBppOf oneBlock.cfg (oneBlock.num .dFormat % 64) = some 128 ∧
    formatBppOf oneBlock.cfg ((sets [(.dFormat, 0x31)] oneBlock).num .dFormat % 64) = some 64 ∧
    (sets [(.dWidth, 0)] oneBlock).num .dWidth = 0 ∧ (sets [(.dHeight, 0)] oneBlock).num .dHeight = 0 ∧
    (oneBlock.num .dWidth ≠ 0 ∧ oneBlock.num .dHeight ≠ 0 ∧ (sets [(.dPitch, 0)] oneBlock).num .dPitch = 0) ∧
    (oneBlock.num .dPitch ≠ 0 ∧ (sets [(.dDepth, 2)] oneBlock).num .dDepth ≠ 1 ∧ (sets [(.dSlices, 0)] oneBlock).num .dSlices ≠ 1 ∧
      (sets [(.dSamples, 2)] oneBlock).num .dSamples ≠ 1) ∧
    (oneBlock.num .dDepth = 1 ∧ oneBlock.num .dSlices = 1 ∧ oneBlock.num .dSamples = 1 ∧
      (sets [(.dFormat, 0x32)] oneBlock).num .dFormat % 64 ≠ 0x33) := by decide

/-- Whether a check answers this error. -/
def refuses {α : Type} (r : Except Cause α) (c : Cause) : Bool :=
  match r with
  | .ok _ => false
  | .error d => decide (d = c)

/-- Each form's premises, and each clause's boundary: an offset that is an error, one byte short in SRC, in DST, and in the
data size. -/
theorem witness_OffsetAndBufferErrorsInOrder :
    checkDescriptor oneBlock = .ok () ∧ answers (tiledOffset oneBlock 16 (nthBlockOf oneBlock 0)) 0 = true ∧
    payloadSize oneBlock = 16 ∧ oneBlock.num .dFormat % 64 = 0x33 ∧ oneBlock.num .dDataSize = 16 ∧
    blocksWide oneBlock * blocksHigh oneBlock = 1 ∧ oneBlock.num .dWidth * oneBlock.num .dHeight * 4 = 64 ∧
    (let s := underProfile eightBanks (sets [(.dTileMode, 8)] oneBlock);
      answers (checkDescriptor s) () = true ∧ 0 < blocksWide s * blocksHigh s ∧
      refuses (tiledOffset s 16 (nthBlockOf s 0)) .swapEightBanks = true) ∧
    ((sets [(.srcLen, 15)] oneBlock).num .srcLen < 16 ∧ (sets [(.srcLen, 63)] oneBlock).num .srcLen < 64) ∧
    (16 ≤ oneBlock.num .srcLen ∧ 64 ≤ oneBlock.num .srcLen ∧
      (sets [(.dstCap, 15)] oneBlock).num .dstCap < 16 ∧ (sets [(.dstCap, 63)] oneBlock).num .dstCap < 64) ∧
    (64 ≤ oneBlock.num .dstCap ∧ answers (checkDescriptor (sets [(.dDataSize, 15)] oneBlock)) () = true ∧
      (sets [(.dDataSize, 15)] oneBlock).num .dDataSize < 0 + 16) := by
  refine ⟨rfl, ?_⟩
  decide

theorem witness_TiledOffsetsHaveNoBitPart :
    checkDescriptor tiledT2 = .ok () ∧ address tiledT2.cfg (blockAddrArgs tiledT2 (1, 1)) = .ok ⟨48, 0⟩ := ⟨rfl, rfl⟩

/-- The offsets of descriptor T2 (section 2.11). -/
def offT2 (n : Nat) : Nat := [0, 32, 16, 48].getD n 0

/-- T2 with a data size of 64 bytes and both buffers large enough for each command. -/
def surfaceT2 : State := surfaceState 8 8 2 8 64 256 256 (List.range 256)

theorem ok_of_answers {α : Type} [DecidableEq α] {r : Except Cause α} {a : α} (h : answers r a = true) : r = .ok a := by
  cases r with
  | ok b => exact congrArg Except.ok (of_decide_eq_true h)
  | error c => exact absurd h (by simp [answers])

theorem surfaceT2_offsets : ∀ n < blocksWide surfaceT2 * blocksHigh surfaceT2,
    tiledOffset surfaceT2 16 (nthBlockOf surfaceT2 n) = .ok (offT2 n) ∧ offT2 n + 16 ≤ surfaceT2.num .dDataSize ∧
      16 ∣ offT2 n := by
  have all : ∀ n < blocksWide surfaceT2 * blocksHigh surfaceT2,
      answers (tiledOffset surfaceT2 16 (nthBlockOf surfaceT2 n)) (offT2 n) = true ∧
        offT2 n + 16 ≤ surfaceT2.num .dDataSize ∧ 16 ∣ offT2 n := by decide
  exact fun n hn => ⟨ok_of_answers (all n hn).1, (all n hn).2⟩

theorem surfaceT2_bytes : ∀ a < 256, (surfaceT2.src.read a).isSome := by decide +kernel

/-- The premises of the six statements that say what the surface and linear commands write; the last conjunct of each is the
fault clause's, on a source that lacks its last needed byte. -/
theorem witness_RetileToLinearCopiesEveryBlock :
    checkDescriptor surfaceT2 = .ok () ∧ payloadSize surfaceT2 = 16 ∧
    (∀ n < blocksWide surfaceT2 * blocksHigh surfaceT2,
      tiledOffset surfaceT2 (payloadSize surfaceT2) (nthBlockOf surfaceT2 n) = .ok (offT2 n) ∧
        offT2 n + payloadSize surfaceT2 ≤ surfaceT2.num .dDataSize) ∧
    surfaceT2.num .dDataSize ≤ surfaceT2.num .srcLen ∧
    blocksWide surfaceT2 * blocksHigh surfaceT2 * payloadSize surfaceT2 ≤ surfaceT2.num .dstCap ∧
    (∀ n < blocksWide surfaceT2 * blocksHigh surfaceT2, ∀ j < payloadSize surfaceT2,
      (surfaceT2.src.read (offT2 n + j)).isSome) ∧
    (3 < blocksWide surfaceT2 * blocksHigh surfaceT2 ∧ (surfaceT2.withSrc (surfaceT2.src.take 63)).src.read (offT2 3 + 15) = none) := by
  have hp : payloadSize surfaceT2 = 16 := by decide
  refine ⟨rfl, hp, fun n hn => ?_, by decide, by decide, fun n hn j hj => surfaceT2_bytes _ ?_, by decide, by decide⟩
  · rw [hp]; exact ⟨(surfaceT2_offsets n hn).1, (surfaceT2_offsets n hn).2.1⟩
  · have h1 := (surfaceT2_offsets n hn).2.1
    have h2 : surfaceT2.num .dDataSize = 64 := by decide
    omega

theorem witness_RetileToTiledPlacesEveryBlock :
    checkDescriptor surfaceT2 = .ok () ∧
    blocksWide surfaceT2 * blocksHigh surfaceT2 * payloadSize surfaceT2 ≤ surfaceT2.num .srcLen ∧
    surfaceT2.num .dDataSize ≤ surfaceT2.num .dstCap ∧
    (∀ a < blocksWide surfaceT2 * blocksHigh surfaceT2 * payloadSize surfaceT2, (surfaceT2.src.read a).isSome) ∧
    (63 < blocksWide surfaceT2 * blocksHigh surfaceT2 * payloadSize surfaceT2 ∧
      (surfaceT2.withSrc (surfaceT2.src.take 63)).src.read 63 = none) :=
  ⟨rfl, by decide, by decide, fun a ha => surfaceT2_bytes a (Nat.lt_of_lt_of_le ha (by decide)), by decide, by decide⟩

/-- A word register holding a length. -/
abbrev lengthWord (n : Nat) : Word := BitVec.ofNat 32 n

/-- A two-step run: `i` on a state, then `j` on its output given as SRC, with these lengths. -/
def secondStart (i : Instr) (s : State) (len cap : Nat) : State :=
  let t := after (exec i s)
  ((t.withSrc t.dst).withDst []).withOpr ((t.opr.set .srcLen (lengthWord len)).set .dstCap (lengthWord cap))

def isOk (r : Result) : Bool :=
  ran r fun t => statusCode t.status == 0 && statusInfo t.status == 0 && statusValid t.status

theorem ok_of_isOk {r : Result} (h : isOk r = true) : r = .next (after r) ∧ StatusIsOk (after r) :=
  ⟨eq_next_after h, by simpa [StatusIsOk, and_assoc] using ran_after h⟩

theorem offT2_distinct : ∀ m n, m < n → n < blocksWide surfaceT2 * blocksHigh surfaceT2 → offT2 m ≠ offT2 n := by
  have all : ∀ n < blocksWide surfaceT2 * blocksHigh surfaceT2, ∀ m < n, offT2 m ≠ offT2 n := by decide
  exact fun m n hm hn => all n hn m hm

/-- Program P2's round trip, with a data size of 64 bytes. -/
theorem witness_RetileRoundTripFromLinear :
    (∀ n < blocksWide surfaceT2 * blocksHigh surfaceT2,
      tiledOffset surfaceT2 (payloadSize surfaceT2) (nthBlockOf surfaceT2 n) = .ok (offT2 n) ∧ payloadSize surfaceT2 ∣ offT2 n) ∧
    (∀ m n, m < n → n < blocksWide surfaceT2 * blocksHigh surfaceT2 → offT2 m ≠ offT2 n) ∧
    (exec .retileToTiled surfaceT2 = .next (after (exec .retileToTiled surfaceT2)) ∧
      StatusIsOk (after (exec .retileToTiled surfaceT2))) ∧
    (exec .retileToLinear (secondStart .retileToTiled surfaceT2 64 64)
        = .next (after (exec .retileToLinear (secondStart .retileToTiled surfaceT2 64 64))) ∧
      StatusIsOk (after (exec .retileToLinear (secondStart .retileToTiled surfaceT2 64 64)))) := by
  have hp : payloadSize surfaceT2 = 16 := by decide
  refine ⟨fun n hn => ?_, offT2_distinct, ok_of_isOk (by decide), ok_of_isOk (by decide)⟩
  rw [hp]; exact ⟨(surfaceT2_offsets n hn).1, (surfaceT2_offsets n hn).2.2⟩

theorem witness_RetileRoundTripFromTiled :
    (exec .retileToLinear surfaceT2 = .next (after (exec .retileToLinear surfaceT2)) ∧
      StatusIsOk (after (exec .retileToLinear surfaceT2))) ∧
    (exec .retileToTiled (secondStart .retileToLinear surfaceT2 64 64)
        = .next (after (exec .retileToTiled (secondStart .retileToLinear surfaceT2 64 64))) ∧
      StatusIsOk (after (exec .retileToTiled (secondStart .retileToLinear surfaceT2 64 64)))) :=
  ⟨ok_of_isOk (by decide), ok_of_isOk (by decide)⟩

/-! ### Codec -/

theorem witness_TransparentBlockHasItsEncoding :
    (∀ i < 16, 4 * 0 + i % 4 < 4 → 4 * 0 + i / 4 < 4 → ((List.replicate 16 (⟨9, 8, 7, 0⟩ : Texel)).getD i Texel.zero).a = 0) ∧
    (∀ i < 16, 4 * 1 + i % 4 < 4 → 4 * 0 + i / 4 < 4 → ((List.replicate 16 (⟨9, 8, 7, 6⟩ : Texel)).getD i Texel.zero).a = 0) := by
  decide

/-- The texels of vector V5 in their image, at its last present texel. -/
theorem witness_NearestReconstruction :
    (∀ t ∈ texelsOf (texV5.map (BitVec.ofNat 8)), t.r < 256 ∧ t.g < 256 ∧ t.b < 256 ∧ t.a < 256) ∧
    blockTransparent (presentTexels (texelsOf (texV5.map (BitVec.ofNat 8))) 2 3 0 0) = false ∧
    9 < 16 ∧ texelPresent 2 3 0 0 9 = true ∧
    blockTransparent (presentTexels (texelsOf (texV5.map (BitVec.ofNat 8))) 0 3 0 0) = true := by decide

theorem witness_AlphaPaletteIsEightBytes : 255 < 256 ∧ 0 < 256 := by decide

/-- Section 2.13's rows: direct with unequal ends, direct with equal ends, and at 0, and partial. -/
theorem witness_AlphaEndpointsByMode :
    ((∀ v ∈ [2, 0x80], 2 ≤ v ∧ v ≤ 0x80) ∧ directMode .specDefault [2, 0x80] = true) ∧
    ((∀ v ∈ [255], 255 ≤ v ∧ v ≤ 255) ∧ directMode .specDefault [255] = true) ∧
    ((∀ v ∈ [0], 0 ≤ v ∧ v ≤ 0) ∧ directMode .specDefault [0] = true) ∧
    ((∀ v ∈ [0x31, 0xEA], 0x31 ≤ v ∧ v ≤ 0xEA) ∧ directMode .specDefault [0x31, 0xEA] = false) := by decide

theorem witness_NearestIsTheLowestLeast : [5, 3, 3] ≠ [] := by decide

/-! ### Pipeline -/

theorem witness_DecodeLinearWritesEveryPixel :
    checkLinear surfaceT2 = .ok () ∧ blocksWide surfaceT2 * blocksHigh surfaceT2 * 16 ≤ surfaceT2.num .srcLen ∧
    surfaceT2.num .dWidth * surfaceT2.num .dHeight * 4 ≤ surfaceT2.num .dstCap ∧
    (∀ a < blocksWide surfaceT2 * blocksHigh surfaceT2 * 16, (surfaceT2.src.read a).isSome) ∧
    (63 < blocksWide surfaceT2 * blocksHigh surfaceT2 * 16 ∧
      (surfaceT2.withSrc (surfaceT2.src.take 63)).src.read 63 = none) :=
  ⟨rfl, by decide, by decide, fun a ha => surfaceT2_bytes a (Nat.lt_of_lt_of_le ha (by decide)), by decide, by decide⟩

theorem witness_EncodeLinearWritesEveryBlock :
    checkLinear surfaceT2 = .ok () ∧ surfaceT2.num .dWidth * surfaceT2.num .dHeight * 4 ≤ surfaceT2.num .srcLen ∧
    blocksWide surfaceT2 * blocksHigh surfaceT2 * 16 ≤ surfaceT2.num .dstCap ∧
    (∀ a < surfaceT2.num .dWidth * surfaceT2.num .dHeight * 4, (surfaceT2.src.read a).isSome) ∧
    (255 < surfaceT2.num .dWidth * surfaceT2.num .dHeight * 4 ∧
      (surfaceT2.withSrc (surfaceT2.src.take 255)).src.read 255 = none) :=
  ⟨rfl, by decide, by decide, fun a ha => surfaceT2_bytes a (Nat.lt_of_lt_of_le ha (by decide)), by decide, by decide +kernel⟩

theorem witness_DecodeSurfaceWritesEveryPixel :
    checkDescriptor surfaceT2 = .ok () ∧ surfaceT2.num .dFormat % 64 = 0x33 ∧
    (∀ n < blocksWide surfaceT2 * blocksHigh surfaceT2,
      tiledOffset surfaceT2 16 (nthBlockOf surfaceT2 n) = .ok (offT2 n) ∧ offT2 n + 16 ≤ surfaceT2.num .dDataSize) ∧
    surfaceT2.num .dDataSize ≤ surfaceT2.num .srcLen ∧
    surfaceT2.num .dWidth * surfaceT2.num .dHeight * 4 ≤ surfaceT2.num .dstCap ∧
    (∀ n < blocksWide surfaceT2 * blocksHigh surfaceT2, ∀ j < 16, (surfaceT2.src.read (offT2 n + j)).isSome) ∧
    (3 < blocksWide surfaceT2 * blocksHigh surfaceT2 ∧ (surfaceT2.withSrc (surfaceT2.src.take 63)).src.read (offT2 3 + 15) = none) := by
  refine ⟨rfl, by decide, fun n hn => ⟨(surfaceT2_offsets n hn).1, (surfaceT2_offsets n hn).2.1⟩, by decide, by decide,
    fun n hn j hj => surfaceT2_bytes _ ?_, by decide, by decide⟩
  have h1 := (surfaceT2_offsets n hn).2.1
  have h2 : surfaceT2.num .dDataSize = 64 := by decide
  omega

theorem witness_EncodeSurfaceWritesEveryBlock :
    checkDescriptor surfaceT2 = .ok () ∧ surfaceT2.num .dFormat % 64 = 0x33 ∧
    (∀ n < blocksWide surfaceT2 * blocksHigh surfaceT2,
      tiledOffset surfaceT2 16 (nthBlockOf surfaceT2 n) = .ok (offT2 n) ∧ offT2 n + 16 ≤ surfaceT2.num .dDataSize) ∧
    surfaceT2.num .dWidth * surfaceT2.num .dHeight * 4 ≤ surfaceT2.num .srcLen ∧
    surfaceT2.num .dDataSize ≤ surfaceT2.num .dstCap ∧
    (∀ a < surfaceT2.num .dWidth * surfaceT2.num .dHeight * 4, (surfaceT2.src.read a).isSome) ∧
    (255 < surfaceT2.num .dWidth * surfaceT2.num .dHeight * 4 ∧
      (surfaceT2.withSrc (surfaceT2.src.take 255)).src.read 255 = none) :=
  ⟨rfl, by decide, fun n hn => ⟨(surfaceT2_offsets n hn).1, (surfaceT2_offsets n hn).2.1⟩, by decide,
    by decide, fun a ha => surfaceT2_bytes a (Nat.lt_of_lt_of_le ha (by decide)), by decide,
    witness_EncodeLinearWritesEveryBlock.2.2.2.2.2⟩

/-- The three commands of a composition on the one-block surface. -/
theorem witness_DecodeSurfaceIsRetileThenDecode :
    formatBppOf oneBlock.cfg 0x33 = some 128 ∧ isOk (exec .decodeSurface oneBlock) = true ∧
    (let first := (oneBlock.withDst []).withOpr (oneBlock.opr.set .dstCap (lengthWord 16));
      isOk (exec .retileToLinear first) = true ∧
      isOk (exec .decodeLinear ((oneBlock.withSrc (after (exec .retileToLinear first)).dst).withOpr
        (oneBlock.opr.set .srcLen (lengthWord 16)))) = true) := by decide

theorem witness_EncodeSurfaceIsEncodeThenRetile :
    formatBppOf oneBlock.cfg 0x33 = some 128 ∧ isOk (exec .encodeSurface oneBlock) = true ∧
    (let first := (oneBlock.withDst []).withOpr (oneBlock.opr.set .dstCap (lengthWord 16));
      isOk (exec .encodeLinear first) = true ∧
      isOk (exec .retileToTiled ((oneBlock.withSrc (after (exec .encodeLinear first)).dst).withOpr
        (oneBlock.opr.set .srcLen (lengthWord 16)))) = true) := by decide

theorem witness_LinearCommandsIgnoreTiling :
    (Instr.encodeLinear = .decodeLinear ∨ Instr.encodeLinear = .encodeLinear) ∧
    OperandReg.dDataSize ∈ [OperandReg.dDepth, .dTileMode, .dSwizzle, .dPitch, .dSamples, .dSlices, .dDataSize] := by decide

end Sys2Proof.Tests
end

section
/-! Proofs about every step (00_scope.md): the next state of a command and of a write of `CMD`, and that no step
changes the configuration (R7). -/
namespace Sys2Proof.Machine

/-- A next state of a command: an error that writes `STATUS` alone, or a completion that writes `DST`, result
registers and `STATUS` (60_exceptions.md R240, R245). -/
theorem exec_next {i : Instr} {s t : State} (h : exec i s = .next t) :
    (∃ c, t = s.raise c) ∨ (∃ d r, t = ((s.withDst d).withRes r).complete ∧ (s.dst.wf → d.wf)) := by
  rcases exec_cases i s with ⟨c, hc⟩ | ⟨d, r, hd, hwf⟩ | ⟨e, he, -⟩
  · rw [hc] at h; cases h; exact .inl ⟨c, rfl⟩
  · rw [hd] at h; cases h; exact .inr ⟨d, r, rfl, hwf⟩
  · rw [he] at h; cases h

/-- A next state of a write of `CMD`: the same two ends, on the machine that holds the word (10_state.md R29). -/
theorem issue_next {w : Word} {s t : State} (h : issue w s = .next t) :
    (∃ c, t = (s.withCmd w).raise c) ∨
    (∃ d r, t = (((s.withCmd w).withDst d).withRes r).complete ∧ (s.dst.wf → d.wf)) := by
  rcases issue_cases w s with ⟨i, -, hi⟩ | ⟨e, -, he⟩
  · rw [hi] at h; exact exec_next h
  · rw [he] at h; cases h; exact .inl ⟨_, rfl⟩

theorem issue_next_cfg {w : Word} {s t : State} (h : issue w s = .next t) : t.cfg = s.cfg := by
  rcases issue_next h with ⟨c, rfl⟩ | ⟨d, r, rfl, -⟩
  · simp
  · simp

theorem runLine_next_cfg {l : HostLine} {s t : State} (h : runLine l s = .next t) : t.cfg = s.cfg := by
  rcases runLine_next h with ⟨o, rfl⟩ | ⟨a, bytes, rfl⟩ | ⟨a, bytes, rfl⟩ | rfl | ⟨-, rfl⟩ | ⟨w, -, hw⟩
  · exact State.withOpr_cfg s o
  · exact State.withSrc_cfg s _
  · exact State.withDst_cfg s _
  · rfl
  · exact resetInstance_cfg s
  · exact issue_next_cfg hw

/-- Settles O15: an idle step keeps the state, and a line only replaces other fields; the reset line puts the
configuration back (70_reset_and_hazards.md R271). -/
theorem stepKeepsTheConfiguration : Obligations.StepKeepsTheConfiguration := by
  intro s t h
  rcases step_next h with ⟨-, rfl⟩ | ⟨l, rest, -, -, hl⟩
  · rfl
  · exact (runLine_next_cfg hl).trans (State.withProgram_cfg s rest)

end Sys2Proof.Machine
end

section
/-! Proofs about the state and `STATUS` (10_state.md): the `STATUS` invariant of every step, what each command leaves
unchanged, which profiles are admitted, and the reset, `CMD` and `set` lines. -/
namespace Sys2Proof.Machine

/-! ### The fields of `STATUS` (R36, R242) -/

@[simp] theorem statusReservedLow_statusOk : statusReservedLow statusOk = 0 := statusReservedLow_statusWord 0 true 0
@[simp] theorem statusReservedHigh_statusOk : statusReservedHigh statusOk = 0 := statusReservedHigh_statusWord 0 true 0

@[simp] theorem statusReservedLow_statusError (w : Word) (c : Cause) : statusReservedLow (statusError w c) = 0 :=
  statusReservedLow_statusWord _ _ _
@[simp] theorem statusReservedHigh_statusError (w : Word) (c : Cause) : statusReservedHigh (statusError w c) = 0 :=
  statusReservedHigh_statusWord _ _ _

/-- Every cause is a row of R242's list. -/
theorem Cause.ending_mem (c : Cause) : (c.code.toNat, c.info.toNat) ∈ endingsOfR242 := by cases c <;> decide

/-- Legality reads `STATUS` alone. -/
theorem StatusLegal.of_status_eq {s t : State} (hs : StatusLegal s) (h : t.status = s.status) : StatusLegal t := by
  unfold StatusLegal ending at *
  rwa [h]

theorem statusLegal_of_status_zero {s : State} (h : s.status = 0) : StatusLegal s := by
  unfold StatusLegal ending
  rw [h]
  decide

theorem State.statusLegal_raise (s : State) (c : Cause) : StatusLegal (s.raise c) := by
  refine ⟨?_, ?_, ?_⟩
  · simp
  · simp
  · simpa [ending] using c.ending_mem

theorem State.statusLegal_complete (s : State) : StatusLegal s.complete := by
  refine ⟨?_, ?_, ?_⟩
  · simp
  · simp
  · simp [ending, endingsOfR242]

/-- A write of `CMD` ends in an error or completes, so it leaves a legal `STATUS` whatever it found. -/
theorem issue_next_statusLegal {w : Word} {s t : State} (h : issue w s = .next t) : StatusLegal t := by
  rcases issue_next h with ⟨c, rfl⟩ | ⟨d, r, rfl, -⟩
  · exact State.statusLegal_raise _ c
  · exact State.statusLegal_complete _

theorem runLine_keeps_statusLegal {l : HostLine} {s t : State} (h : runLine l s = .next t) (hs : StatusLegal s) :
    StatusLegal t := by
  rcases runLine_next h with ⟨o, rfl⟩ | ⟨a, bytes, rfl⟩ | ⟨a, bytes, rfl⟩ | rfl | ⟨-, rfl⟩ | ⟨w, -, hw⟩
  · exact hs.of_status_eq (State.withOpr_status s o)
  · exact hs.of_status_eq (State.withSrc_status s _)
  · exact hs.of_status_eq (State.withDst_status s _)
  · exact hs
  · exact statusLegal_of_status_zero (resetInstance_status s)
  · exact issue_next_statusLegal hw

/-- Settles O14: only a write of `CMD` and the reset line write `STATUS`, and both write a legal word. -/
theorem stepKeepsStatusLegal : Obligations.StepKeepsStatusLegal := by
  intro s t h hs
  rcases step_next h with ⟨-, rfl⟩ | ⟨l, rest, -, -, hl⟩
  · exact hs
  · exact runLine_keeps_statusLegal hl (hs.of_status_eq (State.withProgram_status s rest))

/-- Settles O17: an error has a CODE other than 0 and keeps VALID; a completion writes CODE 0, INFO 0, VALID 1. -/
theorem successSetsValidAndNoCommandClearsIt : Obligations.SuccessSetsValidAndNoCommandClearsIt := by
  intro i s t h
  rcases exec_next h with ⟨c, rfl⟩ | ⟨d, r, rfl, -⟩
  · refine ⟨fun h0 => ?_, fun hv => ?_⟩
    · exact absurd h0 (by simpa using c.code_ne_zero)
    · simpa using hv
  · simp [StatusIsOk]

/-! ### What a command writes (R35, R37) -/

theorem exec_next_keepsInputs {i : Instr} {s t : State} (h : exec i s = .next t) : KeepsInputs s t := by
  rcases exec_next h with ⟨c, rfl⟩ | ⟨d, r, rfl, -⟩
  · simp [KeepsInputs]
  · simp [KeepsInputs]

/-- The four address commands have one shape (40_address_engine.md R116 to R118, R128). -/
theorem exec_eq_runAddr {i : Instr} (hi : i ∈ [Instr.addr, .addrLinear, .addrMicro, .addrMacro]) (s : State) :
    ∃ cls f, exec i s = runAddr cls f s := by
  simp only [List.mem_cons, List.not_mem_nil, or_false] at hi
  rcases hi with rfl | rfl | rfl | rfl
  · exact ⟨none, address s.cfg, rfl⟩
  · exact ⟨some .linear, fun a => .ok (addrLinear a), rfl⟩
  · exact ⟨some .microTiled, fun a => .ok (addrMicro a), rfl⟩
  · exact ⟨some .macroTiled, addrMacro s.cfg.profile s.cfg.halveWhile, rfl⟩

/-- A next state of an address command: an error, or a completion that writes `RES_BYTE` and `RES_BIT` alone. -/
theorem exec_next_of_addr {i : Instr} (hi : i ∈ [Instr.addr, .addrLinear, .addrMicro, .addrMacro]) {s t : State}
    (h : exec i s = .next t) :
    (∃ c, t = s.raise c) ∨ (∃ byte bit, t = (s.withRes (s.res.setAddr byte bit)).complete) := by
  obtain ⟨cls, f, hr⟩ := exec_eq_runAddr hi s
  rw [hr] at h
  rcases runAddr_cases cls f s with ⟨c, hc⟩ | ⟨r, -, -, hok⟩
  · rw [hc] at h; cases h; exact .inl ⟨c, rfl⟩
  · rw [hok] at h; cases h; exact .inr ⟨_, _, rfl⟩

theorem surfaceAnswer_exec {i : Instr}
    (hi : i ∈ [Instr.retileToLinear, .retileToTiled, .decodeSurface, .encodeSurface, .decodeLinear, .encodeLinear])
    (s : State) : SurfaceAnswer s (exec i s) := by
  simp only [List.mem_cons, List.not_mem_nil, or_false] at hi
  rcases hi with rfl | rfl | rfl | rfl | rfl | rfl
  · exact execRetileToLinear_cases s
  · exact execRetileToTiled_cases s
  · exact execDecodeSurface_cases s
  · exact execEncodeSurface_cases s
  · exact execDecodeLinear_cases s
  · exact execEncodeLinear_cases s

/-- A next state of a command on buffers: an error, or a delivery, which writes `DST` and `RES_LEN` alone. -/
theorem exec_next_of_surface {i : Instr}
    (hi : i ∈ [Instr.retileToLinear, .retileToTiled, .decodeSurface, .encodeSurface, .decodeLinear, .encodeLinear])
    {s t : State} (h : exec i s = .next t) : (∃ c, t = s.raise c) ∨ (∃ d n, t = s.deliver d n) := by
  rcases surfaceAnswer_exec hi s with ⟨c, hc⟩ | ⟨d, n, hd, -⟩ | ⟨e, he, -⟩
  · rw [hc] at h; cases h; exact .inl ⟨c, rfl⟩
  · rw [hd] at h; cases h; exact .inr ⟨d, n, rfl⟩
  · rw [he] at h; cases h

/-- Settles O20: each family's two ends, an error that writes `STATUS` alone and a completion that writes its own results. -/
theorem commandsWriteOnlyTheirResults : Obligations.CommandsWriteOnlyTheirResults := by
  intro i s t h
  refine ⟨exec_next_keepsInputs h, fun hi => ?_, ?_, ?_, fun hi => ?_⟩
  · rcases exec_next_of_addr hi h with ⟨c, rfl⟩ | ⟨byte, bit, rfl⟩
    · simp [KeepsDst]
    · simp [KeepsDst]
  · rintro rfl
    cases h
    simp [KeepsDst]
  · rintro rfl
    cases h
    simp [KeepsDst]
  · rcases exec_next_of_surface hi h with ⟨c, rfl⟩ | ⟨d, n, rfl⟩
    · simp
    · simp

/-! ### Admitted profiles (R26) -/

theorem isPowerOfTwo_iff (n : Nat) : isPowerOfTwo n = true ↔ ∃ k, n = 2 ^ k := by
  rw [isPowerOfTwo, decide_eq_true_eq]
  constructor
  · exact fun h => ⟨exactLog2 n, h.symm⟩
  · rintro ⟨k, rfl⟩
    rw [exactLog2, Nat.log2_two_pow]

theorem profileAdmitted_iff (p : Profile) :
    profileAdmitted p = true ↔ p.pipes = 2 ∧ (p.banks = 4 ∨ p.banks = 8) ∧ (∃ k, p.groupBytes = 2 ^ k) ∧
      1 ≤ p.rowSize ∧ 1 ≤ p.splitSize ∧ 2 ≤ p.swapSize := by
  simp only [profileAdmitted, Bool.and_eq_true, Bool.or_eq_true, decide_eq_true_eq, isPowerOfTwo_iff, and_assoc]

/-- The profile is the first test of `CheckAddr` (40_address_engine.md R100). -/
theorem checkAddr_of_unadmitted {s : State} (h : profileAdmitted s.cfg.profile = false) (cls : Option TileClass) :
    checkAddr cls s = .error .profileNotAdmitted := if_pos h

/-- The profile is the first test of `CheckDescriptor` (41_tiling_orchestrator.md R152). -/
theorem checkDescriptor_of_unadmitted {s : State} (h : profileAdmitted s.cfg.profile = false) :
    checkDescriptor s = .error .profileNotAdmitted := if_pos h

theorem runAddr_of_unadmitted {s : State} (h : profileAdmitted s.cfg.profile = false) (cls : Option TileClass)
    (f : AddrArgs → Except Cause BitAddress) : runAddr cls f s = .next (s.raise .profileNotAdmitted) := by
  rw [runAddr, checkAddr_of_unadmitted h, orRaise_error]

theorem exec_addr_of_unadmitted {s : State} (h : profileAdmitted s.cfg.profile = false) {i : Instr}
    (hi : i ∈ [Instr.addr, .addrLinear, .addrMicro, .addrMacro]) : exec i s = .next (s.raise .profileNotAdmitted) := by
  obtain ⟨cls, f, hr⟩ := exec_eq_runAddr hi s
  rw [hr, runAddr_of_unadmitted h]

theorem exec_tiled_of_unadmitted {s : State} (h : profileAdmitted s.cfg.profile = false) {i : Instr}
    (hi : i ∈ [Instr.retileToLinear, .retileToTiled, .decodeSurface, .encodeSurface]) :
    exec i s = .next (s.raise .profileNotAdmitted) := by
  have hdesc (k : Unit → Result) : orRaise s (checkDescriptor s) k = .next (s.raise .profileNotAdmitted) := by
    rw [checkDescriptor_of_unadmitted h, orRaise_error]
  simp only [List.mem_cons, List.not_mem_nil, or_false] at hi
  rcases hi with rfl | rfl | rfl | rfl
  · exact hdesc _
  · exact hdesc _
  · exact hdesc _
  · exact hdesc _

/-- Settles O24: the profile is the first test of each of the eight commands, and its cause is (1, 1). -/
theorem unadmittedProfileRaises : Obligations.UnadmittedProfileRaises := by
  refine ⟨profileAdmitted_iff, fun s i h hi => ?_⟩
  have hi : i ∈ [Instr.addr, .addrLinear, .addrMicro, .addrMacro] ++
      [Instr.retileToLinear, .retileToTiled, .decodeSurface, .encodeSurface] := hi
  rcases List.mem_append.mp hi with hi | hi
  · exact exec_addr_of_unadmitted h hi
  · exact exec_tiled_of_unadmitted h hi

/-! ### Reset (R38, 70_reset_and_hazards.md R270) -/

theorem OperandFile.get_reset (r : OperandReg) : OperandFile.reset.get r = .unwritten 0 := by cases r <;> rfl

/-- Settles O1: each field of the reset state, the 32-bit operand registers by name. -/
theorem resetLeavesEverythingUnwritten : Obligations.ResetLeavesEverythingUnwritten := by
  refine ⟨rfl, fun r => ?_, rfl, rfl, rfl, rfl, rfl, rfl, rfl, fun _ => ⟨rfl, rfl⟩⟩
  exact congrArg Reg.written (OperandFile.get_reset r)

/-- Settles O2: empty buffers are in canonical form, and `STATUS` 0 is OK with INFO 0. -/
theorem resetMeetsTheInvariants : Obligations.ResetMeetsTheInvariants :=
  ⟨⟨List.Pairwise.nil, List.Pairwise.nil⟩, statusLegal_of_status_zero rfl⟩

/-! ### The `CMD` and `set` lines (R29 to R33) -/

theorem issue_of_decode_ok {w : Word} {i : Instr} (h : decode w = .ok i) (s : State) :
    issue w s = exec i (s.withCmd w) := by rw [issue, h]

/-- Settles O6: a step takes the next line, and a line that writes `CMD` issues its word. -/
theorem stepRunsTheDecodedCommand : Obligations.StepRunsTheDecodedCommand := by
  intro s w rest i hp hd
  calc step s = issue w (s.withProgram rest) := step_of_cons hp rfl
    _ = exec i ((s.withProgram rest).withCmd w) := issue_of_decode_ok hd _

theorem leNat_bytesOf_leBytes {n v : Nat} (h : v < 256 ^ n) : leNat (bytesOf n (leBytes n v)).toList = v := by
  rw [toList_bytesOf n _ (length_leBytes n v), leNat_leBytes n v h]

/-- A value that fits a 32-bit register reads back as written (R30 to R33). -/
theorem State.num_withOpr_set_same (s : State) (o : OperandFile) (r : OperandReg) {v : Nat} (h : v < 2 ^ 32) :
    (s.withOpr (o.set r (BitVec.ofNat 32 v))).num r = v := by
  rw [State.num, State.withOpr_opr, OperandFile.get_set_same, Reg.wrote_val, BitVec.toNat_ofNat, Nat.mod_eq_of_lt h]

/-- Settles O9: the line replaces the operand file by one that differs in the named register. -/
theorem setWritesOneOperandRegister : Obligations.SetWritesOneOperandRegister := by
  intro s v rest
  refine ⟨fun r hp hv => ?_, fun hp hv => ?_, fun hp hv => ?_⟩
  · refine ⟨_, step_of_cons hp (decide_eq_true hv), State.num_withOpr_set_same _ _ r hv, ?_,
      fun q hq => OperandFile.get_set_other _ _ hq, ?_⟩
    · simp
    · simp
  · refine ⟨_, step_of_cons hp (decide_eq_true hv), leNat_bytesOf_leBytes hv, rfl, ?_⟩
    simp [OnlyBlkChanges]
  · refine ⟨_, step_of_cons hp (decide_eq_true hv), leNat_bytesOf_leBytes hv, rfl, ?_⟩
    simp [OnlyTexChanges]

end Sys2Proof.Machine
end

section
/-! Proofs about the buffers (20_memory.md): the canonical form at every step (R50), and that a command on buffers
reads `SRC` only below `SRC_LEN` and writes `DST` only below `RES_LEN` (R52). -/
namespace Sys2Proof.Machine

/-! ### The canonical form (R50) -/

theorem issue_next_buffersCanonical {w : Word} {s t : State} (h : issue w s = .next t) (hs : BuffersCanonical s) :
    BuffersCanonical t := by
  obtain ⟨hsrc, hdst⟩ := hs
  rcases issue_next h with ⟨c, rfl⟩ | ⟨d, r, rfl, hd⟩
  · exact ⟨hsrc, hdst⟩
  · exact ⟨hsrc, hd hdst⟩

theorem runLine_keeps_buffersCanonical {l : HostLine} {s t : State} (h : runLine l s = .next t)
    (hs : BuffersCanonical s) : BuffersCanonical t := by
  have ⟨hsrc, hdst⟩ := hs
  rcases runLine_next h with ⟨o, rfl⟩ | ⟨a, bytes, rfl⟩ | ⟨a, bytes, rfl⟩ | rfl | ⟨-, rfl⟩ | ⟨w, -, hw⟩
  · exact ⟨hsrc, hdst⟩
  · exact ⟨Memory.wf_writeBytes hsrc a bytes, hdst⟩
  · exact ⟨hsrc, Memory.wf_writeBytes hdst a bytes⟩
  · exact hs
  · exact ⟨Memory.wf_nil, Memory.wf_nil⟩
  · exact issue_next_buffersCanonical hw hs

/-- Settles O13: a buffer changes only by writes, which keep the canonical form, and by the reset line, which empties
it. -/
theorem stepKeepsBuffersCanonical : Obligations.StepKeepsBuffersCanonical := by
  intro s t h hs
  rcases step_next h with ⟨-, rfl⟩ | ⟨l, rest, -, -, hl⟩
  · exact hs
  · exact runLine_keeps_buffersCanonical hl hs

/-! ### The bounds the checks give (R150, R156, R220) -/

theorem checkBuffers_eq_ok_iff {s : State} {srcNeed dstNeed : Nat} {u : Unit} :
    checkBuffers s srcNeed dstNeed = .ok u ↔ srcNeed ≤ s.num .srcLen ∧ dstNeed ≤ s.num .dstCap := by
  unfold checkBuffers
  split
  · next h => simp; omega
  · split
    · next h => simp; omega
    · simp; omega

theorem checkTiled_eq_ok_iff {s : State} {payload srcNeed dstNeed : Nat} {placed : List PlacedBlock} {u : Unit} :
    checkTiled s payload srcNeed dstNeed placed = .ok u ↔
      srcNeed ≤ s.num .srcLen ∧ dstNeed ≤ s.num .dstCap ∧
        ∀ p ∈ placed, p.offset + payload ≤ s.num .dDataSize := by
  rw [← and_assoc, ← checkBuffers_eq_ok_iff (u := u), checkTiled]
  cases checkBuffers s srcNeed dstNeed with
  | error c => simp
  | ok v => simp

/-- Element `(x, y)` of a row-major `w` by `h` array ends inside the array. -/
theorem rowMajor_end_le {x y w h : Nat} (hx : x < w) (hy : y < h) (n : Nat) : (y * w + x) * n + n ≤ w * h * n := by
  have hlt : y * w + x + 1 ≤ w * h :=
    calc y * w + x + 1 ≤ y * w + w := by omega
      _ = w * (y + 1) := by ring
      _ ≤ w * h := Nat.mul_le_mul_left w hy
  calc (y * w + x) * n + n = (y * w + x + 1) * n := by ring
    _ ≤ w * h * n := Nat.mul_le_mul_right n hlt

theorem mem_blockGrid {s : State} {b : Nat × Nat} : b ∈ blockGrid s ↔ b.1 < blocksWide s ∧ b.2 < blocksHigh s := by
  obtain ⟨x, y⟩ := b
  simp [blockGrid, and_comm]

/-- A block of the grid lies inside the linear block array (R150). -/
theorem linearOffset_end_le {s : State} {b : Nat × Nat} (hb : b ∈ blockGrid s) (payload : Nat) :
    linearOffset s payload b + payload ≤ blocksWide s * blocksHigh s * payload := by
  obtain ⟨hx, hy⟩ := mem_blockGrid.mp hb
  exact rowMajor_end_le hx hy payload

/-- A present texel's pixel lies inside the image (R220). -/
theorem pixelOffset_end_le {w h i : Nat} {b : Nat × Nat} (hi : texelPresent w h b.1 b.2 i = true) :
    pixelOffset w b i + 4 ≤ w * h * 4 := by
  simp only [texelPresent, Bool.and_eq_true, decide_eq_true_eq] at hi
  exact rowMajor_end_le hi.1 hi.2 4

theorem block_mem_of_placeBlocks {s : State} {payload : Nat} {placed : List PlacedBlock}
    (h : placeBlocks s payload = .ok placed) {p : PlacedBlock} (hp : p ∈ placed) : p.block ∈ blockGrid s := by
  obtain ⟨off, -, rfl⟩ := placeBlocks_ok s payload placed h
  obtain ⟨n, hn, rfl⟩ := List.mem_map.mp hp
  rw [blockGrid_eq]
  exact List.mem_map_of_mem hn

/-- Each block of a linear array lies inside it (R220). -/
theorem linearBlocks_end_le {s : State} {p : PlacedBlock} (hp : p ∈ linearBlocks s) :
    p.offset + 16 ≤ blocksWide s * blocksHigh s * 16 := by
  obtain ⟨b, hb, rfl⟩ := List.mem_map.mp hp
  exact linearOffset_end_le hb 16

/-! ### Writes below a bound -/

/-- The second buffer reads as the first at every offset from `n` on. -/
def AgreeFrom (n : Nat) (m d : Memory) : Prop := ∀ a, n ≤ a → d.read a = m.read a

theorem AgreeFrom.refl (n : Nat) (m : Memory) : AgreeFrom n m m := fun _ _ => rfl

theorem AgreeFrom.writeBytes {n : Nat} {m d : Memory} (h : AgreeFrom n m d) {a : Nat} {bytes : List Byte}
    (ha : a + bytes.length ≤ n) : AgreeFrom n m (d.writeBytes a bytes) := fun k hk =>
  (d.read_writeBytes_outside a bytes k (.inr (by omega))).trans (h k hk)

theorem agreeFrom_zeroFill (m : Memory) (n : Nat) : AgreeFrom n m (zeroFill m n) :=
  (AgreeFrom.refl n m).writeBytes (by simp)

theorem AgreeFrom.writePixels {w h : Nat} {m d : Memory} (hd : AgreeFrom (w * h * 4) m d) (b : Nat × Nat)
    (blk : List Byte) : AgreeFrom (w * h * 4) m (writePixels w h b blk d) := by
  intro a ha
  rw [writePixels_eq, read_writesOf_uncovered, hd a ha]
  intro i hi
  have := pixelOffset_end_le (List.mem_filter.mp hi).2
  rw [Texel.length_bytes]
  omega

/-- A property every step on an element of the list keeps holds at the end. -/
theorem foldExcept_invariant_mem {ε α β : Type} (P : β → Prop) {f : β → α → Except ε β} {l : List α}
    (hstep : ∀ a ∈ l, ∀ b b', P b → f b a = .ok b' → P b') {b c : β} (hb : P b) (h : foldExcept f b l = .ok c) :
    P c := by
  induction l generalizing b with
  | nil => cases h; exact hb
  | cons a as ih =>
    cases hf : f b a with
    | error e => simp [foldExcept, hf] at h
    | ok b' =>
      rw [foldExcept_cons_ok hf] at h
      exact ih (fun x hx => hstep x (by simp [hx])) (hstep a (by simp) b b' hb hf) h

theorem movePayloads_agreeFrom {src m dst d : Memory} {n bound : Nat} {moves : List (Nat × Nat)}
    (hm : ∀ mv ∈ moves, mv.2 + n ≤ bound) (hdst : AgreeFrom bound m dst)
    (h : movePayloads src n dst moves = .ok d) : AgreeFrom bound m d := by
  refine foldExcept_invariant_mem _ (fun mv hmv b b' hb hf => ?_) hdst h
  unfold movePayload at hf
  split at hf
  · cases hf
  · next bs hbs =>
    cases hf
    have hlen := ((readSrc_eq_ok _ _ _ _).mp hbs).1
    exact hb.writeBytes (hlen ▸ hm mv hmv)

theorem decodeAll_agreeFrom {s : State} {blocks : List PlacedBlock} {d : Memory} (h : decodeAll s blocks = .ok d) :
    AgreeFrom (imageBytes s) s.dst d := by
  refine foldExcept_invariant_mem _ (fun p _ b b' hb hf => ?_) (AgreeFrom.refl _ _) h
  unfold decodeInto at hf
  split at hf
  · cases hf
  · cases hf; exact AgreeFrom.writePixels hb _ _

theorem encodeAll_agreeFrom {s : State} {m dst d : Memory} {blocks : List PlacedBlock} {bound : Nat}
    (hp : ∀ p ∈ blocks, p.offset + 16 ≤ bound) (hdst : AgreeFrom bound m dst) (h : encodeAll s dst blocks = .ok d) :
    AgreeFrom bound m d := by
  refine foldExcept_invariant_mem _ (fun p hpm b b' hb hf => ?_) hdst h
  unfold encodeInto at hf
  split at hf
  · cases hf
  · cases hf; exact hb.writeBytes (by simpa using hp p hpm)

/-! ### What a command on buffers writes (R52, R154, R155, R225) -/

/-- Where a command answers OK, `RES_LEN` is at most `DST_CAP` and `DST` is as before from `RES_LEN` on (R52). -/
def WritesWithin (s : State) (r : Result) : Prop :=
  ∀ t, r = .next t → statusCode t.status = 0 →
    t.res.len.val.toNat ≤ s.num .dstCap ∧ AgreeFrom t.res.len.val.toNat s.dst t.dst

theorem writesWithin_orRaise {α : Type} {s : State} {r : Except Cause α} {k : α → Result}
    (h : ∀ a, r = .ok a → WritesWithin s (k a)) : WritesWithin s (orRaise s r k) := by
  cases r with
  | error c =>
    rintro t ⟨⟩ h0
    exact absurd h0 (by simpa using c.code_ne_zero)
  | ok a => exact h a rfl

/-- A delivery's length reads back from `RES_LEN`, since the 32-bit `DST_CAP` bounds it. -/
theorem writesWithin_orFault_deliver {s : State} {r : Except Fault Memory} {n : Nat} (hcap : n ≤ s.num .dstCap)
    (h : ∀ d, r = .ok d → AgreeFrom n s.dst d) : WritesWithin s (orFault r fun d => .next (s.deliver d n)) := by
  cases r with
  | error f => rintro t ⟨⟩
  | ok d =>
    rintro t ⟨⟩ -
    have hlt : n < 2 ^ 32 := Nat.lt_of_le_of_lt hcap (s.opr.get .dstCap).val.isLt
    have hlen : (s.deliver d n).res.len.val.toNat = n := by simpa using hlt
    rw [hlen]
    exact ⟨hcap, h d rfl⟩

theorem writesWithin_retileToLinear (s : State) : WritesWithin s (execRetileToLinear s) := by
  refine writesWithin_orRaise fun _ _ => writesWithin_orRaise fun placed hplaced =>
    writesWithin_orRaise fun _ hcheck => ?_
  obtain ⟨-, hcap, -⟩ := checkTiled_eq_ok_iff.mp hcheck
  refine writesWithin_orFault_deliver hcap fun d hd => movePayloads_agreeFrom (fun mv hmv => ?_) (AgreeFrom.refl _ _) hd
  obtain ⟨p, hp, rfl⟩ := List.mem_map.mp hmv
  exact linearOffset_end_le (block_mem_of_placeBlocks hplaced hp) _

theorem writesWithin_retileToTiled (s : State) : WritesWithin s (execRetileToTiled s) := by
  refine writesWithin_orRaise fun _ _ => writesWithin_orRaise fun placed _ =>
    writesWithin_orRaise fun _ hcheck => ?_
  obtain ⟨-, hcap, hrange⟩ := checkTiled_eq_ok_iff.mp hcheck
  refine writesWithin_orFault_deliver hcap fun d hd =>
    movePayloads_agreeFrom (fun mv hmv => ?_) (agreeFrom_zeroFill _ _) hd
  obtain ⟨p, hp, rfl⟩ := List.mem_map.mp hmv
  exact hrange p hp

theorem writesWithin_decodeSurface (s : State) : WritesWithin s (execDecodeSurface s) := by
  refine writesWithin_orRaise fun _ _ => writesWithin_orRaise fun _ _ => writesWithin_orRaise fun _ _ =>
    writesWithin_orRaise fun _ hcheck => ?_
  obtain ⟨-, hcap, -⟩ := checkTiled_eq_ok_iff.mp hcheck
  exact writesWithin_orFault_deliver hcap fun d hd => decodeAll_agreeFrom hd

theorem writesWithin_encodeSurface (s : State) : WritesWithin s (execEncodeSurface s) := by
  refine writesWithin_orRaise fun _ _ => writesWithin_orRaise fun _ _ => writesWithin_orRaise fun _ _ =>
    writesWithin_orRaise fun _ hcheck => ?_
  obtain ⟨-, hcap, hrange⟩ := checkTiled_eq_ok_iff.mp hcheck
  exact writesWithin_orFault_deliver hcap fun d hd => encodeAll_agreeFrom hrange (agreeFrom_zeroFill _ _) hd

theorem writesWithin_decodeLinear (s : State) : WritesWithin s (execDecodeLinear s) := by
  refine writesWithin_orRaise fun _ _ => writesWithin_orRaise fun _ hcheck => ?_
  obtain ⟨-, hcap⟩ := checkBuffers_eq_ok_iff.mp hcheck
  exact writesWithin_orFault_deliver hcap fun d hd => decodeAll_agreeFrom hd

theorem writesWithin_encodeLinear (s : State) : WritesWithin s (execEncodeLinear s) := by
  refine writesWithin_orRaise fun _ _ => writesWithin_orRaise fun _ hcheck => ?_
  obtain ⟨-, hcap⟩ := checkBuffers_eq_ok_iff.mp hcheck
  exact writesWithin_orFault_deliver hcap fun d hd =>
    encodeAll_agreeFrom (fun _ => linearBlocks_end_le) (AgreeFrom.refl _ _) hd

/-- Settles O21: each command's checks bound its length by `DST_CAP`, and every write it makes by its length. -/
theorem writesStayBelowResLenAndCapacity : Obligations.WritesStayBelowResLenAndCapacity := by
  intro i s t hi h h0
  simp only [List.mem_cons, List.not_mem_nil, or_false] at hi
  rcases hi with rfl | rfl | rfl | rfl | rfl | rfl
  · exact writesWithin_retileToLinear s t h h0
  · exact writesWithin_retileToTiled s t h h0
  · exact writesWithin_decodeSurface s t h h0
  · exact writesWithin_encodeSurface s t h h0
  · exact writesWithin_decodeLinear s t h h0
  · exact writesWithin_encodeLinear s t h h0

/-! ### Reads below a bound -/

/-- The second buffer reads as the first at every offset below `n`. -/
def AgreeBelow (n : Nat) (src m : Memory) : Prop := ∀ a < n, m.read a = src.read a

theorem Memory.readBytes_congr {m m' : Memory} {a n : Nat} (h : ∀ j < n, m'.read (a + j) = m.read (a + j)) :
    m'.readBytes a n = m.readBytes a n := by
  induction n generalizing a with
  | zero => rfl
  | succ n ih =>
    have hhead : m'.read a = m.read a := h 0 (by omega)
    have htail : m'.readBytes (a + 1) n = m.readBytes (a + 1) n :=
      ih fun j hj => by simpa only [Nat.add_right_comm a 1 j, Nat.add_assoc] using h (j + 1) (by omega)
    simp only [Memory.readBytes, hhead, htail]

theorem foldExcept_congr {ε α β : Type} {f g : β → α → Except ε β} {l : List α} (h : ∀ a ∈ l, ∀ b, f b a = g b a)
    (b : β) : foldExcept f b l = foldExcept g b l := by
  induction l generalizing b with
  | nil => rfl
  | cons a as ih => simp only [foldExcept, h a (by simp), ih fun x hx => h x (by simp [hx])]

section Reads
variable {bound : Nat} {src m : Memory} (hm : AgreeBelow bound src m)
include hm

theorem AgreeBelow.readSrc_eq {a n : Nat} (h : a + n ≤ bound) : readSrc m a n = readSrc src a n := by
  have hbytes : m.readBytes a n = src.readBytes a n := Memory.readBytes_congr fun j hj => hm (a + j) (by omega)
  simp only [readSrc, hbytes]

theorem AgreeBelow.movePayloads_eq {n : Nat} {moves : List (Nat × Nat)} (h : ∀ mv ∈ moves, mv.1 + n ≤ bound)
    (dst : Memory) : movePayloads m n dst moves = movePayloads src n dst moves :=
  foldExcept_congr (fun mv hmv d => by simp only [movePayload, hm.readSrc_eq (h mv hmv)]) dst

theorem AgreeBelow.decodeFold_eq {blocks : List PlacedBlock} (h : ∀ p ∈ blocks, p.offset + 16 ≤ bound) (w ht : Nat)
    (dst : Memory) : foldExcept (decodeInto m w ht) dst blocks = foldExcept (decodeInto src w ht) dst blocks :=
  foldExcept_congr (fun p hp d => by simp only [decodeInto, hm.readSrc_eq (h p hp)]) dst

theorem AgreeBelow.gatherTexels_eq {w ht : Nat} (h : w * ht * 4 ≤ bound) (b : Nat × Nat) :
    gatherTexels m w ht b = gatherTexels src w ht b := by
  refine traverseExcept_congr fun i _ => ?_
  unfold gatherTexel
  split
  · next hi => rw [hm.readSrc_eq (Nat.le_trans (pixelOffset_end_le hi) h)]
  · rfl

theorem AgreeBelow.encodeFold_eq {w ht : Nat} (h : w * ht * 4 ≤ bound) (band : AlphaBand) (dst : Memory)
    (blocks : List PlacedBlock) :
    foldExcept (encodeInto band m w ht) dst blocks = foldExcept (encodeInto band src w ht) dst blocks :=
  foldExcept_congr (fun p _ d => by simp only [encodeInto, hm.gatherTexels_eq h]) dst

end Reads

/-! ### What a command reads of `SRC` (R52, R156) -/

/-- An answer with `SRC` of its next state replaced. -/
def replaceSrc (m : Memory) : Result → Result
  | .next t => .next (t.withSrc m)
  | .fault f => .fault f
  | .refused r => .refused r

theorem orRaise_withSrc {α : Type} {s : State} {m : Memory} {r : Except Cause α} {k k' : α → Result}
    (h : ∀ a, r = .ok a → k' a = replaceSrc m (k a)) :
    orRaise (s.withSrc m) r k' = replaceSrc m (orRaise s r k) := by
  cases r with
  | error c => rfl
  | ok a => exact h a rfl

theorem orFault_deliver_withSrc {s : State} {m : Memory} {r r' : Except Fault Memory} {n : Nat} (h : r' = r) :
    orFault r' (fun d => .next ((s.withSrc m).deliver d n))
      = replaceSrc m (orFault r fun d => .next (s.deliver d n)) := by
  subst h
  cases r' with
  | error f => rfl
  | ok d => rfl

theorem writeAddr_withSrc (s : State) (m : Memory) (r : BitAddress) :
    writeAddr (s.withSrc m) r = replaceSrc m (writeAddr s r) := by
  unfold writeAddr
  rw [apply_ite (replaceSrc m)]
  rfl

theorem runAddr_withSrc (cls : Option TileClass) (f : AddrArgs → Except Cause BitAddress) (s : State) (m : Memory) :
    runAddr cls f (s.withSrc m) = replaceSrc m (runAddr cls f s) :=
  orRaise_withSrc fun _ _ => orRaise_withSrc fun r _ => writeAddr_withSrc s m r

section Commands
variable {s : State} {m : Memory} (hm : AgreeBelow (s.num .srcLen) s.src m)
include hm

theorem execRetileToLinear_withSrc :
    execRetileToLinear (s.withSrc m) = replaceSrc m (execRetileToLinear s) := by
  refine orRaise_withSrc fun _ _ => orRaise_withSrc fun placed _ => orRaise_withSrc fun _ hcheck =>
    orFault_deliver_withSrc (hm.movePayloads_eq (fun mv hmv => ?_) _)
  obtain ⟨hlen, -, hrange⟩ := checkTiled_eq_ok_iff.mp hcheck
  obtain ⟨p, hp, rfl⟩ := List.mem_map.mp hmv
  exact Nat.le_trans (hrange p hp) hlen

theorem execRetileToTiled_withSrc :
    execRetileToTiled (s.withSrc m) = replaceSrc m (execRetileToTiled s) := by
  refine orRaise_withSrc fun _ _ => orRaise_withSrc fun placed hplaced => orRaise_withSrc fun _ hcheck =>
    orFault_deliver_withSrc (hm.movePayloads_eq (fun mv hmv => ?_) _)
  obtain ⟨hlen, -, -⟩ := checkTiled_eq_ok_iff.mp hcheck
  obtain ⟨p, hp, rfl⟩ := List.mem_map.mp hmv
  exact Nat.le_trans (linearOffset_end_le (block_mem_of_placeBlocks hplaced hp) _) hlen

theorem execDecodeSurface_withSrc :
    execDecodeSurface (s.withSrc m) = replaceSrc m (execDecodeSurface s) := by
  refine orRaise_withSrc fun _ _ => orRaise_withSrc fun _ _ => orRaise_withSrc fun placed _ =>
    orRaise_withSrc fun _ hcheck => ?_
  obtain ⟨hlen, -, hrange⟩ := checkTiled_eq_ok_iff.mp hcheck
  exact orFault_deliver_withSrc (hm.decodeFold_eq (fun p hp => Nat.le_trans (hrange p hp) hlen) _ _ _)

theorem execEncodeSurface_withSrc :
    execEncodeSurface (s.withSrc m) = replaceSrc m (execEncodeSurface s) := by
  refine orRaise_withSrc fun _ _ => orRaise_withSrc fun _ _ => orRaise_withSrc fun placed _ =>
    orRaise_withSrc fun _ hcheck => ?_
  obtain ⟨hlen, -, -⟩ := checkTiled_eq_ok_iff.mp hcheck
  exact orFault_deliver_withSrc (hm.encodeFold_eq hlen _ _ _)

theorem execDecodeLinear_withSrc :
    execDecodeLinear (s.withSrc m) = replaceSrc m (execDecodeLinear s) := by
  refine orRaise_withSrc fun _ _ => orRaise_withSrc fun _ hcheck => ?_
  obtain ⟨hlen, -⟩ := checkBuffers_eq_ok_iff.mp hcheck
  exact orFault_deliver_withSrc (hm.decodeFold_eq (fun p hp => Nat.le_trans (linearBlocks_end_le hp) hlen) _ _ _)

theorem execEncodeLinear_withSrc :
    execEncodeLinear (s.withSrc m) = replaceSrc m (execEncodeLinear s) := by
  refine orRaise_withSrc fun _ _ => orRaise_withSrc fun _ hcheck => ?_
  obtain ⟨hlen, -⟩ := checkBuffers_eq_ok_iff.mp hcheck
  exact orFault_deliver_withSrc (hm.encodeFold_eq hlen _ _ _)

/-- Replacing `SRC` by a buffer that agrees with it below `SRC_LEN` commutes with every command. -/
theorem exec_withSrc (i : Instr) : exec i (s.withSrc m) = replaceSrc m (exec i s) := by
  cases i with
  | addr => exact runAddr_withSrc none (address s.cfg) s m
  | addrLinear => exact runAddr_withSrc (some .linear) (fun a => .ok (addrLinear a)) s m
  | addrMicro => exact runAddr_withSrc (some .microTiled) (fun a => .ok (addrMicro a)) s m
  | addrMacro => exact runAddr_withSrc (some .macroTiled) (addrMacro s.cfg.profile s.cfg.halveWhile) s m
  | retileToLinear => exact execRetileToLinear_withSrc hm
  | retileToTiled => exact execRetileToTiled_withSrc hm
  | decodeBlock => rfl
  | encodeBlock => rfl
  | decodeSurface => exact execDecodeSurface_withSrc hm
  | encodeSurface => exact execEncodeSurface_withSrc hm
  | decodeLinear => exact execDecodeLinear_withSrc hm
  | encodeLinear => exact execEncodeLinear_withSrc hm

end Commands

/-- Settles O22: no check reads `SRC`, and every read of a command lies below a bound its checks held to `SRC_LEN`. -/
theorem readsStayBelowSrcLen : Obligations.ReadsStayBelowSrcLen := by
  intro i s m hm
  rw [exec_withSrc hm i]
  rcases exec_cases i s with ⟨c, h⟩ | ⟨d, r, h, -⟩ | ⟨e, h, -⟩
  · simp [h, replaceSrc]
  · simp [h, replaceSrc]
  · simp [h, replaceSrc]

end Sys2Proof.Machine
end

section
/-! Proofs about the encoding (30_encoding.md): the command word and what a write of it does, the host's lines that load
and copy, and the bits of the swizzle value. -/
namespace Sys2Proof.Machine

/-! ### The command word (R70 to R72) -/

theorem cmdOp_eq (w : Word) : cmdOp w = w.toNat % 256 := by
  simp [cmdOp]

theorem cmdReserved_eq (w : Word) : cmdReserved w = w.toNat / 256 := by
  have := w.isLt
  simp only [cmdReserved, BitVec.extractLsb'_toNat, Nat.shiftRight_eq_div_pow]
  omega

theorem toNat_encode (i : Instr) : (encode i).toNat = (opcode i).toNat := by cases i <;> rfl

/-- The operation codes are 0x01 to 0x0C (R71). -/
theorem opcode_range (i : Instr) : 1 ≤ (opcode i).toNat ∧ (opcode i).toNat ≤ 12 := by cases i <;> decide

theorem instrOfOp_eq_some_iff {n : Nat} {i : Instr} : instrOfOp n = some i ↔ n = (opcode i).toNat := by
  constructor
  · intro h
    unfold instrOfOp at h
    split at h <;> cases h <;> rfl
  · rintro rfl
    cases i <;> rfl

theorem instrOfOp_isSome_of_range {n : Nat} (h1 : 1 ≤ n) (h12 : n ≤ 12) : ∃ i, instrOfOp n = some i := by
  have table : ∀ n < 13, 1 ≤ n → (instrOfOp n).isSome = true := by decide
  exact Option.isSome_iff_exists.mp (table n (by omega) h1)

theorem instrOfOp_eq_none {n : Nat} (h : n = 0 ∨ 13 ≤ n) : instrOfOp n = none := by
  rw [Option.eq_none_iff_forall_ne_some]
  intro i hi
  have := opcode_range i
  have := instrOfOp_eq_some_iff.mp hi
  omega

theorem decode_of_reserved {w : Word} (h : 256 ≤ w.toNat) : decode w = .error .reservedBits := by
  rw [decode, cmdReserved_eq, if_pos (by omega)]

theorem decode_of_opcode {w : Word} (h : w.toNat = 0 ∨ (13 ≤ w.toNat ∧ w.toNat ≤ 255)) :
    decode w = .error .opcode := by
  rw [decode, cmdReserved_eq, cmdOp_eq, if_neg (by omega), instrOfOp_eq_none (by omega)]

/-- A word decodes to a command exactly where it is that command's word. -/
theorem decode_eq_ok_iff {w : Word} {i : Instr} : decode w = .ok i ↔ w = encode i := by
  constructor
  · intro h
    unfold decode at h
    split at h
    · cases h
    · next hres =>
      split at h
      · next j hj =>
        cases h
        apply BitVec.eq_of_toNat_eq
        rw [cmdReserved_eq] at hres
        rw [cmdOp_eq] at hj
        have := instrOfOp_eq_some_iff.mp hj
        rw [toNat_encode]
        omega
      · cases h
  · rintro rfl
    have := opcode_range i
    have hop : instrOfOp ((opcode i).toNat % 256) = some i :=
      instrOfOp_eq_some_iff.mpr (Nat.mod_eq_of_lt (by omega))
    rw [decode, cmdReserved_eq, cmdOp_eq, toNat_encode, if_neg (by omega), hop]

@[simp] theorem decode_encode (i : Instr) : decode (encode i) = .ok i := decode_eq_ok_iff.mpr rfl

theorem exists_encode_of_range {w : Word} (h1 : 1 ≤ w.toNat) (h12 : w.toNat ≤ 12) : ∃ i, encode i = w := by
  obtain ⟨i, hi⟩ := instrOfOp_isSome_of_range h1 h12
  exact ⟨i, BitVec.eq_of_toNat_eq ((toNat_encode i).trans (instrOfOp_eq_some_iff.mp hi).symm)⟩

/-- Settles O3: a command's word is the one that decodes to it. -/
theorem decodeOfEncodeIsTheCommand : Obligations.DecodeOfEncodeIsTheCommand := decode_encode

/-- Settles O4: the twelve words are the commands' words, the reserved rows have no operation code, and a word that
decodes to a command is its word. -/
theorem opcodeMapWordsDecode : Obligations.OpcodeMapWordsDecode := by
  have row {w : Word} {i : Instr} (h : w = encode i) : decode w = .ok i := decode_eq_ok_iff.mpr h
  refine ⟨row rfl, row rfl, row rfl, row rfl, row rfl, row rfl, row rfl, row rfl, row rfl, row rfl, row rfl, row rfl,
    decode_of_opcode (.inl rfl), fun op hlt hge => decode_of_opcode (.inr ?_), fun w i => decode_eq_ok_iff.mp⟩
  rw [BitVec.toNat_ofNat]
  omega

/-! ### A word written to `CMD` (R72, 10_state.md R29) -/

theorem issue_of_decode_error {w : Word} {e : IllegalWord} (h : decode w = .error e) (s : State) :
    issue w s = .next ((s.withCmd w).raise (causeOfIllegal e)) := by rw [issue, h]

/-- The error of a word that names no command: CODE 3, INFO by what the word lacks, VALID kept. -/
theorem raise_causeOfIllegal (s : State) (e : IllegalWord) :
    s.raise (causeOfIllegal e)
      = s.withStatus (statusWord 3 (statusValid s.status) (if e = .reservedBits then 1 else 2)) := by
  cases e <;> rfl

/-- Settles O5: 256 up has a reserved bit, 0 and 13 to 255 have no operation code, and 1 to 12 are the commands' words. -/
theorem decodeIsExact : Obligations.DecodeIsExact := by
  intro w s
  refine ⟨fun h => ?_, fun h => ?_, fun ⟨h1, h12⟩ => ?_⟩
  · have hd := decode_of_reserved h
    exact ⟨hd, issue_of_decode_error hd s⟩
  · have hd := decode_of_opcode h
    exact ⟨hd, issue_of_decode_error hd s⟩
  · obtain ⟨i, rfl⟩ := exists_encode_of_range h1 h12
    exact ⟨i, decode_encode i, (toNat_encode i).symm, rfl, issue_of_decode_ok (decode_encode i) s⟩

/-- Settles O7: the step issues the word, and an illegal word raises its cause on the machine that holds it. -/
theorem illegalWordRaises : Obligations.IllegalWordRaises := by
  intro s w rest e hp hd
  calc step s = issue w (s.withProgram rest) := step_of_cons hp rfl
    _ = .next (((s.withProgram rest).withCmd w).raise (causeOfIllegal e)) := issue_of_decode_error hd _
    _ = _ := congrArg Host.Outcome.next (raise_causeOfIllegal _ e)

/-! ### The lines that load and copy (R85, 20_memory.md R51) -/

/-- A write leaves its bytes from its offset and every other byte as before. -/
theorem Memory.writeBytes_places (m : Memory) (a : Nat) (bytes : List Byte) :
    (∀ j < bytes.length, (m.writeBytes a bytes).read (a + j) = bytes[j]?) ∧
      ∀ k, k < a ∨ a + bytes.length ≤ k → (m.writeBytes a bytes).read k = m.read k :=
  ⟨fun j hj => (m.read_writeBytes_inside a bytes j hj).trans (List.getElem?_eq_getElem hj).symm,
    m.read_writeBytes_outside a bytes⟩

/-- A host's read of bytes of `DST` that all hold a value answers them one by one (R51). -/
theorem readDst_ok_of_isSome {dst : Memory} {a n : Nat} (h : ∀ j < n, (dst.read (a + j)).isSome) :
    ∃ bs, readDst dst a n = .ok bs ∧ bs.length = n ∧ ∀ j < n, dst.read (a + j) = bs[j]? := by
  obtain ⟨bs, hbs⟩ := dst.readBytes_ok_of_isSome a n h
  exact ⟨bs, by rw [readDst, hbs], (dst.readBytes_eq_ok a n bs).mp hbs⟩

/-- Settles O10: each line is one write of bytes, the copy's the bytes that the read of `DST` answered. -/
theorem bufferLinesMoveTheirBytes : Obligations.BufferLinesMoveTheirBytes := by
  intro s rest
  refine ⟨fun a bytes hp hne => ?_, fun a bytes hp hne => ?_, fun n hp hsome => ?_⟩
  · exact ⟨_, step_of_cons hp (by simpa [HostLine.wf] using hne), s.src.writeBytes_places a bytes⟩
  · exact ⟨_, step_of_cons hp (by simpa [HostLine.wf] using hne), s.dst.writeBytes_places a bytes⟩
  · obtain ⟨bs, hread, rfl, hbs⟩ := readDst_ok_of_isSome (dst := s.dst) (a := 0) (n := n) (by simpa using hsome)
    obtain ⟨hin, hout⟩ := s.src.writeBytes_places 0 bs
    have hstep : step s = .next ((s.withProgram rest).withSrc (s.src.writeBytes 0 bs)) := by
      rw [step_of_cons hp rfl, runLine, State.withProgram_dst, hread, orFault_ok, State.withProgram_src]
    refine ⟨_, hstep, fun a ha => ?_, fun a ha => hout a (.inr (by omega))⟩
    simpa using (hin a ha).trans (hbs a ha).symm

/-- Settles O11: each line replaces the operand file by one that differs in the named byte register. -/
theorem byteRegisterLinesWriteTheirRegister : Obligations.ByteRegisterLinesWriteTheirRegister := by
  intro s rest
  refine ⟨fun bytes hp hlen => ?_, fun bytes hp hlen => ?_, fun hp => ?_, fun hp => ?_⟩
  · refine ⟨_, step_of_cons hp (decide_eq_true hlen), toList_bytesOf 16 bytes hlen, rfl, ?_⟩
    simp [OnlyBlkChanges]
  · refine ⟨_, step_of_cons hp (decide_eq_true hlen), toList_bytesOf 64 bytes hlen, rfl, ?_⟩
    simp [OnlyTexChanges]
  · refine ⟨_, step_of_cons hp rfl, rfl, rfl, ?_⟩
    simp [OnlyBlkChanges]
  · refine ⟨_, step_of_cons hp rfl, rfl, rfl, ?_⟩
    simp [OnlyTexChanges]

/-! ### The swizzle value (R76) -/

theorem pipeSwizzle_eq (v : Nat) : pipeSwizzle v = v / 2 ^ 8 % 2 := by
  rw [pipeSwizzle, bitAt, Nat.shiftRight_eq_div_pow]

theorem bankSwizzle_eq (v : Nat) : bankSwizzle v = v / 2 ^ 9 % 4 := by
  simp [bankSwizzle, bitsAt, Nat.shiftRight_eq_div_pow]

theorem tileClass_eq_macroTiled_iff {tm : Nat} : tileClass tm = .macroTiled ↔ 4 ≤ tm := by
  unfold tileClass
  split
  · simp; omega
  · split
    · simp; omega
    · simp; omega

/-- A second swizzle value means the same for a tile mode: the mode is not of the Macro class, or the values agree in bits
[10:8] (R76). -/
def SameSwizzle (tileMode z z' : Nat) : Prop := tileMode ≤ 3 ∨ z' / 256 % 8 = z / 256 % 8

theorem SameSwizzle.refl (tileMode z : Nat) : SameSwizzle tileMode z z := .inr rfl

/-- The swizzle enters the Macro class in `bankPipe` alone, by its bits [10:8] (40_address_engine.md R123). -/
theorem bankPipe_congr_swizzle (p : Profile) (a : AddrArgs) (sampleSlice : Nat) {z : Nat}
    (h : z / 256 % 8 = a.swizzle / 256 % 8) :
    bankPipe p { a with swizzle := z } sampleSlice = bankPipe p a sampleSlice := by
  have hpipe : pipeSwizzle z = pipeSwizzle a.swizzle := by
    rw [pipeSwizzle_eq, pipeSwizzle_eq]; omega
  have hbank : bankSwizzle z = bankSwizzle a.swizzle := by
    rw [bankSwizzle_eq, bankSwizzle_eq]; omega
  simp only [bankPipe, hpipe, hbank]
  rfl

theorem addrMacro_congr_swizzle (p : Profile) (hw : HalveWhile) (a : AddrArgs) {z : Nat}
    (h : z / 256 % 8 = a.swizzle / 256 % 8) : addrMacro p hw { a with swizzle := z } = addrMacro p hw a := by
  simp only [addrMacro, bankPipe_congr_swizzle p a _ h]
  rfl

theorem address_congr_swizzle (c : Config) (a : AddrArgs) {z : Nat} (h : SameSwizzle a.tileMode a.swizzle z) :
    address c { a with swizzle := z } = address c a := by
  unfold address
  cases hk : tileClass a.tileMode with
  | linear => rfl
  | microTiled => rfl
  | macroTiled =>
    have hm := tileClass_eq_macroTiled_iff.mp hk
    exact addrMacro_congr_swizzle _ _ a (h.resolve_left (by omega))

/-! ### Two runs of one command -/

/-- The second machine has the results, `DST` and `STATUS` of the first. -/
def SameOutputs (s s' : State) : Prop := s'.res = s.res ∧ s'.dst = s.dst ∧ s'.status = s.status

/-- Two answers are next states with the same outputs, or the same fault. -/
def SameEffect : Result → Result → Prop
  | .next t, .next t' => SameOutputs t t'
  | .fault f, .fault f' => f' = f
  | _, _ => False

section SameOutputs
variable {s s' : State} (hs : SameOutputs s s')
include hs

/-- Both runs meet the same check; where it lets them go on, what follows decides. -/
theorem sameEffect_orRaise {α : Type} {r r' : Except Cause α} {k k' : α → Result} (hr : r' = r)
    (h : ∀ x, r = .ok x → SameEffect (k x) (k' x)) : SameEffect (orRaise s r k) (orRaise s' r' k') := by
  subst hr
  obtain ⟨hres, hdst, hstatus⟩ := hs
  cases r' with
  | error c => exact ⟨hres, hdst, congrArg (statusError · c) hstatus⟩
  | ok x => exact h x rfl

theorem sameEffect_deliver (r : Except Fault Memory) (n : Nat) :
    SameEffect (orFault r fun m => .next (s.deliver m n)) (orFault r fun m => .next (s'.deliver m n)) := by
  obtain ⟨hres, -, -⟩ := hs
  cases r with
  | error f => rfl
  | ok m => exact ⟨congrArg (·.setLen n) hres, rfl, rfl⟩

theorem sameEffect_writeAddr (hcfg : s'.cfg = s.cfg) (r : BitAddress) :
    SameEffect (writeAddr s r) (writeAddr s' r) := by
  obtain ⟨hres, hdst, hstatus⟩ := hs
  unfold writeAddr
  rw [hcfg]
  split
  · exact ⟨congrArg (·.setAddr r.byte r.bit) hres, hdst, rfl⟩
  · exact ⟨hres, hdst, congrArg (statusError · _) hstatus⟩

theorem sameEffect_runAddr (hcfg : s'.cfg = s.cfg) {cls : Option TileClass} (f : AddrArgs → Except Cause BitAddress)
    (hcheck : checkAddr cls s' = checkAddr cls s)
    (hf : ∀ k, checkAddr cls s = .ok k → f (addrOperands s') = f (addrOperands s)) :
    SameEffect (runAddr cls f s) (runAddr cls f s') :=
  sameEffect_orRaise hs hcheck fun k hk => sameEffect_orRaise hs (hf k hk) fun r _ => sameEffect_writeAddr hs hcfg r

end SameOutputs

/-! ### The swizzle registers as operands -/

/-- The machine with its two swizzle registers replaced. -/
def State.withSwizzles (s : State) (a d : Reg Word) : State :=
  s.withOpr { s.opr with swizzle := a, dSwizzle := d }

theorem State.withOpr_set_swizzle (s : State) (v : Word) :
    s.withOpr (s.opr.set .swizzle v) = s.withSwizzles (.wrote v) s.opr.dSwizzle := rfl

theorem State.withOpr_set_dSwizzle (s : State) (v : Word) :
    s.withOpr (s.opr.set .dSwizzle v) = s.withSwizzles s.opr.swizzle (.wrote v) := rfl

@[simp] theorem State.withSwizzles_cfg (s : State) (a d : Reg Word) : (s.withSwizzles a d).cfg = s.cfg := rfl

theorem State.sameOutputs_withSwizzles (s : State) (a d : Reg Word) : SameOutputs s (s.withSwizzles a d) :=
  ⟨rfl, rfl, rfl⟩

/-- A command of one class goes on only with a tile mode of that class (40_address_engine.md R100). -/
theorem tileClass_of_checkAddr {cls k : TileClass} {s : State} (h : checkAddr (some cls) s = .ok k) :
    tileClass (s.num .tileMode) = cls := by
  by_contra hne
  have hmis : (some cls).isSome = true ∧ some cls ≠ some (tileClass (addrOperands s).tileMode) :=
    ⟨rfl, fun heq => hne (Option.some.inj heq).symm⟩
  simp only [checkAddr, if_pos hmis] at h
  split at h
  · cases h
  · split at h <;> cases h

section Swizzles
variable (s : State) {a d : Reg Word} (ha : SameSwizzle (s.num .tileMode) (s.num .swizzle) a.val.toNat)
  (hd : SameSwizzle (s.num .dTileMode) (s.num .dSwizzle) d.val.toNat)

include hd in
theorem tiledOffset_withSwizzles (payload : Nat) (b : Nat × Nat) :
    tiledOffset (s.withSwizzles a d) payload b = tiledOffset s payload b := by
  have haddr : address s.cfg (blockAddrArgs (s.withSwizzles a d) b) = address s.cfg (blockAddrArgs s b) :=
    address_congr_swizzle s.cfg (blockAddrArgs s b) hd
  rw [tiledOffset, State.withSwizzles_cfg, haddr, tiledOffset]

include hd in
theorem placeBlocks_withSwizzles (payload : Nat) :
    placeBlocks (s.withSwizzles a d) payload = placeBlocks s payload :=
  traverseExcept_congr fun b _ => by rw [placeBlock, tiledOffset_withSwizzles s hd, placeBlock]

include ha hd in
/-- Swizzle values that mean the same for their tile modes give every command the same effect. -/
theorem exec_withSwizzles (i : Instr) : SameEffect (exec i s) (exec i (s.withSwizzles a d)) := by
  have hs := s.sameOutputs_withSwizzles a d
  have hplaced := placeBlocks_withSwizzles s (a := a) hd
  cases i with
  | addr => exact sameEffect_runAddr hs rfl _ rfl fun _ _ => address_congr_swizzle s.cfg (addrOperands s) ha
  | addrLinear => exact sameEffect_runAddr hs rfl (fun a => .ok (addrLinear a)) rfl fun _ _ => rfl
  | addrMicro => exact sameEffect_runAddr hs rfl (fun a => .ok (addrMicro a)) rfl fun _ _ => rfl
  | addrMacro =>
    refine sameEffect_runAddr hs rfl _ rfl fun k hk =>
      addrMacro_congr_swizzle _ _ (addrOperands s) (ha.resolve_left ?_)
    have := tileClass_eq_macroTiled_iff.mp (tileClass_of_checkAddr hk)
    omega
  | retileToLinear =>
    exact sameEffect_orRaise hs rfl fun _ _ => sameEffect_orRaise hs (hplaced _) fun _ _ =>
      sameEffect_orRaise hs rfl fun _ _ => sameEffect_deliver hs _ _
  | retileToTiled =>
    exact sameEffect_orRaise hs rfl fun _ _ => sameEffect_orRaise hs (hplaced _) fun _ _ =>
      sameEffect_orRaise hs rfl fun _ _ => sameEffect_deliver hs _ _
  | decodeBlock => exact ⟨rfl, rfl, rfl⟩
  | encodeBlock => exact ⟨rfl, rfl, rfl⟩
  | decodeSurface =>
    exact sameEffect_orRaise hs rfl fun _ _ => sameEffect_orRaise hs rfl fun _ _ =>
      sameEffect_orRaise hs (hplaced _) fun _ _ => sameEffect_orRaise hs rfl fun _ _ => sameEffect_deliver hs _ _
  | encodeSurface =>
    exact sameEffect_orRaise hs rfl fun _ _ => sameEffect_orRaise hs rfl fun _ _ =>
      sameEffect_orRaise hs (hplaced _) fun _ _ => sameEffect_orRaise hs rfl fun _ _ => sameEffect_deliver hs _ _
  | decodeLinear =>
    exact sameEffect_orRaise hs rfl fun _ _ => sameEffect_orRaise hs rfl fun _ _ => sameEffect_deliver hs _ _
  | encodeLinear =>
    exact sameEffect_orRaise hs rfl fun _ _ => sameEffect_orRaise hs rfl fun _ _ => sameEffect_deliver hs _ _

end Swizzles

/-- Settles O38: writing one swizzle register leaves the other as it is, and both mean the same as before. -/
theorem otherSwizzleBitsAreIgnored : Obligations.OtherSwizzleBitsAreIgnored := by
  refine ⟨fun v => ⟨pipeSwizzle_eq v, bankSwizzle_eq v⟩, ?_⟩
  rintro i s r v (⟨rfl, h⟩ | ⟨rfl, h⟩)
  · rw [State.withOpr_set_swizzle]
    exact exec_withSwizzles s (a := .wrote v) h (SameSwizzle.refl _ _) i
  · rw [State.withOpr_set_dSwizzle]
    exact exec_withSwizzles s (d := .wrote v) (SameSwizzle.refl _ _) h i

end Sys2Proof.Machine
end

section
/-! Proofs about the address engine (40_address_engine.md): the checks and the shape of the four address commands, the
linear and micro-tiled classes, the pixel index, the Macro class step by step, and the thin modes as a permutation of
the surface. -/
namespace Sys2Proof.Machine

/-! ### The operand checks (R100) -/

theorem tileClass_eq_linear_iff {tm : Nat} : tileClass tm = .linear ↔ tm ≤ 1 := by
  unfold tileClass
  split
  · simp; omega
  · split
    · simp; omega
    · simp; omega

theorem tileClass_eq_microTiled_iff {tm : Nat} : tileClass tm = .microTiled ↔ 2 ≤ tm ∧ tm ≤ 3 := by
  unfold tileClass
  split
  · simp; omega
  · split
    · simp; omega
    · simp; omega

/-- A tile mode of the class a check asks for passes as under `ANY`. -/
theorem checkAddr_some {s : State} {k : TileClass} (hk : tileClass (s.num .tileMode) = k) :
    checkAddr (some k) s = checkAddr none s := by
  simp [checkAddr, addrOperands, hk]

section Checks
variable {s : State} (hp : profileAdmitted s.cfg.profile = true)
include hp

theorem checkAddr_tileModeRange (cls : Option TileClass) (h : 16 < s.num .tileMode) :
    checkAddr cls s = .error .tileModeRange := by
  simp [checkAddr, addrOperands, hp, h]

variable (htm : s.num .tileMode ≤ 16)
include htm

theorem checkAddr_classMismatch {k : TileClass} (h : tileClass (s.num .tileMode) ≠ k) :
    checkAddr (some k) s = .error .classMismatch := by
  simp [checkAddr, addrOperands, hp, Nat.not_lt.mpr htm, Ne.symm h]

theorem checkAddr_bppRange (h : s.num .bpp = 0 ∨ 128 < s.num .bpp) : checkAddr none s = .error .bppRange := by
  simp [checkAddr, addrOperands, hp, Nat.not_lt.mpr htm, h]

variable (hbpp : 1 ≤ s.num .bpp ∧ s.num .bpp ≤ 128)
include hbpp

theorem checkAddr_of_bpp : checkAddr none s =
    if s.num .pitch = 0 then .error .pitchZero
    else if s.num .height = 0 then .error .heightZero
    else if tileClass (s.num .tileMode) = .linear ∧ s.num .numSlices = 0 then .error .slicesZero
    else if tileClass (s.num .tileMode) = .macroTiled ∧ s.num .numSamples = 0 then .error .samplesZero
    else .ok (tileClass (s.num .tileMode)) :=
  calc checkAddr none s
    _ = _ := if_neg (by simp [hp])
    _ = _ := if_neg (Nat.not_lt.mpr htm)
    _ = _ := if_neg (by simp)
    _ = _ := if_neg (show ¬ (s.num .bpp = 0 ∨ 128 < s.num .bpp) by omega)

theorem checkAddr_pitchZero (h : s.num .pitch = 0) : checkAddr none s = .error .pitchZero := by
  rw [checkAddr_of_bpp hp htm hbpp, if_pos h]

variable (hpitch : s.num .pitch ≠ 0)
include hpitch

theorem checkAddr_heightZero (h : s.num .height = 0) : checkAddr none s = .error .heightZero := by
  rw [checkAddr_of_bpp hp htm hbpp, if_neg hpitch, if_pos h]

variable (hheight : s.num .height ≠ 0)
include hheight

theorem checkAddr_slicesZero (hk : s.num .tileMode ≤ 1) (h : s.num .numSlices = 0) :
    checkAddr none s = .error .slicesZero := by
  rw [checkAddr_of_bpp hp htm hbpp, if_neg hpitch, if_neg hheight, if_pos ⟨tileClass_eq_linear_iff.mpr hk, h⟩]

theorem checkAddr_samplesZero (hk : 4 ≤ s.num .tileMode) (h : s.num .numSamples = 0) :
    checkAddr none s = .error .samplesZero := by
  have hk := tileClass_eq_macroTiled_iff.mpr hk
  rw [checkAddr_of_bpp hp htm hbpp, if_neg hpitch, if_neg hheight, if_neg (by simp [hk]), if_pos ⟨hk, h⟩]

theorem checkAddr_ok (hslices : s.num .tileMode ≤ 1 → s.num .numSlices ≠ 0)
    (hsamples : 4 ≤ s.num .tileMode → s.num .numSamples ≠ 0) :
    checkAddr none s = .ok (tileClass (s.num .tileMode)) := by
  rw [← tileClass_eq_linear_iff] at hslices
  rw [← tileClass_eq_macroTiled_iff] at hsamples
  rw [checkAddr_of_bpp hp htm hbpp, if_neg hpitch, if_neg hheight, if_neg fun ⟨hk, h⟩ => hslices hk h,
    if_neg fun ⟨hk, h⟩ => hsamples hk h]

end Checks

/-! ### The four commands (R101, R115, R116) -/

theorem exec_addr (s : State) : exec .addr s = runAddr none (address s.cfg) s := rfl
theorem exec_addrLinear (s : State) : exec .addrLinear s = runAddr (some .linear) (fun a => .ok (addrLinear a)) s := rfl
theorem exec_addrMicro (s : State) :
    exec .addrMicro s = runAddr (some .microTiled) (fun a => .ok (addrMicro a)) s := rfl
theorem exec_addrMacro (s : State) :
    exec .addrMacro s = runAddr (some .macroTiled) (addrMacro s.cfg.profile s.cfg.halveWhile) s := rfl

theorem address_of_linear (c : Config) {a : AddrArgs} (h : a.tileMode ≤ 1) : address c a = .ok (addrLinear a) := by
  rw [address, tileClass_eq_linear_iff.mpr h]

theorem address_of_microTiled (c : Config) {a : AddrArgs} (h : 2 ≤ a.tileMode ∧ a.tileMode ≤ 3) :
    address c a = .ok (addrMicro a) := by
  rw [address, tileClass_eq_microTiled_iff.mpr h]

theorem address_of_macroTiled (c : Config) {a : AddrArgs} (h : 4 ≤ a.tileMode) :
    address c a = addrMacro c.profile c.halveWhile a := by
  rw [address, tileClass_eq_macroTiled_iff.mpr h]

theorem runAddr_of_check_error {cls : Option TileClass} {s : State} {c : Cause} (h : checkAddr cls s = .error c)
    (f : AddrArgs → Except Cause BitAddress) : runAddr cls f s = .next (s.raise c) := by
  rw [runAddr, h, orRaise_error]

/-- The answer of a class's function for operands that pass the check of that class. -/
theorem runAddr_of_check_ok {s : State} {k : TileClass} (hk : tileClass (s.num .tileMode) = k)
    (h : checkAddr none s = .ok (tileClass (s.num .tileMode))) (f : AddrArgs → Except Cause BitAddress) :
    runAddr (some k) f s = orRaise s (f (addrOperands s)) (writeAddr s) := by
  rw [runAddr, checkAddr_some hk, h, orRaise_ok]

theorem exec_addr_of_linear {s : State} (h : s.num .tileMode ≤ 1) : exec .addr s = exec .addrLinear s := by
  rw [exec_addr, exec_addrLinear, runAddr, runAddr, checkAddr_some (tileClass_eq_linear_iff.mpr h),
    address_of_linear s.cfg (a := addrOperands s) h]

theorem exec_addr_of_microTiled {s : State} (h : 2 ≤ s.num .tileMode ∧ s.num .tileMode ≤ 3) :
    exec .addr s = exec .addrMicro s := by
  rw [exec_addr, exec_addrMicro, runAddr, runAddr, checkAddr_some (tileClass_eq_microTiled_iff.mpr h),
    address_of_microTiled s.cfg (a := addrOperands s) h]

theorem exec_addr_of_macroTiled {s : State} (h : 4 ≤ s.num .tileMode) : exec .addr s = exec .addrMacro s := by
  rw [exec_addr, exec_addrMacro, runAddr, runAddr, checkAddr_some (tileClass_eq_macroTiled_iff.mpr h),
    address_of_macroTiled s.cfg (a := addrOperands s) h]

/-- Settles O26: the check and the function of `ADDR` are those of its tile mode's class. -/
theorem addrIsTheCommandOfItsClass : Obligations.AddrIsTheCommandOfItsClass := fun _ =>
  ⟨exec_addr_of_linear, exec_addr_of_microTiled, fun h => exec_addr_of_macroTiled h.1⟩

/-- An address command ends in the error of a cause. -/
def Raises (s : State) (i : Instr) (c : Cause) : Prop :=
  exec i s = .next (s.withStatus (statusWord c.code (statusValid s.status) c.info))

/-- The address commands that take a tile mode: `ADDR`, and the command of its class (R115). -/
def TakesTileMode (i : Instr) (tm : Nat) : Prop :=
  i = .addr ∧ tm ≤ 16 ∨ i = .addrLinear ∧ tm ≤ 1 ∨ i = .addrMicro ∧ 2 ≤ tm ∧ tm ≤ 3 ∨ i = .addrMacro ∧ 4 ≤ tm ∧ tm ≤ 16

theorem TakesTileMode.le {i : Instr} {tm : Nat} (h : TakesTileMode i tm) : tm ≤ 16 := by
  rcases h with ⟨-, h⟩ | ⟨-, h⟩ | ⟨-, h⟩ | ⟨-, h⟩ <;> omega

/-- The check of a command that takes the tile mode reports what the check without a class reports. -/
theorem TakesTileMode.raises {i : Instr} {s : State} (hi : TakesTileMode i (s.num .tileMode)) (c : Cause)
    (h : checkAddr none s = .error c) : Raises s i c := by
  have hsome {k : TileClass} (hk : tileClass (s.num .tileMode) = k) (f : AddrArgs → Except Cause BitAddress) :
      runAddr (some k) f s = .next (s.raise c) := runAddr_of_check_error ((checkAddr_some hk).trans h) f
  rcases hi with ⟨rfl, -⟩ | ⟨rfl, h1⟩ | ⟨rfl, h23⟩ | ⟨rfl, h4, -⟩
  · exact (exec_addr s).trans (runAddr_of_check_error h _)
  · exact (exec_addrLinear s).trans (hsome (tileClass_eq_linear_iff.mpr h1) _)
  · exact (exec_addrMicro s).trans (hsome (tileClass_eq_microTiled_iff.mpr h23) _)
  · exact (exec_addrMacro s).trans (hsome (tileClass_eq_macroTiled_iff.mpr h4) _)

/-- Settles O25: each clause's operands fail the test that reports it and none before it. -/
theorem addressChecksInOrder : Obligations.AddressChecksInOrder := by
  intro s hp
  refine ⟨fun htm i hi => ?_, fun htm => ⟨fun h => ?_, fun h => ?_, fun h => ?_⟩, fun i hi => ?_⟩
  · obtain ⟨cls, f, hr⟩ := exec_eq_runAddr hi s
    exact hr.trans (runAddr_of_check_error (checkAddr_tileModeRange hp cls htm) f)
  · have hk : tileClass (s.num .tileMode) ≠ .linear := by rw [ne_eq, tileClass_eq_linear_iff]; omega
    exact (exec_addrLinear s).trans (runAddr_of_check_error (checkAddr_classMismatch hp htm hk) _)
  · have hk : tileClass (s.num .tileMode) ≠ .microTiled := by rw [ne_eq, tileClass_eq_microTiled_iff]; omega
    exact (exec_addrMicro s).trans (runAddr_of_check_error (checkAddr_classMismatch hp htm hk) _)
  · have hk : tileClass (s.num .tileMode) ≠ .macroTiled := by rw [ne_eq, tileClass_eq_macroTiled_iff]; omega
    exact (exec_addrMacro s).trans (runAddr_of_check_error (checkAddr_classMismatch hp htm hk) _)
  · have hi : TakesTileMode i (s.num .tileMode) := hi
    have htm := hi.le
    refine ⟨fun h => ?_, fun h1 h128 => ⟨fun h => ?_, fun hpitch h => ?_, fun hpitch hheight hk h => ?_,
      fun hpitch hheight hk h => ?_⟩⟩
    · exact hi.raises .bppRange (checkAddr_bppRange hp htm h)
    · exact hi.raises .pitchZero (checkAddr_pitchZero hp htm ⟨h1, h128⟩ h)
    · exact hi.raises .heightZero (checkAddr_heightZero hp htm ⟨h1, h128⟩ hpitch h)
    · exact hi.raises .slicesZero (checkAddr_slicesZero hp htm ⟨h1, h128⟩ hpitch hheight hk h)
    · exact hi.raises .samplesZero (checkAddr_samplesZero hp htm ⟨h1, h128⟩ hpitch hheight hk h)

/-! ### Where the address fits `OFFSET_WIDTH` (R101) -/

theorem fitsOffset_succ_of_lt {c : Config} {byte : Nat} (h : ∀ w, c.offsetWidth = some w → byte < 2 ^ w) :
    fitsOffset c (byte + 1) = true := by
  unfold fitsOffset
  split
  · rfl
  · next w hw => exact decide_eq_true (h w hw)

theorem fitsOffset_succ_of_le {c : Config} {byte w : Nat} (hw : c.offsetWidth = some w) (h : 2 ^ w ≤ byte) :
    fitsOffset c (byte + 1) = false := by
  rw [fitsOffset, hw]
  exact decide_eq_false (by omega)

/-- A command that computed an address writes it where the byte offset fits `OFFSET_WIDTH`, and raises (1, 13) where it
does not. -/
def AnswersAddress (s : State) (i : Instr) (byte bit : Nat) : Prop :=
  ((∀ w, s.cfg.offsetWidth = some w → byte < 2 ^ w) →
    exec i s = .next ((s.withRes (s.res.setAddr byte bit)).withStatus statusOk)) ∧
  (∀ w, s.cfg.offsetWidth = some w → 2 ^ w ≤ byte → Raises s i .offsetWidth)

theorem answersAddress_of_exec {s : State} {i : Instr} {byte bit : Nat} (h : exec i s = writeAddr s ⟨byte, bit⟩) :
    AnswersAddress s i byte bit := by
  refine ⟨fun hfit => ?_, fun w hw hwide => ?_⟩
  · exact h.trans (if_pos (fitsOffset_succ_of_lt hfit))
  · exact h.trans (if_neg (by simp [fitsOffset_succ_of_le hw hwide]))

/-! ### The linear and micro-tiled classes (R117, R118) -/

/-- Settles O27: past the check both commands write the address of `addrLinear`. -/
theorem addrLinearCompletes : Obligations.AddrLinearCompletes := by
  intro s hp htm hbpp hpitch hheight hslices v hv i hi
  have hcheck := checkAddr_ok hp (by omega) hbpp hpitch hheight (fun _ => hslices) (by omega)
  have haddr : addrLinear (addrOperands s) = ⟨v / 8, v % 8⟩ := by rw [hv, ← Nat.shiftRight_eq_div_pow _ 3]; rfl
  have hexec : exec .addrLinear s = writeAddr s ⟨v / 8, v % 8⟩ := by
    rw [exec_addrLinear, runAddr_of_check_ok (tileClass_eq_linear_iff.mpr htm) hcheck, orRaise_ok, haddr]
  rcases hi with rfl | rfl
  · exact answersAddress_of_exec hexec
  · exact answersAddress_of_exec ((exec_addr_of_linear htm).trans hexec)

/-- Settles O28: past the check both commands write the address of `addrMicro`. -/
theorem addrMicroCompletes : Obligations.AddrMicroCompletes := by
  intro s hp htm hbpp hpitch hheight t idx byte ht hidx hbyte i hi
  have hcheck := checkAddr_ok hp (by omega) hbpp hpitch hheight (by omega) (by omega)
  have hthick : thickness (s.num .tileMode) = t := by
    obtain h | h : s.num .tileMode = 2 ∨ s.num .tileMode = 3 := by omega
    · rw [ht, h]; rfl
    · rw [ht, h]; rfl
  have haddr : addrMicro (addrOperands s) = ⟨byte, s.num .bpp * idx % 8⟩ := by
    simp only [addrMicro, addrOperands, hthick, hidx, hbyte, Nat.shiftRight_eq_div_pow, Nat.reducePow]
  have hexec : exec .addrMicro s = writeAddr s ⟨byte, s.num .bpp * idx % 8⟩ := by
    rw [exec_addrMicro, runAddr_of_check_ok (tileClass_eq_microTiled_iff.mpr htm) hcheck, orRaise_ok, haddr]
  rcases hi with rfl | rfl
  · exact answersAddress_of_exec hexec
  · exact answersAddress_of_exec ((exec_addr_of_microTiled htm).trans hexec)

/-! ### The pixel index (R106 to R108) -/

theorem packCodes_append (w : Nat) (l r : List Nat) :
    packCodes w (l ++ r) = packCodes w l + 2 ^ (w * l.length) * packCodes w r := by
  induction l with
  | nil => simp [packCodes]
  | cons c cs ih => simp only [List.cons_append, packCodes, ih, List.length_cons, Nat.mul_succ, Nat.pow_add]; ring

/-- The codes of a packed list stand in their places. -/
theorem packCodes_eq_sum (w : Nat) (l : List Nat) :
    packCodes w l = ∑ k ∈ Finset.range l.length, l.getD k 0 <<< (w * k) := by
  induction l with
  | nil => rfl
  | cons c cs ih =>
    rw [packCodes, ih, List.length_cons, Finset.sum_range_succ', Finset.mul_sum, Nat.add_comm]
    congr 1
    refine Finset.sum_congr rfl fun k _ => ?_
    rw [List.getD_cons_succ, Nat.shiftLeft_eq, Nat.shiftLeft_eq, Nat.mul_succ, Nat.pow_add]
    ring

theorem packCodes_lt {w : Nat} {l : List Nat} (h : ∀ c ∈ l, c < 2 ^ w) : packCodes w l < 2 ^ (w * l.length) := by
  induction l with
  | nil => simp [packCodes]
  | cons c cs ih =>
    have hc := h c (by simp)
    have hcs := ih fun x hx => h x (by simp [hx])
    rw [packCodes, List.length_cons, Nat.mul_succ, Nat.add_comm (w * _), Nat.pow_add]
    calc c + 2 ^ w * packCodes w cs < 2 ^ w * (packCodes w cs + 1) := by rw [Nat.mul_succ]; omega
      _ ≤ _ := Nat.mul_le_mul_left _ hcs

theorem bitAt_lt (v i : Nat) : bitAt v i < 2 := Nat.mod_lt _ (by decide)

theorem bitAt_mod_eight (v : Nat) {i : Nat} (hi : i < 3) : bitAt (v % 8) i = bitAt v i := by
  unfold bitAt
  obtain rfl | rfl | rfl : i = 0 ∨ i = 1 ∨ i = 2 := by omega
  all_goals simp only [Nat.shiftRight_eq_div_pow, Nat.reducePow]; omega

@[simp] theorem length_pixelBits (bpp x y : Nat) : (pixelBits bpp x y).length = 6 := by
  unfold pixelBits
  repeat' split
  all_goals rfl

theorem pixelBits_lt {bpp x y c : Nat} (h : c ∈ pixelBits bpp x y) : c < 2 := by
  unfold pixelBits at h
  repeat' split at h
  all_goals
    simp only [List.mem_cons, List.not_mem_nil, or_false] at h
    rcases h with rfl | rfl | rfl | rfl | rfl | rfl <;> exact bitAt_lt _ _

theorem pixelBits_mod_eight (bpp x y : Nat) : pixelBits bpp (x % 8) (y % 8) = pixelBits bpp x y := by
  simp only [pixelBits, bitAt_mod_eight _ (show 0 < 3 by decide), bitAt_mod_eight _ (show 1 < 3 by decide),
    bitAt_mod_eight _ (show 2 < 3 by decide)]

theorem depthBits_mod_eight (t z : Nat) : depthBits t (z % 8) = depthBits t z := by
  simp only [depthBits, bitAt_mod_eight _ (show 0 < 3 by decide), bitAt_mod_eight _ (show 1 < 3 by decide),
    bitAt_mod_eight _ (show 2 < 3 by decide)]

/-- The depth bits stand above the six in-plane bits. -/
theorem pixelIndex_eq (x y z bpp tm : Nat) :
    pixelIndex x y z bpp tm = packCodes 1 (pixelBits bpp x y) + 64 * packCodes 1 (depthBits (thickness tm) z) := by
  rw [pixelIndex, packCodes_append, length_pixelBits]
  rfl

/-- Three depth bits of which a thickness of 4 leaves two and a thickness of 1 none. -/
theorem packCodes_depthBits_lt (z : Nat) : packCodes 1 (depthBits 1 z) < 1 ∧ packCodes 1 (depthBits 4 z) < 4 ∧
    packCodes 1 (depthBits 8 z) < 8 := by
  have h0 := bitAt_lt z 0
  have h1 := bitAt_lt z 1
  have h2 := bitAt_lt z 2
  have hthin : packCodes 1 (depthBits 1 z) = 0 := rfl
  have hthick : packCodes 1 (depthBits 4 z) = bitAt z 0 + 2 * (bitAt z 1 + 2 * 0) := rfl
  have hall : packCodes 1 (depthBits 8 z) = bitAt z 0 + 2 * (bitAt z 1 + 2 * (bitAt z 2 + 2 * 0)) := rfl
  omega

/-- Settles O35: six in-plane bits stand below the depth bits that the thickness leaves, and each is one of the low three
bits of a coordinate. -/
theorem pixelIndexBoundsAndInputs : Obligations.PixelIndexBoundsAndInputs := by
  intro x y z bpp tm
  have hplane : packCodes 1 (pixelBits bpp x y) < 64 := by
    simpa using packCodes_lt (w := 1) (l := pixelBits bpp x y) fun c hc => pixelBits_lt hc
  obtain ⟨h1, h4, h8⟩ := packCodes_depthBits_lt z
  refine ⟨?_, fun ht => ?_, fun ht => ?_, fun ht => ?_, ?_⟩
  · simpa [pixelIndex, depthBits] using packCodes_eq_sum 1 (pixelBits bpp x y ++ depthBits (thickness tm) z)
  · rw [pixelIndex_eq, ht]; omega
  · rw [pixelIndex_eq, ht]; omega
  · rw [pixelIndex_eq, ht]; omega
  · simp only [pixelIndex, pixelBits_mod_eight, depthBits_mod_eight]

/-! ### The halving loop (R113) -/

theorem halveMore_gt_iff {w pitch : Nat} : halveMore .gt w pitch = true ↔ 2 * pitch < w := decide_eq_true_iff
theorem halveMore_ge_iff {w pitch : Nat} : halveMore .ge w pitch = true ↔ 2 * pitch ≤ w := decide_eq_true_iff

/-- Both conditions hold only from twice the pitch on. -/
theorem two_mul_le_of_halveMore {h : HalveWhile} {w pitch : Nat} (hm : halveMore h w pitch = true) : 2 * pitch ≤ w := by
  cases h with
  | gt => exact Nat.le_of_lt (of_decide_eq_true hm)
  | ge => exact of_decide_eq_true hm

theorem halveMore_zero (h : HalveWhile) {pitch : Nat} (hp : 1 ≤ pitch) : halveMore h 0 pitch = false :=
  Bool.eq_false_of_not_eq_true fun hm => by
    have := two_mul_le_of_halveMore hm
    omega

theorem halveLoop_of_stop {h : HalveWhile} {w pitch : Nat} (hm : ¬ halveMore h w pitch = true) (fuel : Nat) :
    halveLoop h pitch fuel w = w := by
  cases fuel with
  | zero => rfl
  | succ fuel => exact if_neg hm

theorem halveLoop_of_more {h : HalveWhile} {w pitch : Nat} (hm : halveMore h w pitch = true) (fuel : Nat) :
    halveLoop h pitch (fuel + 1) w = halveLoop h pitch fuel (w / 2) :=
  if_pos hm

/-- With enough passes the loop answers the first halving that fails the condition. -/
theorem halveLoop_spec (h : HalveWhile) {pitch : Nat} (hp : 1 ≤ pitch) {fuel w : Nat} (hw : w < 2 ^ fuel) :
    ∃ k, halveLoop h pitch fuel w = w / 2 ^ k ∧ halveMore h (w / 2 ^ k) pitch = false ∧
      ∀ j < k, halveMore h (w / 2 ^ j) pitch = true := by
  induction fuel generalizing w with
  | zero =>
    obtain rfl : w = 0 := by simpa using hw
    exact ⟨0, rfl, halveMore_zero h hp, by simp⟩
  | succ fuel ih =>
    cases hm : halveMore h w pitch with
    | false => exact ⟨0, by rw [halveLoop_of_stop (by simp [hm])]; simp, by simpa using hm, by simp⟩
    | true =>
      have hdiv (j : Nat) : w / 2 / 2 ^ j = w / 2 ^ (j + 1) := by
        rw [Nat.div_div_eq_div_mul, Nat.pow_succ, Nat.mul_comm 2]
      obtain ⟨k, heq, hstop, hmore⟩ := ih (w := w / 2) (by rw [Nat.pow_succ] at hw; omega)
      rw [hdiv] at heq hstop
      refine ⟨k + 1, (halveLoop_of_more hm fuel).trans heq, hstop, fun j hj => ?_⟩
      cases j with
      | zero => simpa using hm
      | succ j => exact hdiv j ▸ hmore j (by omega)

theorem halve_spec (h : HalveWhile) (w : Nat) {pitch : Nat} (hp : 1 ≤ pitch) :
    ∃ k, halve h w pitch = w / 2 ^ k ∧ halveMore h (w / 2 ^ k) pitch = false ∧
      ∀ j < k, halveMore h (w / 2 ^ j) pitch = true :=
  halveLoop_spec h hp Nat.lt_log2_self

theorem halveMore_halve (h : HalveWhile) (w : Nat) {pitch : Nat} (hp : 1 ≤ pitch) :
    halveMore h (halve h w pitch) pitch = false := by
  obtain ⟨k, heq, hstop, -⟩ := halve_spec h w hp
  rwa [heq]

/-- A width is halved only from twice the pitch on, so at least the pitch remains. -/
theorem halve_ne_zero (h : HalveWhile) {w pitch : Nat} (hp : 1 ≤ pitch) (hw : w ≠ 0) : halve h w pitch ≠ 0 := by
  obtain ⟨k, heq, -, hmore⟩ := halve_spec h w hp
  rw [heq]
  cases k with
  | zero => simpa using hw
  | succ k =>
    have := two_mul_le_of_halveMore (hmore k (by omega))
    rw [Nat.pow_succ, ← Nat.div_div_eq_div_mul]
    omega

@[simp] theorem halve_zero (h : HalveWhile) (pitch : Nat) : halve h 0 pitch = 0 := by
  simp [halve, halveLoop]

/-- Settles O33: the loop stops at the first width that fails its condition, which is the width itself or at least the
pitch. -/
theorem halvingStopsAtTheBound : Obligations.HalvingStopsAtTheBound := by
  intro h w pitch hp
  have hstop := halveMore_halve h w hp
  refine ⟨halve_spec h w hp, ?_, ?_, halve_ne_zero h hp⟩
  · rintro rfl
    exact Nat.not_lt.mp (of_decide_eq_false hstop)
  · rintro rfl
    exact Nat.not_le.mp (of_decide_eq_false hstop)

/-- The two conditions differ only at twice the pitch: there `ge` halves once more, to the pitch. -/
theorem halveLoop_gt_ge {pitch : Nat} (hp : 1 ≤ pitch) (fuel w : Nat) :
    halveLoop .gt pitch fuel w = halveLoop .ge pitch fuel w ∨
      pitch ≤ halveLoop .gt pitch fuel w ∧ pitch ≤ halveLoop .ge pitch fuel w := by
  induction fuel generalizing w with
  | zero => exact .inl rfl
  | succ fuel ih =>
    rcases Nat.lt_trichotomy w (2 * pitch) with hlt | heq | hgt
    · left
      rw [halveLoop_of_stop (by rw [halveMore_gt_iff]; omega), halveLoop_of_stop (by rw [halveMore_ge_iff]; omega)]
    · right
      have hge : halveLoop .ge pitch (fuel + 1) w = pitch := by
        rw [halveLoop_of_more (halveMore_ge_iff.mpr (by omega)), heq, Nat.mul_div_cancel_left _ (by decide),
          halveLoop_of_stop (by rw [halveMore_ge_iff]; omega)]
      rw [hge, halveLoop_of_stop (by rw [halveMore_gt_iff]; omega)]
      omega
    · rw [halveLoop_of_more (halveMore_gt_iff.mpr hgt), halveLoop_of_more (halveMore_ge_iff.mpr (Nat.le_of_lt hgt))]
      exact ih (w / 2)

theorem halve_gt_ge (w : Nat) {pitch : Nat} (hp : 1 ≤ pitch) :
    halve .gt w pitch = halve .ge w pitch ∨ pitch ≤ halve .gt w pitch ∧ pitch ≤ halve .ge w pitch :=
  halveLoop_gt_ge hp _ w

/-! ### The bank swap (R112, R114, R126) -/

/-- The bank that the swap answers where it answers: in a bank-swapped mode XORed with the entry of the swap order. -/
def swappedBank (p : Profile) (h : HalveWhile) (a : AddrArgs) (ns bank : Nat) : Nat :=
  if isBankSwapped a.tileMode then
    bank ^^^ bankSwapOrder.getD (macroTilePitch p a.tileMode * (a.x / macroTilePitch p a.tileMode)
      / halve h (bankSwapStart p a.tileMode a.bpp ns) a.pitch &&& (p.banks - 1)) 0
  else bank

theorem swapBank_of_not_swapped (p : Profile) (h : HalveWhile) {a : AddrArgs} (hs : isBankSwapped a.tileMode = false)
    (ns bank : Nat) : swapBank p h a ns bank = .ok bank := by
  simp [swapBank, hs]

section Swapped
variable {p : Profile} (h : HalveWhile) {a : AddrArgs} (hs : isBankSwapped a.tileMode = true)
include hs

theorem swapBank_eightBanks (h8 : p.banks = 8) (ns bank : Nat) : swapBank p h a ns bank = .error .swapEightBanks := by
  simp [swapBank, hs, h8]

variable (h8 : p.banks ≠ 8) {ns : Nat}
include h8

theorem swapBank_widthZero (hw : bankSwapStart p a.tileMode a.bpp ns = 0) (bank : Nat) :
    swapBank p h a ns bank = .error .swapWidthZero := by
  simp [swapBank, bankSwapWidth, hs, h8, hw]

theorem swapBank_of_width (hp : 1 ≤ a.pitch) (hw : bankSwapStart p a.tileMode a.bpp ns ≠ 0) (bank : Nat) :
    swapBank p h a ns bank = .ok (swappedBank p h a ns bank) := by
  simp [swapBank, bankSwapWidth, swappedBank, hs, h8, halve_ne_zero h hp hw]

end Swapped

theorem swapBank_ok {p : Profile} (h : HalveWhile) {a : AddrArgs} {ns : Nat} (hp : 1 ≤ a.pitch)
    (hs : isBankSwapped a.tileMode = true → p.banks = 4 ∧ bankSwapStart p a.tileMode a.bpp ns ≠ 0) (bank : Nat) :
    swapBank p h a ns bank = .ok (swappedBank p h a ns bank) := by
  cases hsw : isBankSwapped a.tileMode with
  | false => rw [swapBank_of_not_swapped p h hsw, swappedBank, hsw, if_neg (by decide)]
  | true =>
    obtain ⟨h4, hw⟩ := hs hsw
    exact swapBank_of_width h hsw (by omega) hp hw bank

/-- Inside the pitch the readings of the halving condition give one width, or widths that both make the swap index 0. -/
theorem swappedBank_gt_ge (p : Profile) {a : AddrArgs} (hx : a.x < a.pitch) (ns bank : Nat) :
    swappedBank p .gt a ns bank = swappedBank p .ge a ns bank := by
  rcases halve_gt_ge (bankSwapStart p a.tileMode a.bpp ns) (pitch := a.pitch) (by omega) with heq | ⟨hgt, hge⟩
  · rw [swappedBank, heq, swappedBank]
  · have hcol : macroTilePitch p a.tileMode * (a.x / macroTilePitch p a.tileMode) < a.pitch :=
      Nat.lt_of_le_of_lt (Nat.mul_div_le _ _) hx
    rw [swappedBank, Nat.div_eq_of_lt (Nat.lt_of_lt_of_le hcol hgt), swappedBank,
      Nat.div_eq_of_lt (Nat.lt_of_lt_of_le hcol hge)]

theorem swapBank_gt_ge (p : Profile) {a : AddrArgs} (hx : a.x < a.pitch) (ns bank : Nat) :
    swapBank p .gt a ns bank = swapBank p .ge a ns bank := by
  cases hs : isBankSwapped a.tileMode with
  | false => rw [swapBank_of_not_swapped p _ hs, swapBank_of_not_swapped p _ hs]
  | true =>
    by_cases h8 : p.banks = 8
    · rw [swapBank_eightBanks _ hs h8, swapBank_eightBanks _ hs h8]
    · by_cases hw : bankSwapStart p a.tileMode a.bpp ns = 0
      · rw [swapBank_widthZero _ hs h8 hw, swapBank_widthZero _ hs h8 hw]
      · rw [swapBank_of_width _ hs h8 (by omega) hw, swapBank_of_width _ hs h8 (by omega) hw, swappedBank_gt_ge p hx]

/-- Settles O34: the halving enters an address of the Macro class in the bank swap alone; the example outside the pitch is
evaluated. -/
theorem halvingReadingsAgreeInsideThePitch : Obligations.HalvingReadingsAgreeInsideThePitch := by
  refine ⟨fun p a hx => ?_, ?_⟩
  · simp only [addrMacro, swapBank_gt_ge p hx]
  · rintro a rfl
    exact ⟨by rfl, by rfl⟩

/-! ### The sample split (R119, R122) -/

theorem thickness_pos (tm : Nat) : 1 ≤ thickness tm := by
  unfold thickness
  split
  · decide
  · split <;> decide

/-- The bytes of one sample of a micro tile. -/
def sampleBytes (a : AddrArgs) : Nat := 8 * a.bpp * thickness a.tileMode

theorem microTileBits_eq (a : AddrArgs) : microTileBits a = 8 * (a.numSamples * sampleBytes a) := by
  unfold microTileBits sampleBytes; ring

theorem microTileBytes_eq (a : AddrArgs) : (microTileBits a + 7) / 8 = a.numSamples * sampleBytes a := by
  rw [microTileBits_eq]; omega

/-- The samples of a micro tile are split: there are several, and they do not fit a split together. -/
def Splits (p : Profile) (a : AddrArgs) : Prop := 1 < a.numSamples ∧ p.splitSize < a.numSamples * sampleBytes a

section Split
variable {p : Profile} {a : AddrArgs}

theorem sampleSplit_whole (h : ¬ Splits p a) :
    sampleSplit p a = .ok ⟨a.numSamples, 1, 0, (macroElemBits a + 7) / 8⟩ := by
  simp only [sampleSplit, microTileBytes_eq]
  exact if_neg h

theorem sampleSplit_of_splits (h : Splits p a) :
    sampleSplit p a =
      if p.splitSize / sampleBytes a = 0 then .error .sampleSplit
      else
        let splits := a.numSamples / (p.splitSize / sampleBytes a)
        .ok ⟨p.splitSize / sampleBytes a, splits, macroElemBits a / (microTileBits a / splits),
          (macroElemBits a % (microTileBits a / splits) + 7) / 8⟩ := by
  have hone : a.numSamples * sampleBytes a / a.numSamples = sampleBytes a :=
    Nat.mul_div_cancel_left _ (Nat.zero_lt_of_lt h.1)
  simp only [sampleSplit, microTileBytes_eq, hone]
  exact if_pos h

theorem sampleSplit_refused (h : 1 < a.numSamples) (hone : p.splitSize < sampleBytes a) :
    sampleSplit p a = .error .sampleSplit := by
  have hall : sampleBytes a ≤ a.numSamples * sampleBytes a := Nat.le_mul_of_pos_left _ (by omega)
  rw [sampleSplit_of_splits ⟨h, by omega⟩, if_pos (Nat.div_eq_of_lt hone)]

/-- Where one sample fits a split, at least one does. -/
theorem one_le_samplesPerSlice (h : Splits p a) (hone : sampleBytes a ≤ p.splitSize) :
    1 ≤ p.splitSize / sampleBytes a := by
  have hpos : 0 < sampleBytes a := Nat.pos_of_ne_zero fun h0 => by simp [Splits, h0] at h
  exact (Nat.one_le_div_iff hpos).mpr hone

theorem sampleSplit_parts (h : Splits p a) (hone : sampleBytes a ≤ p.splitSize) :
    sampleSplit p a =
      let splits := a.numSamples / (p.splitSize / sampleBytes a)
      .ok ⟨p.splitSize / sampleBytes a, splits, macroElemBits a / (microTileBits a / splits),
        (macroElemBits a % (microTileBits a / splits) + 7) / 8⟩ := by
  rw [sampleSplit_of_splits h, if_neg (Nat.one_le_iff_ne_zero.mp (one_le_samplesPerSlice h hone))]

/-- What the sample split answers: all samples in one slice, or as many as fit. -/
theorem sampleSplit_ok_cases {sp : SampleSplit} (h : sampleSplit p a = .ok sp) :
    ¬ Splits p a ∧ sp.ns = a.numSamples ∧ sp.splits = 1 ∨
    Splits p a ∧ sampleBytes a ≤ p.splitSize ∧ sp.ns = p.splitSize / sampleBytes a ∧
      sp.splits = a.numSamples / sp.ns := by
  by_cases hs : Splits p a
  · have hone : sampleBytes a ≤ p.splitSize := by
      by_contra hlt
      rw [sampleSplit_refused hs.1 (by omega)] at h
      cases h
    rw [sampleSplit_parts hs hone] at h
    cases h
    exact .inr ⟨hs, hone, rfl, rfl⟩
  · rw [sampleSplit_whole hs] at h
    cases h
    exact .inl ⟨hs, rfl, rfl⟩

/-- The samples of a slice are one, or fit a split. -/
theorem ns_fits {sp : SampleSplit} (h : sampleSplit p a = .ok sp) :
    sp.ns ≤ 1 ∨ sp.ns * sampleBytes a ≤ p.splitSize := by
  rcases sampleSplit_ok_cases h with ⟨hs, hns, -⟩ | ⟨-, -, hns, -⟩
  · rw [hns]
    unfold Splits at hs
    omega
  · exact .inr (hns ▸ Nat.div_mul_le_self _ _)

theorem slicesPerTile_eq_one {ns : Nat} (hbpp : 1 ≤ a.bpp) (h : ns ≤ 1 ∨ ns * sampleBytes a ≤ p.splitSize) :
    slicesPerTile p a.bpp ns = 1 := by
  unfold slicesPerTile
  dsimp only
  split
  · next hne =>
    have hle : ns ≤ p.splitSize / (8 * a.bpp) := by
      rcases h with h | h
      · exact Nat.le_trans h (Nat.pos_of_ne_zero hne)
      · rw [Nat.le_div_iff_mul_le (by omega)]
        exact Nat.le_trans (Nat.mul_le_mul_left _ (Nat.le_mul_of_pos_right _ (thickness_pos _))) h
    exact Nat.max_eq_left (Nat.div_le_of_le_mul (by simpa using hle))
  · rfl

end Split

/-- Settles O32: a split is refused where not even one sample fits; else a slice holds one sample or as many as fit, so
`slicesPerTile` has no more than one slice to count. -/
theorem sampleSplitRefusesExactly : Obligations.SampleSplitRefusesExactly := by
  intro p a hn hbpp _
  refine ⟨⟨fun h => ?_, fun ⟨h, hone⟩ => sampleSplit_refused h hone⟩, fun sp h => ?_⟩
  · have hs : Splits p a := by
      by_contra hs
      rw [sampleSplit_whole hs] at h
      cases h
    refine ⟨hs.1, Nat.lt_of_not_le fun hone => ?_⟩
    rw [sampleSplit_parts hs hone] at h
    cases h
  · have hspt := slicesPerTile_eq_one hbpp (ns_fits h)
    rcases sampleSplit_ok_cases h with ⟨-, hns, hsplits⟩ | ⟨hs, hone, hns, hsplits⟩
    · exact ⟨hns ▸ hn, hsplits ▸ Nat.le_refl 1, hspt⟩
    · have hns1 : 1 ≤ sp.ns := hns ▸ one_le_samplesPerSlice hs hone
      have hle : sp.ns ≤ a.numSamples :=
        hns ▸ Nat.div_le_of_le_mul (Nat.mul_comm _ _ ▸ Nat.le_of_lt hs.2)
      exact ⟨hns1, hsplits ▸ (Nat.one_le_div_iff hns1).mpr hle, hspt⟩

/-- The sample split answers where there is one sample or room for one. -/
theorem sampleSplit_answers {p : Profile} {a : AddrArgs} (h : a.numSamples = 1 ∨ sampleBytes a ≤ p.splitSize) :
    ∃ sp, sampleSplit p a = .ok sp := by
  by_cases hs : Splits p a
  · have hone : sampleBytes a ≤ p.splitSize := h.resolve_left (Nat.ne_of_gt hs.1)
    exact ⟨_, sampleSplit_parts hs hone⟩
  · exact ⟨_, sampleSplit_whole hs⟩

/-! ### The address of the Macro class (R120 to R128) -/

/-- R127's sum: the low part of the total offset, the pipe and the bank above it, and the high part above both. -/
def macroByte (p : Profile) (total pipe bank : Nat) : Nat :=
  total % p.groupBytes + p.groupBytes * (pipe + 2 * bank) + 2 * p.banks * p.groupBytes * (total / p.groupBytes)

section MacroSteps
variable {p : Profile} {h : HalveWhile} {a : AddrArgs} {sp : SampleSplit}

theorem addrMacro_of_split_error {c : Cause} (hs : sampleSplit p a = .error c) : addrMacro p h a = .error c := by
  rw [addrMacro, hs]

variable (hs : sampleSplit p a = .ok sp)
include hs

theorem addrMacro_of_swap_error {c : Cause}
    (hb : swapBank p h a sp.ns (bankPipe p a sp.sampleSlice / p.pipes) = .error c) : addrMacro p h a = .error c := by
  simp only [addrMacro, hs, hb]

theorem addrMacro_ok (hp : profileAdmitted p = true) {bank : Nat}
    (hb : swapBank p h a sp.ns (bankPipe p a sp.sampleSlice / p.pipes) = .ok bank) :
    addrMacro p h a = .ok { byte := macroByte p (macroTotalOffset p a sp) (bankPipe p a sp.sampleSlice % p.pipes) bank
                            bit := macroElemBits a % 8 } := by
  have hpipe : bankPipe p a sp.sampleSlice % p.pipes < 2 := by
    rw [(facts_of_profileAdmitted hp).1]
    exact Nat.mod_lt _ (by decide)
  have hbank := swapBank_lt hp (bankPipe_div_lt hp a sp.sampleSlice) hb
  simp only [addrMacro, hs, hb, assembleOffset_eq hp _ hpipe hbank, macroByte]

end MacroSteps

/-- An address of the Macro class has a split and a bank. -/
theorem exists_of_addrMacro_ok {p : Profile} {h : HalveWhile} {a : AddrArgs} {r : BitAddress}
    (hr : addrMacro p h a = .ok r) : ∃ sp bank, sampleSplit p a = .ok sp ∧
      swapBank p h a sp.ns (bankPipe p a sp.sampleSlice / p.pipes) = .ok bank := by
  cases hs : sampleSplit p a with
  | error c => rw [addrMacro_of_split_error hs] at hr; cases hr
  | ok sp =>
    cases hb : swapBank p h a sp.ns (bankPipe p a sp.sampleSlice / p.pipes) with
    | error c => rw [addrMacro_of_swap_error hs hb] at hr; cases hr
    | ok bank => exact ⟨sp, bank, rfl, hb⟩

/-- The fields of R127's sum read back, each from its place. -/
theorem macroByte_fields {p : Profile} (hp : profileAdmitted p = true) (total : Nat) {pipe bank : Nat}
    (hpipe : pipe < 2) (hbank : bank < p.banks) :
    macroByte p total pipe bank % p.groupBytes = total % p.groupBytes ∧
      macroByte p total pipe bank / p.groupBytes % 2 = pipe ∧
      macroByte p total pipe bank / (p.groupBytes * 2) % p.banks = bank ∧
      macroByte p total pipe bank / (p.groupBytes * 2 * p.banks) = total / p.groupBytes := by
  obtain ⟨-, hbanks, hg, -⟩ := facts_of_profileAdmitted hp
  have hpos : 0 < p.groupBytes := hg ▸ Nat.two_pow_pos _
  have heq : macroByte p total pipe bank
      = total % p.groupBytes + p.groupBytes * (pipe + 2 * (bank + p.banks * (total / p.groupBytes))) := by
    unfold macroByte; ring
  have hdiv : macroByte p total pipe bank / p.groupBytes = pipe + 2 * (bank + p.banks * (total / p.groupBytes)) := by
    rw [heq, Nat.add_mul_div_left _ _ hpos, Nat.div_eq_of_lt (Nat.mod_lt _ hpos), Nat.zero_add]
  have hhalf : macroByte p total pipe bank / (p.groupBytes * 2) = bank + p.banks * (total / p.groupBytes) := by
    rw [← Nat.div_div_eq_div_mul, hdiv]; omega
  refine ⟨?_, ?_, ?_, ?_⟩
  · rw [heq, Nat.add_mul_mod_self_left, Nat.mod_mod]
  · rw [hdiv]; omega
  · rw [hhalf, Nat.add_mul_mod_self_left, Nat.mod_eq_of_lt hbank]
  · rw [← Nat.div_div_eq_div_mul, hhalf, Nat.add_mul_div_left _ _ (by omega), Nat.div_eq_of_lt hbank, Nat.zero_add]

/-- Settles O31: the assembly is R127's sum, and its fields read back. -/
theorem macroAddressFieldsAreDisjoint : Obligations.MacroAddressFieldsAreDisjoint := by
  intro p h a hp
  refine ⟨fun sp total pipe bank hs htotal hpipe hb => ?_, fun r hr => exists_of_addrMacro_ok hr⟩
  have hpipes := (facts_of_profileAdmitted hp).1
  have hpipe2 : pipe < 2 := by rw [hpipe, hpipes]; exact Nat.mod_lt _ (by decide)
  have hbank := swapBank_lt hp (bankPipe_div_lt hp a sp.sampleSlice) hb
  obtain ⟨hlow, hpp, hbb, hhigh⟩ := macroByte_fields hp total hpipe2 hbank
  have haddr := addrMacro_ok hs hp hb
  rw [← htotal, ← hpipe] at haddr
  rw [hpipes]
  exact ⟨hpipe2, hbank, _, haddr, hlow, hpp, hbb, hhigh, rfl⟩

/-! ### `ADDR_MACRO`, and `ADDR` on its tile modes (R101, R128) -/

section MacroCommands
variable {s : State} (hp : profileAdmitted s.cfg.profile = true) (htm : 4 ≤ s.num .tileMode ∧ s.num .tileMode ≤ 16)
  (hbpp : 1 ≤ s.num .bpp ∧ s.num .bpp ≤ 128) (hpitch : s.num .pitch ≠ 0) (hheight : s.num .height ≠ 0)
  (hsamples : s.num .numSamples ≠ 0)
include hp htm hbpp hpitch hheight hsamples

/-- Past the check both commands answer what `addrMacro` computes. -/
theorem exec_of_macroTiled {i : Instr} (hi : i = .addrMacro ∨ i = .addr) :
    exec i s = orRaise s (addrMacro s.cfg.profile s.cfg.halveWhile (addrOperands s)) (writeAddr s) := by
  have hcheck := checkAddr_ok hp htm.2 hbpp hpitch hheight (by omega) (fun _ => hsamples)
  have hexec := runAddr_of_check_ok (tileClass_eq_macroTiled_iff.mpr htm.1) hcheck
    (addrMacro s.cfg.profile s.cfg.halveWhile)
  rcases hi with rfl | rfl
  · exact hexec
  · exact (exec_addr_of_macroTiled htm.1).trans hexec

theorem answersAddress_of_addrMacro_ok {byte bit : Nat}
    (hr : addrMacro s.cfg.profile s.cfg.halveWhile (addrOperands s) = .ok ⟨byte, bit⟩) {i : Instr}
    (hi : i = .addrMacro ∨ i = .addr) : AnswersAddress s i byte bit := by
  apply answersAddress_of_exec
  rw [exec_of_macroTiled hp htm hbpp hpitch hheight hsamples hi, hr, orRaise_ok]

theorem raises_of_addrMacro_error {c : Cause}
    (hc : addrMacro s.cfg.profile s.cfg.halveWhile (addrOperands s) = .error c) :
    Raises s .addrMacro c ∧ Raises s .addr c := by
  have hraise {i : Instr} (hi : i = .addrMacro ∨ i = .addr) : Raises s i c := by
    rw [Raises, exec_of_macroTiled hp htm hbpp hpitch hheight hsamples hi, hc, orRaise_error]
    rfl
  exact ⟨hraise (.inl rfl), hraise (.inr rfl)⟩

end MacroCommands

/-- Settles O37: each clause's operands stop `addrMacro` at the step that has the cause, or past its last step. -/
theorem macroErrorsInOrder : Obligations.MacroErrorsInOrder := by
  intro s hp htm hbpp hpitch hheight hsamples
  have raises (c : Cause) := raises_of_addrMacro_error (c := c) hp htm hbpp hpitch hheight hsamples
  refine ⟨fun hn hone => ?_, fun sp hs hsw => ⟨fun h8 => ?_, fun h4 hw => ?_⟩, fun r w hr hwidth hwide => ?_⟩
  · exact raises .sampleSplit (addrMacro_of_split_error (sampleSplit_refused hn hone))
  · exact raises .swapEightBanks (addrMacro_of_swap_error hs (swapBank_eightBanks _ (a := addrOperands s) hsw h8 _ _))
  · have hwidth := swapBank_widthZero s.cfg.halveWhile (a := addrOperands s) hsw (by omega) hw
    exact raises .swapWidthZero (addrMacro_of_swap_error hs (hwidth _))
  · have raises {i : Instr} (hi : i = .addrMacro ∨ i = .addr) : Raises s i .offsetWidth :=
      (answersAddress_of_addrMacro_ok hp htm hbpp hpitch hheight hsamples hr hi).2 w hwidth hwide
    exact ⟨raises (.inl rfl), raises (.inr rfl)⟩

/-- Settles O29: the split and the swap answer, so `addrMacro` does, and what it answers fits. -/
theorem addrMacroCompletes : Obligations.AddrMacroCompletes := by
  intro s hp htm hbpp hpitch hheight hsamples hone hswap hfit
  obtain ⟨sp, hs⟩ := sampleSplit_answers (a := addrOperands s) hone
  have hb := swapBank_ok (p := s.cfg.profile) s.cfg.halveWhile (a := addrOperands s) (Nat.pos_of_ne_zero hpitch)
    (fun hsw => ⟨(hswap hsw).1, (hswap hsw).2 sp hs⟩)
    (bankPipe s.cfg.profile (addrOperands s) sp.sampleSlice / s.cfg.profile.pipes)
  have hr := addrMacro_ok hs hp hb
  have answers {i : Instr} (hi : i = .addrMacro ∨ i = .addr) :=
    (answersAddress_of_addrMacro_ok hp htm hbpp hpitch hheight hsamples hr hi).1 fun w hw => hfit w _ hw hr
  exact ⟨_, hr, Nat.mod_lt _ (by decide), answers (.inl rfl), answers (.inr rfl)⟩

/-! ### The address of the Macro class as one formula (R119 to R128, R112) -/

section Formula
variable {p : Profile} (hp : profileAdmitted p = true) {a : AddrArgs}

theorem macroElemBits_eq (hn : a.numSamples ≠ 0) : macroElemBits a =
    a.bpp * pixelIndex a.x a.y a.slice a.bpp a.tileMode + a.sample * (a.bpp * thickness a.tileMode * 64) := by
  have hbits : microTileBits a = a.numSamples * (a.bpp * thickness a.tileMode * 64) := by unfold microTileBits; ring
  rw [macroElemBits, hbits, Nat.mul_div_cancel_left _ (Nat.pos_of_ne_zero hn)]

include hp

theorem macroTotalOffset_eq (sp : SampleSplit) : macroTotalOffset p a sp =
    sp.elemBytes + (macroTileOffset p a sp.ns + macroSliceOffset a sp) / (2 * p.banks) := by
  obtain ⟨hpipes, hbanks, -⟩ := facts_of_profileAdmitted hp
  rw [macroTotalOffset, Nat.shiftRight_eq_div_pow, Nat.pow_add, two_pow_bankBits hbanks, pipeBits_of_two hpipes,
    Nat.mul_comm p.banks, Nat.pow_one]

theorem bankPipe_eq (sampleSlice : Nat) : bankPipe p a sampleSlice =
    ((pipeWoRot a.x a.y + 2 * bankWoRot p a.x a.y) ^^^ (2 * sampleSlice * (p.banks / 2 + 1)) ^^^
      (a.swizzle / 256 % 2 + 2 * (a.swizzle / 512 % 4)
        + (if isThickMacro a.tileMode then a.slice / 4 else a.slice) * rotation p a.tileMode)) % (2 * p.banks) := by
  simp only [bankPipe, (facts_of_profileAdmitted hp).1, pipeSwizzle_eq, bankSwizzle_eq, macroSliceIn,
    Nat.shiftRight_eq_div_pow, Nat.reducePow, Nat.xor_assoc]

/-- Where `slicesPerTile` is 1 no quotient of R112 by it remains. -/
theorem bankSwapStart_eq {tm bpp ns : Nat} (hspt : slicesPerTile p bpp ns = 1) : bankSwapStart p tm bpp ns =
    min (2 * p.banks * p.rowSize / ((if isThickMacro tm then 4 else ns) * aspect tm * 2 * bpp))
      (max (p.groupBytes * 8 * p.banks / ((if isThickMacro tm then 4 else ns) * 8 * bpp))
        (max 1 (p.swapSize / 2 / bpp) * 8 * p.banks)) := by
  simp only [bankSwapStart, hspt, (facts_of_profileAdmitted hp).1, Nat.div_one, Nat.shiftRight_eq_div_pow,
    Nat.pow_one, Nat.mul_assoc]

end Formula

/-- With four banks the swap index takes the quotient modulo 4. -/
theorem swappedBank_eq {p : Profile} {h : HalveWhile} {a : AddrArgs} {ns : Nat}
    (h4 : isBankSwapped a.tileMode = true → p.banks = 4) (bank : Nat) : swappedBank p h a ns bank =
      if isBankSwapped a.tileMode then
        bank ^^^ [0, 1, 3, 2].getD (a.x / macroTilePitch p a.tileMode * macroTilePitch p a.tileMode
          / halve h (bankSwapStart p a.tileMode a.bpp ns) a.pitch % 4) 0
      else bank := by
  unfold swappedBank
  split
  · next hs =>
    rw [h4 hs, Nat.and_two_pow_sub_one_eq_mod _ 2, Nat.mul_comm (macroTilePitch p a.tileMode)]
    rfl
  · rfl

/-- The two answers of the sample split as one. -/
theorem sampleSplit_eq {p : Profile} {a : AddrArgs} (hone : a.numSamples = 1 ∨ sampleBytes a ≤ p.splitSize)
    {isSplit : Bool} {ns splits sliceBits : Nat} (hsplit : isSplit = true ↔ Splits p a)
    (hns : ns = if isSplit then p.splitSize / sampleBytes a else a.numSamples)
    (hsplits : splits = if isSplit then a.numSamples / ns else 1) (hslice : sliceBits = microTileBits a / splits) :
    sampleSplit p a = .ok ⟨ns, splits, if isSplit then macroElemBits a / sliceBits else 0,
      ((if isSplit then macroElemBits a % sliceBits else macroElemBits a) + 7) / 8⟩ := by
  cases isSplit with
  | false =>
    have hs : ¬ Splits p a := by simpa using hsplit
    rw [sampleSplit_whole hs, hns, hsplits]
    rfl
  | true =>
    have hs : Splits p a := hsplit.mp rfl
    rw [sampleSplit_parts hs (hone.resolve_left (Nat.ne_of_gt hs.1)), hslice, hsplits, hns]
    rfl

/-- Settles O30: each step of `addrMacro` is the formula's term for it. -/
theorem addrMacroResult : Obligations.AddrMacroResult := by
  intro s hp htm hbpp hpitch hheight hsamples p x y z bpp tm n t mtP mtH oneSample hpv hx hy hz hbppv htmv hn ht hmtP hmtH
    honev hone elem isSplit ns splits sliceBits sampleSlice elemIn helem hsplit hns hsplits hslice hsampleSlice helemIn
    macroOff sliceOff total hmacro hsliceOff htotal sliceIn bp hsliceIn hbp nsw width bank hnsw hwidth hswap hbank byte
    hbyte i hi
  subst hpv hx hy hz hbppv htmv hn ht honev hmtP hmtH
  have helem' : macroElemBits (addrOperands s) = elem := helem ▸ macroElemBits_eq hsamples
  have hs : sampleSplit s.cfg.profile (addrOperands s) = .ok ⟨ns, splits, sampleSlice, (elemIn + 7) / 8⟩ := by
    have hbits : sliceBits = microTileBits (addrOperands s) / splits := hslice
    rw [sampleSplit_eq hone (by rw [hsplit, decide_eq_true_eq]; rfl) hns hsplits hbits, helem', hsampleSlice, helemIn]
  have htotal' :
      macroTotalOffset s.cfg.profile (addrOperands s) ⟨ns, splits, sampleSlice, (elemIn + 7) / 8⟩ = total := by
    rw [macroTotalOffset_eq hp, htotal, hmacro, hsliceOff]
    rfl
  have hbp' : bankPipe s.cfg.profile (addrOperands s) sampleSlice = bp := by
    rw [bankPipe_eq hp, hbp, hsliceIn]
    rfl
  have hwidth' : bankSwapStart s.cfg.profile (s.num .tileMode) (s.num .bpp) ns = width := by
    have hspt : slicesPerTile s.cfg.profile (s.num .bpp) ns = 1 :=
      slicesPerTile_eq_one (a := addrOperands s) hbpp.1 (ns_fits hs)
    rw [bankSwapStart_eq hp hspt, hwidth, hnsw]
  have hok : isBankSwapped (addrOperands s).tileMode = true → s.cfg.profile.banks = 4 ∧
      bankSwapStart s.cfg.profile (addrOperands s).tileMode (addrOperands s).bpp ns ≠ 0 :=
    fun hsw => ⟨(hswap hsw).1, hwidth'.trans_ne (hswap hsw).2⟩
  have hbank' : swapBank s.cfg.profile s.cfg.halveWhile (addrOperands s) ns
      (bankPipe s.cfg.profile (addrOperands s) sampleSlice / s.cfg.profile.pipes) = .ok bank := by
    rw [swapBank_ok _ (Nat.pos_of_ne_zero hpitch) hok, swappedBank_eq fun hsw => (hok hsw).1, hbp',
      (facts_of_profileAdmitted hp).1, hbank]
    simp only [addrOperands, hwidth']
  have hr := addrMacro_ok hs hp hbank'
  rw [htotal', hbp', helem', (facts_of_profileAdmitted hp).1] at hr
  rw [hbyte]
  exact answersAddress_of_addrMacro_ok hp htm hbpp hpitch hheight hsamples hr hi

/-! ### The micro tile of an element (R109 to R111, R125, R126) -/

/-- The operands at the first element of the micro tile. -/
def microTileOrigin (a : AddrArgs) : AddrArgs := { a with x := 8 * (a.x / 8), y := 8 * (a.y / 8) }

theorem div_of_eight_dvd {m : Nat} (hm : 8 ∣ m) (x : Nat) : 8 * (x / 8) / m = x / m := by
  obtain ⟨k, rfl⟩ := hm
  rw [← Nat.div_div_eq_div_mul, Nat.mul_div_cancel_left _ (by decide), Nat.div_div_eq_div_mul]

theorem pipeWoRot_microTile (x y : Nat) : pipeWoRot (8 * (x / 8)) (8 * (y / 8)) = pipeWoRot x y := by
  simp only [pipeWoRot, bitAt, Nat.shiftRight_eq_div_pow, div_of_eight_dvd (show 8 ∣ 2 ^ 3 by decide)]

theorem bankWoRot_microTile (p : Profile) (x y : Nat) : bankWoRot p (8 * (x / 8)) (8 * (y / 8)) = bankWoRot p x y := by
  have h3 : 8 ∣ 2 ^ 3 := by decide
  have h4 : 8 ∣ 2 ^ 4 := by decide
  have h5 : 8 ∣ 2 ^ 5 := by decide
  have h8 : 8 ∣ 8 * p.pipes := Nat.dvd_mul_right 8 _
  have h16 : 8 ∣ 16 * p.pipes := Nat.dvd_mul_right_of_dvd (by decide) _
  have h32 : 8 ∣ 32 * p.pipes := Nat.dvd_mul_right_of_dvd (by decide) _
  simp only [bankWoRot, bankWoRot4, bankWoRot8, Nat.shiftRight_eq_div_pow, div_of_eight_dvd h3, div_of_eight_dvd h4,
    div_of_eight_dvd h5, div_of_eight_dvd h8, div_of_eight_dvd h16, div_of_eight_dvd h32]

theorem bankPipe_microTile (p : Profile) (a : AddrArgs) (sampleSlice : Nat) :
    bankPipe p (microTileOrigin a) sampleSlice = bankPipe p a sampleSlice := by
  simp only [bankPipe, microTileOrigin, pipeWoRot_microTile, bankWoRot_microTile]
  rfl

theorem eight_dvd_macroTilePitch {p : Profile} (hp : p.banks = 4 ∨ p.banks = 8) (tm : Nat) :
    8 ∣ macroTilePitch p tm := by
  unfold macroTilePitch aspect
  split
  · omega
  · split <;> omega

theorem eight_dvd_macroTileHeight (p : Profile) (tm : Nat) : 8 ∣ macroTileHeight p tm :=
  ⟨p.pipes * aspect tm, Nat.mul_assoc _ _ _⟩

theorem swappedBank_microTile {p : Profile} (hp : p.banks = 4 ∨ p.banks = 8) (h : HalveWhile) (a : AddrArgs)
    (ns bank : Nat) : swappedBank p h (microTileOrigin a) ns bank = swappedBank p h a ns bank := by
  simp only [swappedBank, microTileOrigin, div_of_eight_dvd (eight_dvd_macroTilePitch hp _)]

/-! ### The thin modes on a 64 by 64 surface (R129) -/

/-- Where the values of a square of arguments fill as many places, no two arguments share one. -/
theorem injective_of_fills {n : Nat} {f : Nat → Nat → Nat} (hlt : ∀ x < n, ∀ y < n, f x y < n * n)
    (hsurj : ∀ m < n * n, ∃ x < n, ∃ y < n, f x y = m) {x y x' y' : Nat} (hx : x < n) (hy : y < n) (hx' : x' < n)
    (hy' : y' < n) (h : f x y = f x' y') : x = x' ∧ y = y' := by
  have hinj : Set.InjOn (Function.uncurry f) (Finset.range n ×ˢ Finset.range n : Finset (Nat × Nat)) := by
    refine Finset.injOn_of_surjOn_of_card_le (t := Finset.range (n * n)) _ (fun q hq => ?_) (fun m hm => ?_) (by simp)
    · simp only [Finset.mem_coe, Finset.mem_product, Finset.mem_range] at hq
      exact Finset.mem_coe.mpr (Finset.mem_range.mpr (hlt q.1 hq.1 q.2 hq.2))
    · obtain ⟨x, hx, y, hy, hm⟩ := hsurj m (Finset.mem_range.mp hm)
      exact ⟨(x, y), by simp [hx, hy], hm⟩
  exact Prod.mk.inj (hinj (x₁ := (x, y)) (x₂ := (x', y')) (by simp [hx, hy]) (by simp [hx', hy']) h)

/-- The operands of element `(x, y)` of R129's surface. -/
def thinArgs (tm bpp x y : Nat) : AddrArgs :=
  { x := x, y := y, slice := 0, sample := 0, bpp := bpp, pitch := 64, height := 64, numSlices := 1, numSamples := 1
    tileMode := tm, swizzle := 0 }

/-- A function numbers the 64 places of an 8 by 8 grid. -/
abbrev NumbersGrid (f : Nat → Nat → Nat) : Prop :=
  ((List.range 64).map fun k => f (k % 8) (k / 8)).Perm (List.range 64)

theorem NumbersGrid.lt {f : Nat → Nat → Nat} (h : NumbersGrid f) {i j : Nat} (hi : i < 8) (hj : j < 8) :
    f i j < 64 := by
  have hk : (i + 8 * j) % 8 = i ∧ (i + 8 * j) / 8 = j := by omega
  refine List.mem_range.mp (h.mem_iff.mp (List.mem_map.mpr ⟨i + 8 * j, List.mem_range.mpr (by omega), ?_⟩))
  rw [hk.1, hk.2]

theorem NumbersGrid.exists_eq {f : Nat → Nat → Nat} (h : NumbersGrid f) {n : Nat} (hn : n < 64) :
    ∃ i < 8, ∃ j < 8, f i j = n := by
  obtain ⟨k, hk, hfk⟩ := List.mem_map.mp (h.mem_iff.mpr (List.mem_range.mpr hn))
  have hk := List.mem_range.mp hk
  exact ⟨k % 8, by omega, k / 8, by omega, hfk⟩

/-- The place of element `pix` of micro tile `tile` where a group holds `g` elements: R127's assembly in elements, of a
tile number that holds pipe and bank below 8 and the Macro tile above. -/
def slot (g pix tile : Nat) : Nat := pix % g + g * (tile % 8) + 8 * g * (pix / g + 64 / g * (tile / 8))

theorem slot_lt {g : Nat} (hg : g ∈ [16, 32, 64]) {pix tile : Nat} (hpix : pix < 64) (htile : tile < 64) :
    slot g pix tile < 4096 := by
  simp only [List.mem_cons, List.not_mem_nil, or_false] at hg
  rcases hg with rfl | rfl | rfl
  all_goals unfold slot; omega

theorem slot_surjective {g : Nat} (hg : g ∈ [16, 32, 64]) {m : Nat} (hm : m < 4096) :
    ∃ pix < 64, ∃ tile < 64, slot g pix tile = m := by
  simp only [List.mem_cons, List.not_mem_nil, or_false] at hg
  rcases hg with rfl | rfl | rfl
  · exact ⟨m % 16 + 16 * (m / 128 % 4), by omega, m / 16 % 8 + 8 * (m / 512), by omega, by unfold slot; omega⟩
  · exact ⟨m % 32 + 32 * (m / 256 % 2), by omega, m / 32 % 8 + 8 * (m / 512), by omega, by unfold slot; omega⟩
  · exact ⟨m % 64, by omega, m / 64, by omega, by unfold slot; omega⟩

/-- The slot of element `(x, y)`, for a numbering of the elements of a micro tile and one of the micro tiles. -/
def elementSlot (g : Nat) (pix tile : Nat → Nat → Nat) (x y : Nat) : Nat :=
  slot g (pix (x % 8) (y % 8)) (tile (x / 8) (y / 8))

section Numberings
variable {g : Nat} (hg : g ∈ [16, 32, 64]) {pix tile : Nat → Nat → Nat} (hpix : NumbersGrid pix)
  (htile : NumbersGrid tile)
include hg hpix htile

theorem elementSlot_lt {x y : Nat} (hx : x < 64) (hy : y < 64) : elementSlot g pix tile x y < 4096 :=
  slot_lt hg (hpix.lt (by omega) (by omega)) (htile.lt (by omega) (by omega))

theorem elementSlot_surjective {m : Nat} (hm : m < 4096) : ∃ x < 64, ∃ y < 64, elementSlot g pix tile x y = m := by
  obtain ⟨n, hn, k, hk, hslot⟩ := slot_surjective hg hm
  obtain ⟨i, hi, j, hj, hpixel⟩ := hpix.exists_eq hn
  obtain ⟨u, hu, v, hv, hnumber⟩ := htile.exists_eq hk
  have hx : (8 * u + i) % 8 = i ∧ (8 * u + i) / 8 = u := by omega
  have hy : (8 * v + j) % 8 = j ∧ (8 * v + j) / 8 = v := by omega
  refine ⟨8 * u + i, by omega, 8 * v + j, by omega, ?_⟩
  simp only [elementSlot, hx, hy, hpixel, hnumber, hslot]

end Numberings

theorem pixelBits_numbersGrid : ∀ bpp ∈ [64, 128], NumbersGrid fun i j => packCodes 1 (pixelBits bpp i j) := by
  decide +kernel

/-- The number of the Macro tile of an element (R125). -/
def macroTileNumber (tm x y : Nat) : Nat :=
  x / macroTilePitch defaultProfile tm + 64 / macroTilePitch defaultProfile tm * (y / macroTileHeight defaultProfile tm)

/-- The pipe of an element and its swapped bank above it (R123, R126). -/
def pipeAndBank (a : AddrArgs) : Nat :=
  bankPipe defaultProfile a 0 % 2 + 2 * swappedBank defaultProfile .gt a 1 (bankPipe defaultProfile a 0 / 2)

/-- The number of a micro tile in a mode of the Macro class: its pipe and its bank, and above them its Macro tile. -/
def microTileNumber (tm bpp u v : Nat) : Nat :=
  pipeAndBank (thinArgs tm bpp (8 * u) (8 * v)) + 8 * macroTileNumber tm (8 * u) (8 * v)

/-- The elements of a micro tile share its number. -/
theorem microTileNumber_div (tm bpp x y : Nat) :
    microTileNumber tm bpp (x / 8) (y / 8) = pipeAndBank (thinArgs tm bpp x y) + 8 * macroTileNumber tm x y := by
  have hbanks : defaultProfile.banks = 4 ∨ defaultProfile.banks = 8 := .inl rfl
  have horigin : thinArgs tm bpp (8 * (x / 8)) (8 * (y / 8)) = microTileOrigin (thinArgs tm bpp x y) := rfl
  simp only [microTileNumber, horigin, pipeAndBank, bankPipe_microTile, swappedBank_microTile hbanks, macroTileNumber,
    div_of_eight_dvd (eight_dvd_macroTilePitch hbanks tm), div_of_eight_dvd (eight_dvd_macroTileHeight _ tm)]

theorem microTileNumber_numbersGrid :
    ∀ tm ∈ [4, 5, 6, 8, 9, 10, 12, 14], ∀ bpp ∈ [64, 128], NumbersGrid (microTileNumber tm bpp) := by
  decide +kernel

/-- What the address functions use of a thin mode of the Macro class under the default profile. -/
theorem thinMacro_facts : ∀ tm ∈ [4, 5, 6, 8, 9, 10, 12, 14], ∀ bpp ∈ [64, 128],
    4 ≤ tm ∧ thickness tm = 1 ∧ macroTileHeight defaultProfile tm * macroTilePitch defaultProfile tm = 512 ∧
      bankSwapStart defaultProfile tm bpp 1 ≠ 0 := by decide

theorem pixelIndex_of_thin {tm : Nat} (ht : thickness tm = 1) (x y bpp : Nat) :
    pixelIndex x y 0 bpp tm = packCodes 1 (pixelBits bpp (x % 8) (y % 8)) := by
  rw [pixelIndex_eq, ht, pixelBits_mod_eight]
  rfl

theorem macroElemBits_thin {tm : Nat} (ht : thickness tm = 1) (x y bpp : Nat) :
    macroElemBits (thinArgs tm bpp x y) = bpp * packCodes 1 (pixelBits bpp (x % 8) (y % 8)) := by
  simp [macroElemBits, thinArgs, pixelIndex_of_thin ht]

/-- The address of an element by its slot: a numbering of the micro tiles, and the elements of a group. -/
def AddressesBySlot (tm bpp g : Nat) (tile : Nat → Nat → Nat) : Prop :=
  ∀ x < 64, ∀ y < 64, address defaultConfig (thinArgs tm bpp x y)
    = .ok ⟨elementSlot g (fun i j => packCodes 1 (pixelBits bpp i j)) tile x y * (bpp / 8), 0⟩

theorem addressesBySlot_micro {bpp : Nat} (hbpp : bpp ∈ [64, 128]) :
    AddressesBySlot 2 bpp 64 fun u v => u + 8 * v := by
  intro x hx y hy
  have hn : packCodes 1 (pixelBits bpp (x % 8) (y % 8)) < 64 :=
    (pixelBits_numbersGrid bpp hbpp).lt (by omega) (by omega)
  have h2 : 2 ≤ (thinArgs 2 bpp x y).tileMode ∧ (thinArgs 2 bpp x y).tileMode ≤ 3 := by simp [thinArgs]
  have hthick : thickness 2 = 1 := by decide
  rw [address_of_microTiled _ h2]
  simp only [addrMicro, thinArgs, pixelIndex_of_thin hthick, hthick, elementSlot, slot, Nat.shiftRight_eq_div_pow]
  generalize packCodes 1 (pixelBits bpp (x % 8) (y % 8)) = n at *
  simp only [List.mem_cons, List.not_mem_nil, or_false] at hbpp
  rcases hbpp with rfl | rfl
  all_goals congr 2 <;> omega

/-- R127's sum in elements: a micro tile holds 8 * bpp bytes, and a group 256. -/
theorem macroByte_thin {bpp : Nat} (hbpp : bpp ∈ [64, 128]) (pix tile : Nat) {pipe bank : Nat} (hpipe : pipe < 2)
    (hbank : bank < 4) : macroByte defaultProfile ((bpp * pix + 7) / 8 + 8 * bpp * tile) pipe bank
      = slot (256 / (bpp / 8)) pix (pipe + 2 * bank + 8 * tile) * (bpp / 8) := by
  simp only [List.mem_cons, List.not_mem_nil, or_false] at hbpp
  rcases hbpp with rfl | rfl
  all_goals simp only [macroByte, slot, defaultProfile]; omega

section ThinMacro
variable {tm bpp : Nat} (htm : tm ∈ [4, 5, 6, 8, 9, 10, 12, 14]) (hbpp : bpp ∈ [64, 128]) (x y : Nat)
include htm hbpp

theorem sampleSplit_thin : sampleSplit defaultProfile (thinArgs tm bpp x y) =
    .ok ⟨1, 1, 0, (bpp * packCodes 1 (pixelBits bpp (x % 8) (y % 8)) + 7) / 8⟩ := by
  obtain ⟨-, hthick, -⟩ := thinMacro_facts tm htm bpp hbpp
  rw [sampleSplit_whole fun h => absurd h.1 (Nat.lt_irrefl 1), macroElemBits_thin hthick]
  rfl

theorem swapBank_thin (bank : Nat) : swapBank defaultProfile .gt (thinArgs tm bpp x y) 1 bank =
    .ok (swappedBank defaultProfile .gt (thinArgs tm bpp x y) 1 bank) := by
  obtain ⟨-, -, -, hwidth⟩ := thinMacro_facts tm htm bpp hbpp
  exact swapBank_ok .gt (a := thinArgs tm bpp x y) (show 1 ≤ 64 by decide) (fun _ => ⟨rfl, hwidth⟩) bank

theorem macroTotalOffset_thin (elemBytes : Nat) :
    macroTotalOffset defaultProfile (thinArgs tm bpp x y) ⟨1, 1, 0, elemBytes⟩
      = elemBytes + 8 * bpp * macroTileNumber tm x y := by
  obtain ⟨-, hthick, hsize, -⟩ := thinMacro_facts tm htm bpp hbpp
  have htile : macroTileOffset defaultProfile (thinArgs tm bpp x y) 1 = macroTileNumber tm x y * (64 * bpp) := by
    have hbits : bpp * macroTileHeight defaultProfile tm * macroTilePitch defaultProfile tm = bpp * 512 := by
      rw [Nat.mul_assoc, hsize]
    simp only [macroTileOffset, thinArgs, hthick, Nat.one_mul, hbits, macroTileNumber]
    congr 1; omega
  have hslice : macroSliceOffset (thinArgs tm bpp x y) ⟨1, 1, 0, elemBytes⟩ = 0 := by
    simp [macroSliceOffset, thinArgs]
  have hquot :
      (macroTileNumber tm x y * (64 * bpp) + 0) / (2 * defaultProfile.banks) = 8 * bpp * macroTileNumber tm x y := by
    have hmul : macroTileNumber tm x y * (64 * bpp) + 0 = 8 * (8 * bpp * macroTileNumber tm x y) := by ring
    rw [hmul]
    exact Nat.mul_div_cancel_left _ (by decide)
  rw [macroTotalOffset_eq (by decide), htile, hslice, hquot]

theorem addressesBySlot_macro : AddressesBySlot tm bpp (256 / (bpp / 8)) (microTileNumber tm bpp) := by
  intro x hx y hy
  obtain ⟨h4, hthick, -⟩ := thinMacro_facts tm htm bpp hbpp
  have hb := swapBank_thin htm hbpp x y (bankPipe defaultProfile (thinArgs tm bpp x y) 0 / 2)
  have hr := addrMacro_ok (sampleSplit_thin htm hbpp x y) (by decide) hb
  rw [macroTotalOffset_thin htm hbpp] at hr
  refine (address_of_macroTiled _ (show 4 ≤ (thinArgs tm bpp x y).tileMode from h4)).trans (hr.trans ?_)
  rw [elementSlot, microTileNumber_div]
  congr 2
  · have hbank := swapBank_lt (by decide) (bankPipe_div_lt (by decide) _ _) hb
    exact macroByte_thin hbpp _ _ (Nat.mod_lt _ (by decide)) hbank
  · rw [macroElemBits_thin hthick]
    have h8 : ∀ bpp ∈ [64, 128], bpp % 8 = 0 := by decide
    rw [Nat.mul_mod, h8 bpp hbpp, Nat.zero_mul, Nat.zero_mod]

end ThinMacro

/-- Settles O36: the elements of a micro tile and the micro tiles of the surface are numbered, and a slot holds one of each. -/
theorem thinAddressesTileTheSurface : Obligations.ThinAddressesTileTheSurface := by
  intro tm htm bpp hbpp
  have hpix := pixelBits_numbersGrid bpp hbpp
  obtain ⟨g, tile, hg, htile, haddr⟩ :
      ∃ g tile, g ∈ [16, 32, 64] ∧ NumbersGrid tile ∧ AddressesBySlot tm bpp g tile := by
    rcases List.mem_cons.mp htm with rfl | htm
    · exact ⟨64, _, by decide, by decide +kernel, addressesBySlot_micro hbpp⟩
    · have hg : ∀ bpp ∈ [64, 128], 256 / (bpp / 8) ∈ [16, 32, 64] := by decide
      exact ⟨_, _, hg bpp hbpp, microTileNumber_numbersGrid tm htm bpp hbpp, addressesBySlot_macro htm hbpp⟩
  have hw : ∀ bpp ∈ [64, 128], bpp / 8 ≠ 0 := by decide
  have hlt (x : Nat) (hx : x < 64) (y : Nat) (hy : y < 64) := elementSlot_lt hg hpix htile hx hy
  have hsurj (m : Nat) (hm : m < 4096) := elementSlot_surjective hg hpix htile hm
  refine ⟨fun x hx y hy => ⟨_, hlt x hx y hy, haddr x hx y hy⟩, fun m hm => ?_, fun x hx y hy x' hx' y' hy' h => ?_⟩
  · obtain ⟨x, hx, y, hy, rfl⟩ := hsurj m hm
    exact ⟨x, hx, y, hy, haddr x hx y hy⟩
  · have heq := (haddr x hx y hy).symm.trans (h.trans (haddr x' hx' y' hy'))
    exact injective_of_fills hlt hsurj hx hy hx' hy' (by simpa [hw bpp hbpp] using heq)

end Sys2Proof.Machine
end

section
/-! Proofs about the tiling orchestrator (41_tiling_orchestrator.md): the descriptor checks, the shape of the four
commands on a tiled surface, the offset and buffer checks, the two retiles and their round trips. -/
namespace Sys2Proof.Machine

/-! ### The descriptor checks (R152) -/

/-- The format code is the value's low six bits (10_state.md R28). -/
theorem hwFormat_eq (f : Nat) : hwFormat f = f % 64 := Nat.and_two_pow_sub_one_eq_mod f 6

section Descriptor
variable {s : State} (hp : profileAdmitted s.cfg.profile = true)
include hp

theorem checkDescriptor_tileModeRange (h : 16 < s.num .dTileMode) : checkDescriptor s = .error .tileModeRange := by
  simp [checkDescriptor, hp, h]

variable (htm : s.num .dTileMode ≤ 16)
include htm

theorem checkDescriptor_formatUnknown (h : formatBppOf s.cfg (s.num .dFormat % 64) = none) :
    checkDescriptor s = .error .formatUnknown := by
  simp [checkDescriptor, hwFormat_eq, hp, Nat.not_lt.mpr htm, h]

variable {bpp : Nat} (hf : formatBppOf s.cfg (s.num .dFormat % 64) = some bpp)
include hf

theorem checkDescriptor_payloadBpp (h64 : bpp ≠ 64) (h128 : bpp ≠ 128) : checkDescriptor s = .error .payloadBpp := by
  simp [checkDescriptor, hwFormat_eq, hp, Nat.not_lt.mpr htm, hf, h64, h128]

variable (hbpp : bpp = 64 ∨ bpp = 128)
include hbpp

theorem checkDescriptor_of_bpp : checkDescriptor s =
    if s.num .dWidth = 0 ∨ s.num .dHeight = 0 then .error .emptySurface
    else if s.num .dPitch = 0 then .error .pitchZero
    else if s.num .dDepth ≠ 1 ∨ s.num .dSlices ≠ 1 ∨ s.num .dSamples ≠ 1 then .error .notSingle
    else .ok () := by
  have hb : ¬ (bpp ≠ 64 ∧ bpp ≠ 128) := by omega
  simp only [checkDescriptor, hwFormat_eq, hp, Nat.not_lt.mpr htm, hf, if_neg hb, Bool.true_eq_false, if_false]

theorem checkDescriptor_emptySurface (h : s.num .dWidth = 0 ∨ s.num .dHeight = 0) :
    checkDescriptor s = .error .emptySurface := by
  rw [checkDescriptor_of_bpp hp htm hf hbpp, if_pos h]

variable (hw : s.num .dWidth ≠ 0) (hh : s.num .dHeight ≠ 0)
include hw hh

theorem checkDescriptor_pitchZero (h : s.num .dPitch = 0) : checkDescriptor s = .error .pitchZero := by
  rw [checkDescriptor_of_bpp hp htm hf hbpp, if_neg (not_or.mpr ⟨hw, hh⟩), if_pos h]

variable (hpitch : s.num .dPitch ≠ 0)
include hpitch

theorem checkDescriptor_notSingle (h : s.num .dDepth ≠ 1 ∨ s.num .dSlices ≠ 1 ∨ s.num .dSamples ≠ 1) :
    checkDescriptor s = .error .notSingle := by
  rw [checkDescriptor_of_bpp hp htm hf hbpp, if_neg (not_or.mpr ⟨hw, hh⟩), if_neg hpitch, if_pos h]

theorem checkDescriptor_ok (hd : s.num .dDepth = 1) (hsl : s.num .dSlices = 1) (hsa : s.num .dSamples = 1) :
    checkDescriptor s = .ok () := by
  rw [checkDescriptor_of_bpp hp htm hf hbpp, if_neg (not_or.mpr ⟨hw, hh⟩), if_neg hpitch,
    if_neg (by simp [hd, hsl, hsa])]

end Descriptor

/-- What the later steps use of a descriptor that passes. -/
theorem facts_of_checkDescriptor {s : State} (h : checkDescriptor s = .ok ()) :
    profileAdmitted s.cfg.profile = true ∧ (surfaceBpp s = 64 ∨ surfaceBpp s = 128) := by
  unfold checkDescriptor at h
  split at h
  · cases h
  · next hp =>
    split at h
    · cases h
    · split at h
      · cases h
      · next bpp hf =>
        split at h
        · cases h
        · next hb =>
          rw [surfaceBpp, hf, Option.getD_some]
          exact ⟨by simpa using hp, by omega⟩

theorem checkBc3_notBc3 {s : State} (h : s.num .dFormat % 64 ≠ 0x33) : checkBc3 s = .error .notBc3 :=
  if_pos (by rwa [hwFormat_eq])

theorem checkBc3_ok {s : State} (h : s.num .dFormat % 64 = 0x33) : checkBc3 s = .ok () :=
  if_neg (by rw [hwFormat_eq, h]; decide)

/-! ### The shape of the four commands on a tiled surface (R154, R155, 43_pipeline.md R221, R222) -/

/-- The shape of a command on a tiled surface: the descriptor checks, the codec's format test, the offset pass, the
buffer checks, the moves or codings, and the delivery. -/
def runTiled (s : State) (format : Except Cause Unit) (payload srcNeed dstNeed : Nat)
    (body : List PlacedBlock → Except Fault Memory) : Result :=
  orRaise s (checkDescriptor s) fun _ => orRaise s format fun _ => orRaise s (placeBlocks s payload) fun placed =>
    orRaise s (checkTiled s payload srcNeed dstNeed placed) fun _ =>
    orFault (body placed) fun dst => .next (s.deliver dst dstNeed)

theorem exec_retileToLinear (s : State) : exec .retileToLinear s =
    runTiled s (.ok ()) (payloadSize s) (s.num .dDataSize) (blocksWide s * blocksHigh s * payloadSize s) fun placed =>
      movePayloads s.src (payloadSize s) s.dst
        (placed.map fun p => (p.offset, linearOffset s (payloadSize s) p.block)) := rfl

theorem exec_retileToTiled (s : State) : exec .retileToTiled s =
    runTiled s (.ok ()) (payloadSize s) (blocksWide s * blocksHigh s * payloadSize s) (s.num .dDataSize) fun placed =>
      movePayloads s.src (payloadSize s) (zeroFill s.dst (s.num .dDataSize))
        (placed.map fun p => (linearOffset s (payloadSize s) p.block, p.offset)) := rfl

theorem exec_decodeSurface (s : State) : exec .decodeSurface s =
    runTiled s (checkBc3 s) 16 (s.num .dDataSize) (imageBytes s) (decodeAll s) := rfl

theorem exec_encodeSurface (s : State) : exec .encodeSurface s =
    runTiled s (checkBc3 s) 16 (imageBytes s) (s.num .dDataSize)
      (encodeAll s (zeroFill s.dst (s.num .dDataSize))) := rfl

theorem exec_eq_runTiled {i : Instr} (hi : i ∈ [Instr.retileToLinear, .retileToTiled, .decodeSurface, .encodeSurface])
    (s : State) : ∃ format payload srcNeed dstNeed body, exec i s = runTiled s format payload srcNeed dstNeed body := by
  simp only [List.mem_cons, List.not_mem_nil, or_false] at hi
  rcases hi with rfl | rfl | rfl | rfl
  · exact ⟨_, _, _, _, _, exec_retileToLinear s⟩
  · exact ⟨_, _, _, _, _, exec_retileToTiled s⟩
  · exact ⟨_, _, _, _, _, exec_decodeSurface s⟩
  · exact ⟨_, _, _, _, _, exec_encodeSurface s⟩

theorem raises_of_checkDescriptor_error {i : Instr}
    (hi : i ∈ [Instr.retileToLinear, .retileToTiled, .decodeSurface, .encodeSurface]) {s : State} {c : Cause}
    (h : checkDescriptor s = .error c) : Raises s i c := by
  obtain ⟨format, payload, srcNeed, dstNeed, body, hr⟩ := exec_eq_runTiled hi s
  rw [Raises, hr, runTiled, h, orRaise_error]
  rfl

section RunTiled
variable {s : State} {payload srcNeed dstNeed : Nat} {body : List PlacedBlock → Except Fault Memory}

theorem runTiled_of_format_error {c : Cause} (hd : checkDescriptor s = .ok ()) :
    runTiled s (.error c) payload srcNeed dstNeed body = .next (s.raise c) := by
  rw [runTiled, hd, orRaise_ok, orRaise_error]

theorem runTiled_of_place_error {c : Cause} (hd : checkDescriptor s = .ok ()) (hp : placeBlocks s payload = .error c) :
    runTiled s (.ok ()) payload srcNeed dstNeed body = .next (s.raise c) := by
  rw [runTiled, hd, orRaise_ok, orRaise_ok, hp, orRaise_error]

theorem runTiled_of_placed {placed : List PlacedBlock} (hd : checkDescriptor s = .ok ())
    (hp : placeBlocks s payload = .ok placed) : runTiled s (.ok ()) payload srcNeed dstNeed body =
      orRaise s (checkTiled s payload srcNeed dstNeed placed) fun _ =>
        orFault (body placed) fun dst => .next (s.deliver dst dstNeed) := by
  rw [runTiled, hd, orRaise_ok, orRaise_ok, hp, orRaise_ok]

theorem exists_of_orRaise_ok {α : Type} {r : Except Cause α} {k : α → Result} {t : State}
    (h : orRaise s r k = .next t) (h0 : statusCode t.status = 0) : ∃ a, r = .ok a ∧ k a = .next t := by
  cases r with
  | error c => cases h; exact absurd h0 (by simpa using c.code_ne_zero)
  | ok a => exact ⟨a, rfl, h⟩

/-- A command on a tiled surface that answers OK passed its checks and delivered. -/
theorem exists_of_runTiled_ok {format : Except Cause Unit} {t : State}
    (h : runTiled s format payload srcNeed dstNeed body = .next t) (h0 : statusCode t.status = 0) :
    checkDescriptor s = .ok () ∧ ∃ placed, placeBlocks s payload = .ok placed ∧
      checkTiled s payload srcNeed dstNeed placed = .ok () ∧ ∃ d, t = s.deliver d dstNeed := by
  obtain ⟨_, hd, h⟩ := exists_of_orRaise_ok h h0
  obtain ⟨_, -, h⟩ := exists_of_orRaise_ok h h0
  obtain ⟨placed, hp, h⟩ := exists_of_orRaise_ok h h0
  obtain ⟨_, hc, h⟩ := exists_of_orRaise_ok h h0
  cases hb : body placed with
  | error f => rw [hb] at h; cases h
  | ok d => rw [hb] at h; cases h; exact ⟨hd, placed, hp, hc, d, rfl⟩

end RunTiled

theorem raises_notBc3 {i : Instr} (hi : i = .decodeSurface ∨ i = .encodeSurface) {s : State}
    (hd : checkDescriptor s = .ok ()) (h : s.num .dFormat % 64 ≠ 0x33) : Raises s i .notBc3 := by
  rcases hi with rfl | rfl
  · rw [Raises, exec_decodeSurface, checkBc3_notBc3 h, runTiled_of_format_error hd]; rfl
  · rw [Raises, exec_encodeSurface, checkBc3_notBc3 h, runTiled_of_format_error hd]; rfl

/-- Settles O39: each clause's descriptor fails the test that reports it and none before it. -/
theorem descriptorErrorsInOrder : Obligations.DescriptorErrorsInOrder := by
  intro s i hi fails
  have hdesc (c : Cause) (h : checkDescriptor s = .error c) : Raises s i c := raises_of_checkDescriptor_error hi h
  refine ⟨fun hp => ?_, fun hp => ⟨fun h => ?_, fun htm h => ?_, fun bpp htm hf => ⟨fun h64 h128 => ?_, fun hb =>
    ⟨fun h => ?_, fun hw hh => ⟨fun h => ?_, fun hpitch h => ?_, fun hpitch hd hsl hsa hcodec hbc3 => ?_⟩⟩⟩⟩⟩
  · exact hdesc .profileNotAdmitted (checkDescriptor_of_unadmitted hp)
  · exact hdesc .tileModeRange (checkDescriptor_tileModeRange hp h)
  · exact hdesc .formatUnknown (checkDescriptor_formatUnknown hp htm h)
  · exact hdesc .payloadBpp (checkDescriptor_payloadBpp hp htm hf h64 h128)
  · exact hdesc .emptySurface (checkDescriptor_emptySurface hp htm hf hb h)
  · exact hdesc .pitchZero (checkDescriptor_pitchZero hp htm hf hb hw hh h)
  · exact hdesc .notSingle (checkDescriptor_notSingle hp htm hf hb hw hh hpitch h)
  · have hok := checkDescriptor_ok hp htm hf hb hw hh hpitch hd hsl hsa
    exact raises_notBc3 hcodec hok hbc3

/-! ### The offset pass and the buffer checks (R153, R156) -/

/-- A traversal ends in the error of the first element that has one (00_scope.md R12). -/
theorem traverseExcept_of_first_error {ε α β : Type} {f : α → Except ε β} {l₁ l₂ : List α} {a : α} {e : ε}
    (hl : ∀ x ∈ l₁, ∃ b, f x = .ok b) (ha : f a = .error e) : traverseExcept f (l₁ ++ a :: l₂) = .error e := by
  induction l₁ with
  | nil => simp [traverseExcept, ha]
  | cons x xs ih =>
    obtain ⟨b, hb⟩ := hl x (by simp)
    simp [traverseExcept, hb, ih fun y hy => hl y (by simp [hy])]

theorem range_eq_append_cons {n N : Nat} (h : n < N) :
    List.range N = List.range n ++ n :: List.range' (n + 1) (N - (n + 1)) := by
  obtain ⟨k, rfl⟩ := Nat.exists_eq_add_of_lt h
  rw [Nat.add_assoc, List.range_eq_range', List.range_eq_range', ← List.range'_append_1, Nat.zero_add, List.range'_succ]
  congr 3
  omega

/-- The offset pass ends in the error of the first block, in row-major order, whose offset is one (R156). -/
theorem placeBlocks_of_first_error {s : State} {payload n : Nat} {c : Cause} (hn : n < blocksWide s * blocksHigh s)
    (hbefore : ∀ m < n, ∃ o, tiledOffset s payload (nthBlock s m) = .ok o)
    (hc : tiledOffset s payload (nthBlock s n) = .error c) : placeBlocks s payload = .error c := by
  rw [placeBlocks, blockGrid_eq, range_eq_append_cons hn, List.map_append, List.map_cons]
  refine traverseExcept_of_first_error (fun b hb => ?_) (by rw [placeBlock, hc])
  obtain ⟨m, hm, rfl⟩ := List.mem_map.mp hb
  obtain ⟨o, ho⟩ := hbefore m (List.mem_range.mp hm)
  exact ⟨⟨nthBlock s m, o⟩, by rw [placeBlock, ho]⟩

section BufferChecks
variable {s : State} {payload srcNeed dstNeed : Nat} {placed : List PlacedBlock}

theorem checkTiled_srcShort (h : s.num .srcLen < srcNeed) :
    checkTiled s payload srcNeed dstNeed placed = .error .srcShort := by
  simp [checkTiled, checkBuffers, h]

variable (hsrc : srcNeed ≤ s.num .srcLen)
include hsrc

theorem checkTiled_dstShort (h : s.num .dstCap < dstNeed) :
    checkTiled s payload srcNeed dstNeed placed = .error .dstShort := by
  simp [checkTiled, checkBuffers, Nat.not_lt.mpr hsrc, h]

theorem checkTiled_tiledRange (hdst : dstNeed ≤ s.num .dstCap) {p : PlacedBlock} (hp : p ∈ placed)
    (h : s.num .dDataSize < p.offset + payload) : checkTiled s payload srcNeed dstNeed placed = .error .tiledRange := by
  have hany : placed.any (fun p => decide (s.num .dDataSize < p.offset + payload)) = true :=
    List.any_eq_true.mpr ⟨p, hp, decide_eq_true h⟩
  simp [checkTiled, checkBuffers, Nat.not_lt.mpr hsrc, Nat.not_lt.mpr hdst, hany]

end BufferChecks

/-- The blocks of the grid in row-major order at given offsets. -/
abbrev blocksAt (s : State) (off : Nat → Nat) : List PlacedBlock :=
  (List.range (blocksWide s * blocksHigh s)).map fun n => { block := nthBlock s n, offset := off n }

theorem mem_blocksAt {s : State} (off : Nat → Nat) {n : Nat} (hn : n < blocksWide s * blocksHigh s) :
    ⟨nthBlock s n, off n⟩ ∈ blocksAt s off := List.mem_map.mpr ⟨n, List.mem_range.mpr hn, rfl⟩

/-- Settles O40: the offset pass precedes the buffer checks, which come in order. -/
theorem offsetAndBufferErrorsInOrder : Obligations.OffsetAndBufferErrorsInOrder := by
  intro s i payload srcNeed dstNeed hd hi
  obtain ⟨body, hrun⟩ : ∃ body, exec i s = runTiled s (.ok ()) payload srcNeed dstNeed body := by
    rcases hi with ⟨rfl, rfl, rfl, rfl⟩ | ⟨rfl, rfl, rfl, rfl⟩ | ⟨rfl, rfl, rfl, rfl, hf⟩ | ⟨rfl, rfl, rfl, rfl, hf⟩
    · exact ⟨_, exec_retileToLinear s⟩
    · exact ⟨_, exec_retileToTiled s⟩
    · exact ⟨_, checkBc3_ok hf ▸ exec_decodeSurface s⟩
    · exact ⟨_, checkBc3_ok hf ▸ exec_encodeSurface s⟩
  refine ⟨fun n c hn hbefore hc => ?_, fun off hoff => ?_⟩
  · exact hrun.trans (runTiled_of_place_error hd (placeBlocks_of_first_error hn hbefore hc))
  · have hplaced := hrun.trans (runTiled_of_placed hd (placeBlocks_eq_ok s payload off hoff))
    refine ⟨fun hsrc => ?_, fun hsrc hdst => ?_, fun hsrc hdst ⟨n, hn, hrange⟩ => ?_⟩
    · rw [hplaced, checkTiled_srcShort hsrc]; rfl
    · rw [hplaced, checkTiled_dstShort hsrc hdst]; rfl
    · rw [hplaced, checkTiled_tiledRange hsrc hdst (mem_blocksAt off hn) hrange]; rfl

/-! ### The bit offset of a block (R153) -/

/-- An element of whole bytes, at sample 0, starts at a byte in every class. -/
theorem address_bit {c : Config} (hp : profileAdmitted c.profile = true) {a : AddrArgs} (h8 : 8 ∣ a.bpp)
    (hsample : a.sample = 0) {r : BitAddress} (hr : address c a = .ok r) : r.bit = 0 := by
  have hmul (k : Nat) : a.bpp * k % 8 = 0 := Nat.mod_eq_zero_of_dvd (Dvd.dvd.mul_right h8 k)
  unfold address at hr
  split at hr
  · cases hr; exact hmul _
  · cases hr; exact hmul _
  · obtain ⟨sp, bank, hs, hb⟩ := exists_of_addrMacro_ok hr
    rw [addrMacro_ok hs hp hb] at hr
    cases hr
    rw [macroElemBits, hsample, Nat.zero_mul, Nat.add_zero]
    exact hmul _

/-- Settles O41: a payload is 64 or 128 bits, so every class's bit address is a multiple of 8. -/
theorem tiledOffsetsHaveNoBitPart : Obligations.TiledOffsetsHaveNoBitPart := by
  intro s b r hd hr
  obtain ⟨hp, hbpp⟩ := facts_of_checkDescriptor hd
  have h8 : 8 ∣ surfaceBpp s := by omega
  exact address_bit hp h8 rfl hr

/-! ### Blocks moved in row-major order (R154, R155, R157) -/

theorem length_srcBytes (src : Memory) (a n : Nat) : (srcBytes src a n).length = n := by simp

section Moves
variable (src dst : Memory) (payload count : Nat) (source target : Nat → Nat)

/-- The moves of blocks 0, 1, ..., each from its source offset to its target. -/
abbrev blockMoves : List (Nat × Nat) := (List.range count).map fun n => (source n, target n)

/-- `DST` after the moves of blocks whose bytes all hold a value. -/
def movedBlocks : Memory := writesOf target (fun n => srcBytes src (source n) payload) dst (List.range count)

variable {src dst payload count source target}

theorem movePayloads_blockMoves (h : ∀ n < count, ∀ j < payload, (src.read (source n + j)).isSome) :
    movePayloads src payload dst (blockMoves count source target)
      = .ok (movedBlocks src dst payload count source target) := by
  rw [movePayloads_eq_ok, writesOf, List.foldl_map, movedBlocks]
  intro mv hmv
  obtain ⟨n, hn, rfl⟩ := List.mem_map.mp hmv
  exact h n (List.mem_range.mp hn)

theorem movePayloads_blockMoves_stops {n j : Nat} (hn : n < count) (hj : j < payload)
    (hnone : src.read (source n + j) = none) : ∃ m < count, ∃ k < payload, src.read (source m + k) = none ∧
      movePayloads src payload dst (blockMoves count source target) = .error (.srcUnwritten (source m + k)) := by
  have hmem : (source n, target n) ∈ blockMoves count source target :=
    List.mem_map.mpr ⟨n, List.mem_range.mpr hn, rfl⟩
  obtain ⟨mv, hmv, k, hk, herr, hr⟩ := movePayloads_stops src payload dst _ hmem hj hnone
  obtain ⟨m, hm, rfl⟩ := List.mem_map.mp hmv
  exact ⟨m, List.mem_range.mp hm, k, hk, hr, herr⟩

/-- A byte that no later block covers is the byte of its block. -/
theorem read_movedBlocks_last {n j : Nat} (hn : n < count) (hj : j < payload)
    (hsome : (src.read (source n + j)).isSome)
    (hlater : ∀ m, n < m → m < count → target n + j < target m ∨ target m + payload ≤ target n + j) :
    (movedBlocks src dst payload count source target).read (target n + j) = src.read (source n + j) := by
  rw [movedBlocks, range_eq_append_cons hn, read_writesOf_last, Nat.add_sub_cancel_left,
    srcBytes_getElem? src (source n) payload j hj hsome]
  · rw [length_srcBytes]
    omega
  · intro m hm
    obtain ⟨h1, h2⟩ := List.mem_range'_1.mp hm
    have := hlater m (by omega) (by omega)
    rw [length_srcBytes]
    omega

theorem read_movedBlocks_uncovered {a : Nat} (h : ∀ n < count, a < target n ∨ target n + payload ≤ a) :
    (movedBlocks src dst payload count source target).read a = dst.read a := by
  rw [movedBlocks, read_writesOf_uncovered]
  intro n hn
  have := h n (List.mem_range.mp hn)
  rw [length_srcBytes]
  omega

end Moves

theorem read_zeroFill_of_lt (m : Memory) {n a : Nat} (h : a < n) : (zeroFill m n).read a = some 0 := by
  simp [zeroFill, Memory.read_writeBytes, h]

/-- Blocks at different multiples of the payload do not overlap. -/
theorem apart_of_dvd {payload x y j : Nat} (hx : payload ∣ x) (hy : payload ∣ y) (hne : x ≠ y) (hj : j < payload) :
    x + j < y ∨ y + payload ≤ x + j := by
  by_contra hover
  have hyx : y ≤ x := Nat.le_of_lt_add_of_dvd (by omega) hy hx
  have hxy : x ≤ y := Nat.le_of_lt_add_of_dvd (by omega) hx hy
  exact hne (Nat.le_antisymm hxy hyx)

/-- Blocks of the linear array do not overlap (R150). -/
theorem linear_apart {payload n m j : Nat} (h : n < m) (hj : j < payload) :
    n * payload + j < m * payload ∨ m * payload + payload ≤ n * payload + j :=
  apart_of_dvd (Nat.dvd_mul_left ..) (Nat.dvd_mul_left ..)
    (fun heq => absurd (Nat.eq_of_mul_eq_mul_right (by omega) heq) (by omega)) hj

theorem linear_end_le {n count : Nat} (h : n < count) (payload : Nat) : n * payload + payload ≤ count * payload := by
  rw [← Nat.succ_mul]
  exact Nat.mul_le_mul_right payload h

theorem linear_lt {n count payload j : Nat} (hn : n < count) (hj : j < payload) :
    n * payload + j < count * payload := by
  have := linear_end_le hn payload
  omega

/-- A byte of the linear array is a byte of one block. -/
theorem exists_block_of_lt {payload count a : Nat} (h : a < count * payload) :
    ∃ n < count, ∃ j < payload, a = n * payload + j :=
  have hpos : 0 < payload := Nat.pos_of_ne_zero (by rintro rfl; simp at h)
  ⟨a / payload, Nat.div_lt_of_lt_mul (by rwa [Nat.mul_comm]), a % payload, Nat.mod_lt _ hpos,
    (Nat.div_add_mod' a payload).symm⟩

/-! ### The two retiles (R154, R155) -/

section Retile
variable {s : State} {off : Nat → Nat} (hd : checkDescriptor s = .ok ())
  (hoff : ∀ n < blocksWide s * blocksHigh s,
    tiledOffset s (payloadSize s) (nthBlock s n) = .ok (off n) ∧ off n + payloadSize s ≤ s.num .dDataSize)
include hd hoff

theorem runTiled_of_checks {srcNeed dstNeed : Nat} (hsrc : srcNeed ≤ s.num .srcLen) (hdst : dstNeed ≤ s.num .dstCap)
    (body : List PlacedBlock → Except Fault Memory) :
    runTiled s (.ok ()) (payloadSize s) srcNeed dstNeed body
      = orFault (body (blocksAt s off)) fun dst => .next (s.deliver dst dstNeed) := by
  have hcheck : checkTiled s (payloadSize s) srcNeed dstNeed (blocksAt s off) = .ok () := by
    refine checkTiled_eq_ok_iff.mpr ⟨hsrc, hdst, fun p hp => ?_⟩
    obtain ⟨n, hn, rfl⟩ := List.mem_map.mp hp
    exact (hoff n (List.mem_range.mp hn)).2
  rw [runTiled_of_placed hd (placeBlocks_eq_ok s _ off fun n hn => (hoff n hn).1), hcheck, orRaise_ok]

theorem exec_retileToLinear_of_checks (hsrc : s.num .dDataSize ≤ s.num .srcLen)
    (hdst : blocksWide s * blocksHigh s * payloadSize s ≤ s.num .dstCap) : exec .retileToLinear s =
      orFault (movePayloads s.src (payloadSize s) s.dst
        (blockMoves (blocksWide s * blocksHigh s) off (· * payloadSize s)))
        fun dst => .next (s.deliver dst (blocksWide s * blocksHigh s * payloadSize s)) := by
  rw [exec_retileToLinear, runTiled_of_checks hd hoff hsrc hdst, List.map_map]
  congr 2
  exact List.map_congr_left fun n _ => Prod.ext rfl (linearOffset_nthBlock s _ n)

theorem exec_retileToTiled_of_checks (hsrc : blocksWide s * blocksHigh s * payloadSize s ≤ s.num .srcLen)
    (hdst : s.num .dDataSize ≤ s.num .dstCap) : exec .retileToTiled s =
      orFault (movePayloads s.src (payloadSize s) (zeroFill s.dst (s.num .dDataSize))
        (blockMoves (blocksWide s * blocksHigh s) (· * payloadSize s) off))
        fun dst => .next (s.deliver dst (s.num .dDataSize)) := by
  rw [exec_retileToTiled, runTiled_of_checks hd hoff hsrc hdst, List.map_map]
  congr 2
  exact List.map_congr_left fun n _ => Prod.ext (linearOffset_nthBlock s _ n) rfl

end Retile

/-- A delivery answers OK, keeps the inputs, and its length reads back where a 32-bit register holds it. -/
theorem deliver_facts (s : State) (d : Memory) {n : Nat} (hn : n ≤ s.num .dstCap) :
    StatusIsOk (s.deliver d n) ∧ (s.deliver d n).res.len.val.toNat = n ∧ KeepsInputs s (s.deliver d n) := by
  have hlt : n < 2 ^ 32 := Nat.lt_of_le_of_lt hn (s.opr.get .dstCap).val.isLt
  exact ⟨by simp [StatusIsOk], by simpa using hlt, by simp [KeepsInputs]⟩

/-- Settles O42: the moves land at different multiples of the payload, so each block is the last to cover its bytes. -/
theorem retileToLinearCopiesEveryBlock : Obligations.RetileToLinearCopiesEveryBlock := by
  intro s off hd hoff hsrc hdst
  have hexec := exec_retileToLinear_of_checks hd hoff hsrc hdst
  refine ⟨fun hsome => ?_, fun n hn j hj hnone => ?_⟩
  · rw [movePayloads_blockMoves hsome, orFault_ok] at hexec
    obtain ⟨hok, hlen, hkeeps⟩ := deliver_facts s _ hdst
    refine ⟨_, hexec, hok, hlen, hkeeps, fun n hn j hj => ?_, fun a ha => ?_⟩
    · exact read_movedBlocks_last hn hj (hsome n hn j hj) fun m hm _ => linear_apart hm hj
    · exact read_movedBlocks_uncovered fun n hn => .inr (Nat.le_trans (linear_end_le hn _) ha)
  · obtain ⟨m, hm, k, hk, hr, herr⟩ := movePayloads_blockMoves_stops hn hj hnone
    exact ⟨m, hm, k, hk, hr, by rw [hexec, herr, orFault_error]⟩

/-- Settles O43: the moves follow the zero fill, so a byte is its last block's, or 0. -/
theorem retileToTiledPlacesEveryBlock : Obligations.RetileToTiledPlacesEveryBlock := by
  intro s off hd hoff hsrc hdst
  have hexec := exec_retileToTiled_of_checks hd hoff hsrc hdst
  refine ⟨fun hsome => ?_, fun a ha hnone => ?_⟩
  · rw [movePayloads_blockMoves fun n hn j hj => hsome _ (linear_lt hn hj), orFault_ok] at hexec
    obtain ⟨hok, hlen, hkeeps⟩ := deliver_facts s _ hdst
    refine ⟨_, hexec, hok, hlen, hkeeps, fun n hn j hj hlater => ?_, fun a ha huncovered => ?_, fun a ha => ?_⟩
    · exact read_movedBlocks_last hn hj (hsome _ (linear_lt hn hj)) hlater
    · exact (read_movedBlocks_uncovered huncovered).trans (read_zeroFill_of_lt _ ha)
    · have houtside := read_movedBlocks_uncovered (src := s.src) (source := (· * payloadSize s)) (target := off)
        (dst := zeroFill s.dst (s.num .dDataSize)) fun n hn => .inr (Nat.le_trans (hoff n hn).2 ha)
      exact houtside.trans (agreeFrom_zeroFill _ _ a ha)
  · obtain ⟨n, hn, j, hj, rfl⟩ := exists_block_of_lt ha
    obtain ⟨m, hm, k, hk, hr, herr⟩ :=
      movePayloads_blockMoves_stops (source := (· * payloadSize s)) hn hj hnone
    exact ⟨m * payloadSize s + k, linear_lt hm hk, hr, by rw [hexec, herr, orFault_error]⟩

/-! ### The round trips (R158) -/

/-- The state in which the host starts a second command on the first's `DST`, given as `SRC`. -/
def State.feedBack (t : State) (scratch : Memory) (len cap : Word) : State :=
  ((t.withSrc t.dst).withDst scratch).withOpr ((t.opr.set .srcLen len).set .dstCap cap)

/-! The second command has the descriptor and the configuration of the first, and so its grid and its offsets. -/

section FeedBack
variable (s : State) (d scratch : Memory) (k : Nat) (len cap : Word)

@[simp] theorem src_feedBack (t : State) : (t.feedBack scratch len cap).src = t.dst := rfl
@[simp] theorem dDataSize_feedBack :
    ((s.deliver d k).feedBack scratch len cap).num .dDataSize = s.num .dDataSize := rfl
@[simp] theorem blocksWide_feedBack : blocksWide ((s.deliver d k).feedBack scratch len cap) = blocksWide s := rfl
@[simp] theorem blocksHigh_feedBack : blocksHigh ((s.deliver d k).feedBack scratch len cap) = blocksHigh s := rfl
@[simp] theorem payloadSize_feedBack : payloadSize ((s.deliver d k).feedBack scratch len cap) = payloadSize s := rfl
@[simp] theorem tiledOffset_feedBack (payload : Nat) (b : Nat × Nat) :
    tiledOffset ((s.deliver d k).feedBack scratch len cap) payload b = tiledOffset s payload b := rfl

end FeedBack

section RoundTrip
variable {s t : State} {off : Nat → Nat}
  (hoff : ∀ n < blocksWide s * blocksHigh s, tiledOffset s (payloadSize s) (nthBlock s n) = .ok (off n))
include hoff

/-- What a command's checks gave where it answered OK. -/
theorem checks_of_runTiled_ok {format : Except Cause Unit} {srcNeed dstNeed : Nat}
    {body : List PlacedBlock → Except Fault Memory}
    (h : runTiled s format (payloadSize s) srcNeed dstNeed body = .next t) (h0 : statusCode t.status = 0) :
    checkDescriptor s = .ok () ∧
      (∀ n < blocksWide s * blocksHigh s,
        tiledOffset s (payloadSize s) (nthBlock s n) = .ok (off n) ∧ off n + payloadSize s ≤ s.num .dDataSize) ∧
      srcNeed ≤ s.num .srcLen ∧ dstNeed ≤ s.num .dstCap ∧ ∃ d, t = s.deliver d dstNeed := by
  obtain ⟨hd, placed, hp, hc, hdel⟩ := exists_of_runTiled_ok h h0
  cases (placeBlocks_eq_ok s _ off hoff).symm.trans hp
  obtain ⟨hsrc, hdst, hrange⟩ := checkTiled_eq_ok_iff.mp hc
  exact ⟨hd, fun n hn => ⟨hoff n hn, hrange _ (mem_blocksAt off hn)⟩, hsrc, hdst, hdel⟩

/-- A RETILE_TO_LINEAR that answers OK copied every block, from bytes that all hold a value. -/
theorem retileToLinear_ok (h : exec .retileToLinear s = .next t) (h0 : StatusIsOk t) :
    (∃ d n, t = s.deliver d n) ∧
      ∀ n < blocksWide s * blocksHigh s, ∀ j < payloadSize s,
        t.dst.read (n * payloadSize s + j) = s.src.read (off n + j) := by
  obtain ⟨hd, hplaced, hsrc, hdst, d, hdel⟩ := checks_of_runTiled_ok hoff (exec_retileToLinear s ▸ h) h0.1
  obtain ⟨hruns, hstops⟩ := retileToLinearCopiesEveryBlock s off hd hplaced hsrc hdst
  have hsome : ∀ n < blocksWide s * blocksHigh s, ∀ j < payloadSize s, (s.src.read (off n + j)).isSome := by
    intro n hn j hj
    by_contra hnone
    obtain ⟨m, -, k, -, -, hf⟩ := hstops n hn j hj (by simpa using hnone)
    cases h.symm.trans hf
  obtain ⟨t', ht', -, -, -, hcopies, -⟩ := hruns hsome
  cases h.symm.trans ht'
  exact ⟨⟨d, _, hdel⟩, hcopies⟩

/-- A RETILE_TO_TILED that answers OK at distinct multiples of the payload placed every block, and 0 elsewhere. -/
theorem retileToTiled_ok (hdvd : ∀ n < blocksWide s * blocksHigh s, payloadSize s ∣ off n)
    (hne : ∀ m n, m < n → n < blocksWide s * blocksHigh s → off m ≠ off n)
    (h : exec .retileToTiled s = .next t) (h0 : StatusIsOk t) :
    (∃ d n, t = s.deliver d n) ∧
      (∀ n < blocksWide s * blocksHigh s, ∀ j < payloadSize s,
        t.dst.read (off n + j) = s.src.read (n * payloadSize s + j)) ∧
      ∀ a < s.num .dDataSize, (∀ n < blocksWide s * blocksHigh s, ¬ (off n ≤ a ∧ a < off n + payloadSize s)) →
        t.dst.read a = some 0 := by
  obtain ⟨hd, hplaced, hsrc, hdst, d, hdel⟩ := checks_of_runTiled_ok hoff (exec_retileToTiled s ▸ h) h0.1
  obtain ⟨hruns, hstops⟩ := retileToTiledPlacesEveryBlock s off hd hplaced hsrc hdst
  have hsome : ∀ a < blocksWide s * blocksHigh s * payloadSize s, (s.src.read a).isSome := by
    intro a ha
    by_contra hnone
    obtain ⟨e, -, -, hf⟩ := hstops a ha (by simpa using hnone)
    cases h.symm.trans hf
  obtain ⟨t', ht', -, -, -, hplaces, hzero, -⟩ := hruns hsome
  cases h.symm.trans ht'
  refine ⟨⟨d, _, hdel⟩, fun n hn j hj => hplaces n hn j hj fun m hm hmN => ?_, fun a ha huncovered => ?_⟩
  · exact apart_of_dvd (hdvd n hn) (hdvd m hmN) (hne n m hm hmN) hj
  · exact hzero a ha fun n hn => by have := huncovered n hn; omega

end RoundTrip

/-- Settles O44: byte j of block n goes to its tiled offset and back. -/
theorem retileRoundTripFromLinear : Obligations.RetileRoundTripFromLinear := by
  intro s off t u scratch len cap hoff hne ht htok hu huok a ha
  have hoffsets := fun n hn => (hoff n hn).1
  have hdvd := fun n hn => (hoff n hn).2
  obtain ⟨⟨d, k, rfl⟩, hplaces, -⟩ := retileToTiled_ok hoffsets hdvd hne ht htok
  have hback := retileToLinear_ok (s := (s.deliver d k).feedBack scratch len cap) (off := off) (t := u)
  simp only [nthBlock, blocksWide_feedBack, blocksHigh_feedBack, payloadSize_feedBack, tiledOffset_feedBack,
    src_feedBack] at hback
  obtain ⟨-, hcopies⟩ := hback hoffsets hu huok
  obtain ⟨n, hn, j, hj, rfl⟩ := exists_block_of_lt ha
  exact (hcopies n hn j hj).trans (hplaces n hn j hj)

/-- Settles O45: byte j of block n goes to the linear array and back; a byte of no block is left at 0. -/
theorem retileRoundTripFromTiled : Obligations.RetileRoundTripFromTiled := by
  intro s off t u scratch len cap hoff hne ht htok hu huok a ha
  have hoffsets := fun n hn => (hoff n hn).1
  have hdvd := fun n hn => (hoff n hn).2
  obtain ⟨⟨d, k, rfl⟩, hcopies⟩ := retileToLinear_ok hoffsets ht htok
  have hback := retileToTiled_ok (s := (s.deliver d k).feedBack scratch len cap) (off := off) (t := u)
  simp only [nthBlock, blocksWide_feedBack, blocksHigh_feedBack, payloadSize_feedBack, tiledOffset_feedBack,
    src_feedBack, dDataSize_feedBack] at hback
  obtain ⟨-, hplaces, hzero⟩ := hback hoffsets hdvd hne hu huok
  refine ⟨fun ⟨n, hn, hlow, hhigh⟩ => ?_, hzero a ha⟩
  obtain ⟨j, rfl⟩ := Nat.exists_eq_add_of_le hlow
  have hj : j < payloadSize s := by omega
  exact (hplaces n hn j hj).trans (hcopies n hn j hj)

end Sys2Proof.Machine
end

section
/-! Proofs about the block codec (42_block_codec.md): the palettes and endpoints, the nearest-entry scan, the fields of an
emitted block, and the two block commands. -/
namespace Sys2Proof.Machine

/-! ### 565 words (R171, R172) -/

theorem bitsAt_lt (v hi lo : Nat) : bitsAt v hi lo < 2 ^ (hi + 1 - lo) := Nat.mod_lt _ (Nat.two_pow_pos _)

/-- The bits a replication adds lie below the ones it keeps. -/
theorem expand5_shiftRight {v : Nat} (h : v < 32) : expand5 v >>> 3 = v := by
  have hlow : v >>> 2 >>> 3 = 0 := by simp only [Nat.shiftRight_eq_div_pow]; omega
  rw [expand5, Nat.shiftRight_or_distrib, hlow, Nat.or_zero, Nat.shiftLeft_shiftRight]

theorem expand6_shiftRight {v : Nat} (h : v < 64) : expand6 v >>> 2 = v := by
  have hlow : v >>> 4 >>> 2 = 0 := by simp only [Nat.shiftRight_eq_div_pow]; omega
  rw [expand6, Nat.shiftRight_or_distrib, hlow, Nat.or_zero, Nat.shiftLeft_shiftRight]

theorem expand5_lt {v : Nat} (h : v < 32) : expand5 v < 256 := by
  have := expand5_shiftRight h
  rw [Nat.shiftRight_eq_div_pow] at this
  omega

theorem expand6_lt {v : Nat} (h : v < 64) : expand6 v < 256 := by
  have := expand6_shiftRight h
  rw [Nat.shiftRight_eq_div_pow] at this
  omega

/-- Every channel is a byte (R170). -/
def Color.InRange (c : Color) : Prop := c.r < 256 ∧ c.g < 256 ∧ c.b < 256

theorem unpack565_inRange (c : Nat) : (unpack565 c).InRange :=
  ⟨expand5_lt (bitsAt_lt c 15 11), expand6_lt (bitsAt_lt c 10 5), expand5_lt (bitsAt_lt c 4 0)⟩

/-- The three quantized channels stand side by side. -/
theorem pack565_eq {c : Color} (h : c.InRange) :
    pack565 c = 2 ^ 11 * (c.r >>> 3) + (2 ^ 5 * (c.g >>> 2) + c.b >>> 3) := by
  obtain ⟨-, hg, hb⟩ := h
  have hb5 : c.b >>> 3 < 2 ^ 5 := by rw [Nat.shiftRight_eq_div_pow]; omega
  have hg11 : 2 ^ 5 * (c.g >>> 2) + c.b >>> 3 < 2 ^ 11 := by rw [Nat.shiftRight_eq_div_pow c.g]; omega
  rw [Nat.two_pow_add_eq_or_of_lt hg11, Nat.two_pow_add_eq_or_of_lt hb5, pack565, Nat.or_assoc, Nat.shiftLeft_eq,
    Nat.shiftLeft_eq, Nat.mul_comm _ (2 ^ 11), Nat.mul_comm _ (2 ^ 5)]

theorem pack565_lt {c : Color} (h : c.InRange) : pack565 c < 65536 := by
  rw [pack565_eq h]
  obtain ⟨hr, hg, hb⟩ := h
  simp only [Nat.shiftRight_eq_div_pow]
  omega

theorem pack565_unpack565 {c : Nat} (h : c < 65536) : pack565 (unpack565 c) = c := by
  have hr : (unpack565 c).r >>> 3 = bitsAt c 15 11 := expand5_shiftRight (bitsAt_lt c 15 11)
  have hg : (unpack565 c).g >>> 2 = bitsAt c 10 5 := expand6_shiftRight (bitsAt_lt c 10 5)
  have hb : (unpack565 c).b >>> 3 = bitsAt c 4 0 := expand5_shiftRight (bitsAt_lt c 4 0)
  rw [pack565_eq (unpack565_inRange c), hr, hg, hb]
  simp only [bitsAt, Nat.shiftRight_eq_div_pow]
  omega

/-- Settles O50: the shifts drop the replicated bits, and the three fields cover the word. -/
theorem pack565OfUnpack565 : Obligations.Pack565OfUnpack565 :=
  ⟨fun _ => expand5_shiftRight, fun _ => expand6_shiftRight, fun _ => pack565_unpack565⟩

/-! ### The palettes (R173, R174) -/

theorem blendThird_inRange {c d : Color} (hc : c.InRange) (hd : d.InRange) : (blendThird c d).InRange := by
  obtain ⟨hcr, hcg, hcb⟩ := hc
  obtain ⟨hdr, hdg, hdb⟩ := hd
  simp only [Color.InRange, blendThird]
  omega

@[simp] theorem length_colorPalette (c0 c1 : Nat) : (colorPalette c0 c1).length = 4 := rfl

theorem colorPalette_inRange {c0 c1 : Nat} {c : Color} (h : c ∈ colorPalette c0 c1) : c.InRange := by
  have h0 := unpack565_inRange c0
  have h1 := unpack565_inRange c1
  simp only [colorPalette, List.mem_cons, List.not_mem_nil, or_false] at h
  obtain rfl | rfl | rfl | rfl := h
  · exact h0
  · exact h1
  · exact blendThird_inRange h0 h1
  · exact blendThird_inRange h1 h0

@[simp] theorem length_alphaPalette (a0 a1 : Nat) : (alphaPalette a0 a1).length = 8 := by
  unfold alphaPalette
  split <;> rfl

/-- A weighted mean of two bytes, rounded down, is a byte. -/
theorem weightedMean_lt {n k a0 a1 : Nat} (hk : k ≤ n) (h0 : a0 < 256) (h1 : a1 < 256) :
    (k * a0 + (n - k) * a1) / n < 256 := by
  have hsum : k * a0 + (n - k) * a1 ≤ 255 * n := by
    calc k * a0 + (n - k) * a1 ≤ k * 255 + (n - k) * 255 := by gcongr <;> omega
      _ = 255 * n := by rw [← Nat.add_mul, Nat.add_sub_cancel' hk, Nat.mul_comm]
  exact Nat.lt_succ_of_le (Nat.div_le_of_le_mul (by rwa [Nat.mul_comm n]))

/-- The gradient of an alpha palette: the weighted means for a list of weights. -/
theorem weightedMeans_lt {n a0 a1 : Nat} {weights : List Nat} (hw : ∀ k ∈ weights, k ≤ n) (h0 : a0 < 256)
    (h1 : a1 < 256) : ∀ v ∈ weights.map fun k => (k * a0 + (n - k) * a1) / n, v < 256 :=
  List.forall_mem_map.mpr fun k hk => weightedMean_lt (hw k hk) h0 h1

theorem colorPalette_ne_nil (c0 c1 : Nat) : colorPalette c0 c1 ≠ [] := List.cons_ne_nil _ _

theorem alphaPalette_ne_nil (a0 a1 : Nat) : alphaPalette a0 a1 ≠ [] :=
  List.ne_nil_of_length_eq_add_one (length_alphaPalette a0 a1)

theorem alphaPalette_lt {a0 a1 v : Nat} (h0 : a0 < 256) (h1 : a1 < 256) (h : v ∈ alphaPalette a0 a1) : v < 256 := by
  unfold alphaPalette at h
  split at h
  · rcases List.mem_append.mp h with h | h
    · simp only [List.mem_cons, List.not_mem_nil, or_false] at h; omega
    · exact weightedMeans_lt (n := 7) (by decide) h0 h1 _ h
  · rcases List.mem_append.mp h with h | h
    · rcases List.mem_append.mp h with h | h
      · simp only [List.mem_cons, List.not_mem_nil, or_false] at h; omega
      · exact weightedMeans_lt (n := 5) (by decide) h0 h1 _ h
    · simp only [List.mem_cons, List.not_mem_nil, or_false] at h; omega

/-- Settles O51: the endpoints, their weighted means, and in the 5-step form 0 and 255. -/
theorem alphaPaletteIsEightBytes : Obligations.AlphaPaletteIsEightBytes :=
  fun a0 a1 h0 h1 => ⟨length_alphaPalette a0 a1, fun _ => alphaPalette_lt h0 h1⟩

/-! ### The endpoints (R180 to R187) -/

theorem leastByte_eq_iff {l : List Nat} {x : Nat} : leastByte l = x ↔ x ∈ 255 :: l ∧ ∀ v ∈ 255 :: l, x ≤ v := by
  rw [← List.min?_eq_some_iff, List.min?_cons', Option.some_inj]
  rfl

theorem greatestByte_eq_iff {l : List Nat} {x : Nat} : greatestByte l = x ↔ x ∈ 0 :: l ∧ ∀ v ∈ 0 :: l, v ≤ x := by
  rw [← List.max?_eq_some_iff, List.max?_cons', Option.some_inj]
  rfl

theorem leastByte_lt (l : List Nat) : leastByte l < 256 :=
  Nat.lt_succ_of_le ((leastByte_eq_iff.mp rfl).2 255 (by simp))

theorem greatestByte_lt {l : List Nat} (h : ∀ v ∈ l, v < 256) : greatestByte l < 256 := by
  rcases List.mem_cons.mp (greatestByte_eq_iff.mp (rfl : greatestByte l = _)).1 with h0 | hm
  · omega
  · exact h _ hm

/-- In partial mode no sample is extreme, so every sample is a partial one (R182). -/
theorem partialSamples_of_not_directMode {band : AlphaBand} {samples : List Nat}
    (h : directMode band samples = false) : partialSamples samples = samples := by
  obtain ⟨hext, -⟩ := Bool.or_eq_false_iff.mp h
  refine List.filter_eq_self.mpr fun v hv => ?_
  have := List.any_eq_false.mp hext v hv
  simp only [Bool.or_eq_true, decide_eq_true_eq, not_or, not_le] at this
  simpa using this

theorem alphaEndpoints_of_directMode {band : AlphaBand} {samples : List Nat} (h : directMode band samples = true) :
    alphaEndpoints band samples = directEndpoints (leastByte samples) (greatestByte samples) := if_pos h

theorem alphaEndpoints_of_not_directMode {band : AlphaBand} {samples : List Nat}
    (h : directMode band samples = false) :
    alphaEndpoints band samples = (leastByte samples, greatestByte samples) := by
  rw [alphaEndpoints, h, if_neg Bool.false_ne_true, partialSamples_of_not_directMode h]

/-- Settles O52: the least and the greatest sample are the classifier's, in both modes. -/
theorem alphaEndpointsByMode : Obligations.AlphaEndpointsByMode := by
  intro band samples mn mx hall hmn hmx hlt
  have hleast : leastByte samples = mn := by
    refine leastByte_eq_iff.mpr ⟨List.mem_cons_of_mem _ hmn, List.forall_mem_cons.mpr ⟨?_, fun v hv => (hall v hv).1⟩⟩
    have := (hall mn hmn).2
    omega
  have hgreatest : greatestByte samples = mx :=
    greatestByte_eq_iff.mpr
      ⟨List.mem_cons_of_mem _ hmx, List.forall_mem_cons.mpr ⟨Nat.zero_le _, fun v hv => (hall v hv).2⟩⟩
  refine ⟨fun hd hne => ?_, fun hd heq => ?_, fun hp => ?_⟩
  · rw [alphaEndpoints_of_directMode hd, hleast, hgreatest, directEndpoints, if_neg (Nat.ne_of_gt hne)]
  · rw [alphaEndpoints_of_directMode hd, hleast, hgreatest, directEndpoints, if_pos heq.symm]
  · rw [alphaEndpoints_of_not_directMode hp, hleast, hgreatest]

theorem alphaEndpoints_lt {band : AlphaBand} {samples : List Nat} (h : ∀ v ∈ samples, v < 256) :
    (alphaEndpoints band samples).1 < 256 ∧ (alphaEndpoints band samples).2 < 256 := by
  have hmn := leastByte_lt samples
  have hmx := greatestByte_lt h
  cases hd : directMode band samples with
  | false => rw [alphaEndpoints_of_not_directMode hd]; exact ⟨hmn, hmx⟩
  | true =>
    rw [alphaEndpoints_of_directMode hd, directEndpoints]
    split
    · exact ⟨by dsimp only; split <;> omega, hmn⟩
    · exact ⟨hmx, hmn⟩

/-- Every channel is a byte (R170). -/
def Texel.InRange (t : Texel) : Prop := t.r < 256 ∧ t.g < 256 ∧ t.b < 256 ∧ t.a < 256

theorem boxMax_inRange {l : List Texel} (h : ∀ t ∈ l, t.InRange) : (boxMax l).InRange := by
  refine ⟨greatestByte_lt ?_, greatestByte_lt ?_, greatestByte_lt ?_⟩
  · exact List.forall_mem_map.mpr fun t ht => (h t ht).1
  · exact List.forall_mem_map.mpr fun t ht => (h t ht).2.1
  · exact List.forall_mem_map.mpr fun t ht => (h t ht).2.2.1

theorem boxMin_inRange (l : List Texel) : (boxMin l).InRange := ⟨leastByte_lt _, leastByte_lt _, leastByte_lt _⟩

theorem colorEndpoints_lt {mx mn : Color} (hmx : mx.InRange) (hmn : mn.InRange) :
    (colorEndpoints mx mn).1 < 65536 ∧ (colorEndpoints mx mn).2 < 65536 := by
  have h0 := pack565_lt hmx
  refine ⟨?_, pack565_lt hmn⟩
  simp only [colorEndpoints]
  split <;> omega

/-! ### The nearest-entry scan (R188, R189) -/

/-- Index `n` holds `d`, a least distance of the list, and every earlier distance is greater. -/
def LowestLeast (l : List Nat) (n d : Nat) : Prop := l[n]? = some d ∧ (∀ e ∈ l, d ≤ e) ∧ ∀ e ∈ l.take n, d < e

theorem LowestLeast.lt_length {l : List Nat} {n d : Nat} (h : LowestLeast l n d) : n < l.length :=
  (List.getElem?_eq_some_iff.mp h.1).1

theorem lowestLeast_singleton (d : Nat) : LowestLeast [d] 0 d := by simp [LowestLeast]

/-- Distances no less than the least one leave its index. -/
theorem LowestLeast.append {l r : List Nat} {n d : Nat} (h : LowestLeast l n d) (hr : ∀ e ∈ r, d ≤ e) :
    LowestLeast (l ++ r) n d := by
  have hn := h.lt_length
  obtain ⟨hget, hleast, hearlier⟩ := h
  refine ⟨?_, fun e he => ?_, ?_⟩
  · rw [List.getElem?_append_left hn, hget]
  · exact (List.mem_append.mp he).elim (hleast e) (hr e)
  · rwa [List.take_append_of_le_length hn.le]

/-- A distance less than the least one moves the index to its own. -/
theorem LowestLeast.concat_of_lt {l : List Nat} {n d e : Nat} (h : LowestLeast l n d) (he : e < d) :
    LowestLeast (l ++ [e]) l.length e := by
  have hall : ∀ x ∈ l, e < x := fun x hx => Nat.lt_of_lt_of_le he (h.2.1 x hx)
  refine ⟨by simp, fun x hx => ?_, by simpa using hall⟩
  rcases List.mem_append.mp hx with hx | hx
  · exact (hall x hx).le
  · exact (List.mem_singleton.mp hx).ge

/-- The scan after the distance `e` at index `j`, with the best index and distance it now has. -/
def nearestFrom (j e : Nat) (best : Nat × Nat) (rest : List Nat) : Nat :=
  if e = 0 then best.1 else nearestLoop (j + 1) (some best) rest

theorem nearestLoop_none_cons (j e : Nat) (rest : List Nat) :
    nearestLoop j none (e :: rest) = nearestFrom j e (j, e) rest := rfl

theorem nearestLoop_cons_of_lt {j n d e : Nat} (h : e < d) (rest : List Nat) :
    nearestLoop j (some (n, d)) (e :: rest) = nearestFrom j e (j, e) rest := by
  simp [nearestLoop, nearestFrom, h]

theorem nearestLoop_cons_of_ge {j n d e : Nat} (h : d ≤ e) (rest : List Nat) :
    nearestLoop j (some (n, d)) (e :: rest) = nearestFrom j e (n, d) rest := by
  simp [nearestLoop, nearestFrom, Nat.not_lt.mpr h]

/-- The scan keeps the lowest least index of what it has seen; where it stops at 0, nothing further is less. -/
theorem nearestFrom_lowestLeast {seen rest : List Nat} {e n d : Nat} (h : LowestLeast (seen ++ [e]) n d) :
    ∃ d', LowestLeast (seen ++ e :: rest) (nearestFrom seen.length e (n, d) rest) d' := by
  induction rest generalizing seen e n d with
  | nil =>
    refine ⟨d, ?_⟩
    unfold nearestFrom
    split <;> exact h
  | cons f fs ih =>
    rw [List.append_cons]
    unfold nearestFrom
    split
    next h0 =>
      have hd : d ≤ e := h.2.1 e (by simp)
      exact ⟨d, h.append fun _ _ => by omega⟩
    next =>
      have hlen : seen.length + 1 = (seen ++ [e]).length := by simp
      rw [hlen]
      rcases Nat.lt_or_ge f d with hlt | hge
      · rw [nearestLoop_cons_of_lt hlt]
        exact ih (h.concat_of_lt hlt)
      · rw [nearestLoop_cons_of_ge hge]
        exact ih (h.append (by simpa using hge))

theorem nearest_lowestLeast {l : List Nat} (h : l ≠ []) : ∃ d, LowestLeast l (nearest l) d := by
  cases l with
  | nil => exact absurd rfl h
  | cons d ds => exact nearestFrom_lowestLeast (seen := []) (lowestLeast_singleton d)

/-- Settles O53, by the invariant of the scan over the distances seen. -/
theorem nearestIsTheLowestLeast : Obligations.NearestIsTheLowestLeast := by
  intro l hl
  obtain ⟨d, hd⟩ := nearest_lowestLeast hl
  have hn := hd.lt_length
  obtain ⟨hget, hleast, hearlier⟩ := hd
  obtain rfl : l[nearest l] = d := (List.getElem?_eq_some_iff.mp hget).2
  exact ⟨hn, fun m hm => ⟨hleast _ (List.getElem_mem hm), fun hlt =>
    hearlier _ (List.mem_take_iff_getElem.mpr ⟨m, by omega, rfl⟩)⟩⟩

/-- The scan over the distances of a palette's entries. -/
theorem nearest_map {α : Type} (f : α → Nat) {l : List α} (hl : l ≠ []) :
    ∃ h : nearest (l.map f) < l.length, ∀ m, ∀ hm : m < l.length,
      f l[nearest (l.map f)] ≤ f l[m] ∧ (m < nearest (l.map f) → f l[nearest (l.map f)] < f l[m]) := by
  obtain ⟨h, hall⟩ := nearestIsTheLowestLeast (l.map f) (by simpa using hl)
  simp only [List.length_map, List.getElem_map] at h hall
  exact ⟨h, hall⟩

theorem nearestColor_lt (w : Color) (c0 c1 : Nat) (t : Texel) : nearestColor w (colorPalette c0 c1) t < 4 :=
  (nearest_map (colorDistance w t) (colorPalette_ne_nil c0 c1)).fst

theorem nearestAlpha_lt (a0 a1 : Nat) (t : Texel) : nearestAlpha (alphaPalette a0 a1) t < 8 :=
  (nearest_map (absDiff t.a) (alphaPalette_ne_nil a0 a1)).fst.trans_eq (length_alphaPalette a0 a1)

/-! ### The fields of an emitted block (30_encoding.md R78, R79; R191) -/

/-- A code of a packed list is read back from its place. -/
theorem bitsAt_packCodes {w : Nat} {l : List Nat} (h : ∀ c ∈ l, c < 2 ^ w) {i hi : Nat} (hl : i < l.length)
    (hhi : hi + 1 - w * i = w) : bitsAt (packCodes w l) hi (w * i) = l[i] := by
  have hsplit : l = l.take i ++ l[i] :: l.drop (i + 1) := by simp
  have hlow : packCodes w (l.take i) < 2 ^ (w * i) := by
    have := packCodes_lt (w := w) (l := l.take i) fun c hc => h c (List.mem_of_mem_take hc)
    rwa [List.length_take_of_le hl.le] at this
  have hpack : packCodes w l = packCodes w (l.take i) + 2 ^ (w * i) * (l[i] + 2 ^ w * packCodes w (l.drop (i + 1))) := by
    conv_lhs => rw [hsplit]
    rw [packCodes_append, List.length_take_of_le hl.le, packCodes]
  rw [bitsAt, hhi, Nat.shiftRight_eq_div_pow, hpack, Nat.add_mul_div_left _ _ (Nat.two_pow_pos _),
    Nat.div_eq_of_lt hlow, Nat.zero_add, Nat.add_mul_mod_self_left, Nat.mod_eq_of_lt (h _ (List.getElem_mem hl))]

/-- A field is read back from its place between the bytes before it and after it. -/
theorem blockField_of_append {blk pre post : List Byte} {lo n v : Nat} (h : blk = pre ++ (leBytes n v ++ post))
    (hlo : pre.length = lo) (hv : v < 256 ^ n) : blockField blk lo n = v := by
  rw [blockField, h, ← hlo, List.drop_left, List.take_left' (length_leBytes n v), leNat_leBytes n v hv]

theorem byteNat_eq_blockField {blk : List Byte} {k : Nat} (h : k < blk.length) : byteNat blk k = blockField blk k 1 := by
  rw [byteNat, blockField, List.drop_eq_getElem_cons h, List.getD_eq_getElem _ _ h]
  rfl

section Emit
variable {a0 a1 ab c0 c1 cb : Nat}

theorem byteNat_emitBlock_zero (h : a0 < 256) : byteNat (emitBlock a0 a1 ab c0 c1 cb) 0 = a0 := by
  rw [byteNat_eq_blockField (by simp)]
  exact blockField_of_append (pre := []) (by simp only [emitBlock, List.append_assoc]; rfl) rfl h

theorem byteNat_emitBlock_one (h : a1 < 256) : byteNat (emitBlock a0 a1 ab c0 c1 cb) 1 = a1 := by
  rw [byteNat_eq_blockField (by simp)]
  exact blockField_of_append (pre := leBytes 1 a0) (by simp only [emitBlock, List.append_assoc]; rfl) (by simp) h

theorem alphaBits_emitBlock (h : ab < 256 ^ 6) : blockField (emitBlock a0 a1 ab c0 c1 cb) 2 6 = ab :=
  blockField_of_append (pre := leBytes 1 a0 ++ leBytes 1 a1)
    (by simp only [emitBlock, List.append_assoc]; rfl) (by simp) h

theorem color0_emitBlock (h : c0 < 65536) : blockField (emitBlock a0 a1 ab c0 c1 cb) 8 2 = c0 :=
  blockField_of_append (pre := leBytes 1 a0 ++ leBytes 1 a1 ++ leBytes 6 ab)
    (by simp only [emitBlock, List.append_assoc]; rfl) (by simp) h

theorem color1_emitBlock (h : c1 < 65536) : blockField (emitBlock a0 a1 ab c0 c1 cb) 10 2 = c1 :=
  blockField_of_append (pre := leBytes 1 a0 ++ leBytes 1 a1 ++ leBytes 6 ab ++ leBytes 2 c0)
    (by simp only [emitBlock, List.append_assoc]; rfl) (by simp) h

theorem colorBits_emitBlock (h : cb < 256 ^ 4) : blockField (emitBlock a0 a1 ab c0 c1 cb) 12 4 = cb :=
  blockField_of_append (pre := leBytes 1 a0 ++ leBytes 1 a1 ++ leBytes 6 ab ++ leBytes 2 c0 ++ leBytes 2 c1) (post := [])
    (by simp only [emitBlock, List.append_assoc, List.append_nil]) (by simp) h

/-- Sixteen 3-bit codes fill six bytes, and each is read back. -/
theorem alphaCodeAt_emitBlock {codes : List Nat} (hlen : codes.length = 16) (h : ∀ c ∈ codes, c < 8) {i : Nat}
    (hi : i < codes.length) : alphaCodeAt (emitBlock a0 a1 (packCodes 3 codes) c0 c1 cb) i = codes[i] := by
  have hfill := packCodes_lt (w := 3) (l := codes) h
  rw [hlen] at hfill
  rw [alphaCodeAt, alphaBits_emitBlock hfill, bitsAt_packCodes h hi (by omega)]

/-- Sixteen 2-bit codes fill four bytes, and each is read back. -/
theorem colorCodeAt_emitBlock {codes : List Nat} (hlen : codes.length = 16) (h : ∀ c ∈ codes, c < 4) {i : Nat}
    (hi : i < codes.length) : colorCodeAt (emitBlock a0 a1 ab c0 c1 (packCodes 2 codes)) i = codes[i] := by
  have hfill := packCodes_lt (w := 2) (l := codes) h
  rw [hlen] at hfill
  rw [colorCodeAt, colorBits_emitBlock hfill, bitsAt_packCodes h hi (by omega)]

end Emit

/-! ### Present texels and transparent blocks (R177 to R179) -/

theorem texelPresent_iff {w h bx by_ i : Nat} :
    texelPresent w h bx by_ i = true ↔ 4 * bx + i % 4 < w ∧ 4 * by_ + i / 4 < h := by simp [texelPresent]

theorem mem_presentTexels {tex : List Texel} {w h bx by_ : Nat} {t : Texel} :
    t ∈ presentTexels tex w h bx by_ ↔ ∃ i < 16, texelPresent w h bx by_ i = true ∧ tex.getD i Texel.zero = t := by
  simp [presentTexels, presentIndices, and_assoc]

theorem blockTransparent_iff {present : List Texel} : blockTransparent present = true ↔ ∀ t ∈ present, t.a = 0 := by
  simp [blockTransparent]

theorem encodeTexels_of_transparent (band : AlphaBand) {tex : List Texel} {w h bx by_ : Nat}
    (ht : blockTransparent (presentTexels tex w h bx by_) = true) :
    encodeTexels band tex w h bx by_ = transparentBlock := if_pos ht

/-- Settles O48: such a block is transparent, and R179's fields are these bytes. -/
theorem transparentBlockHasItsEncoding : Obligations.TransparentBlockHasItsEncoding := by
  intro band tex w h bx by_ hall
  have ht : blockTransparent (presentTexels tex w h bx by_) = true := by
    refine blockTransparent_iff.mpr fun t hm => ?_
    obtain ⟨i, hi, hp, rfl⟩ := mem_presentTexels.mp hm
    obtain ⟨hx, hy⟩ := texelPresent_iff.mp hp
    exact hall i hi hx hy
  rw [encodeTexels_of_transparent band ht]
  decide

/-- Alpha code 1 of the endpoints 255 and 0. -/
theorem decodeTexel_transparentBlock_a : ∀ i < 16, (decodeTexel transparentBlock i).a = 0 := by decide

/-! ### Nearest reconstruction (R193) -/

/-- What holds of every entry and of the default holds of any lookup. -/
theorem getD_of_forall_mem {α : Type} {P : α → Prop} {l : List α} {d : α} (hl : ∀ a ∈ l, P a) (hd : P d) (n : Nat) :
    P (l.getD n d) := by
  rw [List.getD_eq_getElem?_getD]
  cases h : l[n]? with
  | none => exact hd
  | some a => exact hl a (List.mem_of_getElem? h)

/-- The sixteen codes of a block: `f` of each present texel, 0 for an absent one (R188 to R190). -/
def blockCodes (tex : List Texel) (w h bx by_ : Nat) (f : Texel → Nat) : List Nat :=
  (List.range 16).map fun i => if texelPresent w h bx by_ i then f (tex.getD i Texel.zero) else 0

section Encode
variable {tex : List Texel} {w h bx by_ : Nat}

@[simp] theorem length_blockCodes (f : Texel → Nat) : (blockCodes tex w h bx by_ f).length = 16 := by simp [blockCodes]

theorem blockCodes_lt {f : Texel → Nat} {n : Nat} (hn : 0 < n) (hf : ∀ t, f t < n) :
    ∀ c ∈ blockCodes tex w h bx by_ f, c < n := by
  refine List.forall_mem_map.mpr fun i _ => ?_
  split
  · exact hf _
  · exact hn

theorem getElem_blockCodes_of_present (f : Texel → Nat) {i : Nat} (hi : i < (blockCodes tex w h bx by_ f).length)
    (hp : texelPresent w h bx by_ i = true) : (blockCodes tex w h bx by_ f)[i] = f (tex.getD i Texel.zero) := by
  simp [blockCodes, hp]

/-- A present texel of an emitted block decodes to the entries its codes name (R175, R191). -/
theorem decodeTexel_emitBlock {a0 a1 c0 c1 i : Nat} (ha0 : a0 < 256) (ha1 : a1 < 256) (hc0 : c0 < 65536)
    (hc1 : c1 < 65536) {alphaCode colorCode : Texel → Nat} (halpha : ∀ t, alphaCode t < 8)
    (hcolor : ∀ t, colorCode t < 4) (hi : i < 16) (hp : texelPresent w h bx by_ i = true) {px : Texel}
    (hpx : px = tex.getD i Texel.zero) (hk : alphaCode px < (alphaPalette a0 a1).length)
    (hj : colorCode px < (colorPalette c0 c1).length) :
    decodeTexel (emitBlock a0 a1 (packCodes 3 (blockCodes tex w h bx by_ alphaCode))
        c0 c1 (packCodes 2 (blockCodes tex w h bx by_ colorCode))) i
      = { r := (colorPalette c0 c1)[colorCode px].r
          g := (colorPalette c0 c1)[colorCode px].g
          b := (colorPalette c0 c1)[colorCode px].b
          a := (alphaPalette a0 a1)[alphaCode px] } := by
  rw [decodeTexel, color0_emitBlock hc0, color1_emitBlock hc1, byteNat_emitBlock_zero ha0, byteNat_emitBlock_one ha1,
    alphaCodeAt_emitBlock (length_blockCodes _) (blockCodes_lt (by decide) halpha) (by simpa using hi),
    colorCodeAt_emitBlock (length_blockCodes _) (blockCodes_lt (by decide) hcolor) (by simpa using hi),
    getElem_blockCodes_of_present _ _ hp, getElem_blockCodes_of_present _ _ hp, ← hpx, List.getD_eq_getElem _ _ hk,
    List.getD_eq_getElem _ _ hj]

/-- A block that is not transparent is emitted from its endpoints, which fit their fields, and the codes of its texels under
the palettes of those endpoints (R192). -/
theorem encodeTexels_eq_emitBlock (band : AlphaBand) (htex : ∀ t ∈ tex, t.InRange)
    (ht : blockTransparent (presentTexels tex w h bx by_) = false) {weights : Color}
    (hweights : weights = channelWeights (boxMax (boxTexels (presentTexels tex w h bx by_)))
      (boxMin (boxTexels (presentTexels tex w h bx by_)))) :
    ∃ a0 < 256, ∃ a1 < 256, ∃ c0 < 65536, ∃ c1 < 65536, encodeTexels band tex w h bx by_
      = emitBlock a0 a1 (packCodes 3 (blockCodes tex w h bx by_ (nearestAlpha (alphaPalette a0 a1))))
          c0 c1 (packCodes 2 (blockCodes tex w h bx by_ (nearestColor weights (colorPalette c0 c1)))) := by
  subst hweights
  have hpresent : ∀ t ∈ presentTexels tex w h bx by_, t.InRange := by
    intro t hm
    obtain ⟨i, -, -, rfl⟩ := mem_presentTexels.mp hm
    exact getD_of_forall_mem htex (by simp [Texel.zero, Texel.InRange]) i
  have hbox : ∀ t ∈ boxTexels (presentTexels tex w h bx by_), t.InRange :=
    fun t hm => hpresent t (List.mem_of_mem_filter hm)
  obtain ⟨ha0, ha1⟩ := alphaEndpoints_lt (band := band)
    (List.forall_mem_map.mpr fun t hm => (hpresent t hm).2.2.2)
  obtain ⟨hc0, hc1⟩ := colorEndpoints_lt (boxMax_inRange hbox) (boxMin_inRange _)
  exact ⟨_, ha0, _, ha1, _, hc0, _, hc1, if_neg (by simp [ht])⟩

end Encode

/-- Settles O49: the decoder's palettes are the encoder's, and each present texel's codes are read back. -/
theorem nearestReconstruction : Obligations.NearestReconstruction := by
  intro band tex w h bx by_ blk i htex hblk hi
  refine ⟨fun ht hp px colors alphas weights hpx hcolors halphas hweights => ?_, fun ht => ?_⟩
  · obtain ⟨a0, ha0, a1, ha1, c0, hc0, c1, hc1, hemit⟩ := encodeTexels_eq_emitBlock band htex ht hweights
    rw [hblk, hemit] at hcolors halphas ⊢
    rw [color0_emitBlock hc0, color1_emitBlock hc1] at hcolors
    rw [byteNat_emitBlock_zero ha0, byteNat_emitBlock_one ha1] at halphas
    subst hcolors halphas
    obtain ⟨hj, hcolor⟩ := nearest_map (colorDistance weights px) (colorPalette_ne_nil c0 c1)
    obtain ⟨hk, halpha⟩ := nearest_map (absDiff px.a) (alphaPalette_ne_nil a0 a1)
    have hdecode := decodeTexel_emitBlock ha0 ha1 hc0 hc1 (nearestAlpha_lt a0 a1) (nearestColor_lt weights c0 c1)
      hi hp hpx hk hj
    exact ⟨_, _, hj, hk, hdecode, hcolor, halpha⟩
  · rw [hblk, encodeTexels_of_transparent band ht]
    exact decodeTexel_transparentBlock_a i hi

/-! ### `DECODE_BLOCK` and `ENCODE_BLOCK` (R176, R192) -/

theorem byteNat_lt (l : List Byte) (k : Nat) : byteNat l k < 256 := (l.getD k 0).isLt

theorem decodeTexel_inRange (blk : List Byte) (i : Nat) : (decodeTexel blk i).InRange := by
  have halpha : (decodeTexel blk i).a < 256 :=
    getD_of_forall_mem (P := (· < 256)) (fun _ => alphaPalette_lt (byteNat_lt blk 0) (byteNat_lt blk 1)) (by decide) _
  obtain ⟨hr, hg, hb⟩ := getD_of_forall_mem (l := colorPalette (blockField blk 8 2) (blockField blk 10 2))
    (d := ⟨0, 0, 0⟩) (fun _ => colorPalette_inRange) (by simp [Color.InRange]) (colorCodeAt blk i)
  exact ⟨hr, hg, hb, halpha⟩

/-- A texel's own four bytes give it back (30_encoding.md R81). -/
theorem texelAt_bytes_append {t : Texel} (h : t.InRange) (r : List Byte) : texelAt (t.bytes ++ r) 0 = t := by
  obtain ⟨hr, hg, hb, ha⟩ := h
  simp [texelAt, byteNat, Texel.bytes, Nat.mod_eq_of_lt, hr, hg, hb, ha]

/-- Texel i of a row of texels stands at its bytes 4i .. 4i+3. -/
theorem texelAt_flatMap_bytes {l : List Texel} (h : ∀ t ∈ l, t.InRange) {i : Nat} (hi : i < l.length) :
    texelAt (l.flatMap Texel.bytes) (4 * i) = l[i] := by
  induction l generalizing i with
  | nil => exact absurd hi (Nat.not_lt_zero i)
  | cons t ts ih =>
    rw [List.flatMap_cons]
    cases i with
    | zero => exact texelAt_bytes_append (h t (by simp)) _
    | succ i => exact ih (fun x hx => h x (by simp [hx])) (by simpa using hi)

theorem decodedBytes_eq (blk : List Byte) :
    decodedBytes blk = ((List.range 16).map (decodeTexel blk)).flatMap Texel.bytes := by
  rw [decodedBytes, List.flatMap_map]

theorem length_decodedBytes (blk : List Byte) : (decodedBytes blk).length = 64 := by simp [decodedBytes]

theorem texelAt_decodedBytes (blk : List Byte) {i : Nat} (hi : i < 16) :
    texelAt (decodedBytes blk) (4 * i) = decodeTexel blk i := by
  have hbytes : ∀ t ∈ (List.range 16).map (decodeTexel blk), t.InRange :=
    List.forall_mem_map.mpr fun k _ => decodeTexel_inRange blk k
  rw [decodedBytes_eq, texelAt_flatMap_bytes hbytes (by simpa using hi)]
  simp

/-- A command that completes and writes result registers alone keeps its inputs and `DST`. -/
theorem completes_of_exec_eq {i : Instr} {s : State} {r : ResultFile} (h : exec i s = .next (s.withRes r).complete) :
    ∃ t, exec i s = .next t ∧ StatusIsOk t ∧ KeepsInputs s t ∧ t.dst = s.dst ∧ t.res = r :=
  ⟨_, h, by simp [StatusIsOk], by simp [KeepsInputs], rfl, rfl⟩

/-- Settles O46: every channel of a decoded texel is a byte, so its four bytes give it back. -/
theorem decodeBlockCompletes : Obligations.DecodeBlockCompletes := by
  intro s
  obtain ⟨t, ht, hok, hkeeps, hdst, hres⟩ := completes_of_exec_eq (i := .decodeBlock) (s := s) rfl
  refine ⟨t, ht, hok, hkeeps, hdst, fun i hi => ?_⟩
  rw [hres, ResultFile.setTex_tex, Reg.wrote_val, toList_bytesOf 64 _ (length_decodedBytes _), texelAt_decodedBytes _ hi]

/-- Settles O47: an encoded block has 16 bytes, so `RES_BLK` takes them as they are. -/
theorem encodeBlockCompletes : Obligations.EncodeBlockCompletes := by
  intro s
  obtain ⟨t, ht, hok, hkeeps, hdst, hres⟩ := completes_of_exec_eq (i := .encodeBlock) (s := s) rfl
  refine ⟨t, ht, hok, hkeeps, hdst, ?_⟩
  rw [hres, ResultFile.setBlk_blk, Reg.wrote_val, toList_bytesOf 16 _ (length_encodeTexels _ _ _ _ _ _)]
  rfl

end Sys2Proof.Machine
end

section
/-! Proofs about the pipeline (43_pipeline.md): the shape of the linear commands, what decoding and encoding the blocks of
a surface leaves in `DST`, and the compositions of R226. -/
namespace Sys2Proof.Machine

/-! ### The shape of the linear commands (R223, R224) -/

/-- The shape of a linear command: the checks, the coding, and the delivery. -/
def runLinear (s : State) (srcNeed dstNeed : Nat) (coded : Except Fault Memory) : Result :=
  orRaise s (checkLinear s) fun _ => orRaise s (checkBuffers s srcNeed dstNeed) fun _ =>
    orFault coded fun dst => .next (s.deliver dst dstNeed)

theorem exec_decodeLinear (s : State) : exec .decodeLinear s =
    runLinear s (blocksWide s * blocksHigh s * 16) (imageBytes s) (decodeAll s (linearBlocks s)) := rfl

theorem exec_encodeLinear (s : State) : exec .encodeLinear s =
    runLinear s (imageBytes s) (blocksWide s * blocksHigh s * 16) (encodeAll s s.dst (linearBlocks s)) := rfl

section RunLinear
variable {s : State} {srcNeed dstNeed : Nat} {coded : Except Fault Memory}

theorem runLinear_of_checks (hl : checkLinear s = .ok ()) (hsrc : srcNeed ≤ s.num .srcLen)
    (hdst : dstNeed ≤ s.num .dstCap) :
    runLinear s srcNeed dstNeed coded = orFault coded fun dst => .next (s.deliver dst dstNeed) := by
  have hbuffers : checkBuffers s srcNeed dstNeed = .ok () := checkBuffers_eq_ok_iff.mpr ⟨hsrc, hdst⟩
  rw [runLinear, hl, orRaise_ok, hbuffers, orRaise_ok]

/-- A delivery that answers was coded. -/
theorem exists_of_orFault_deliver {t : State} (h : (orFault coded fun d => .next (s.deliver d dstNeed)) = .next t) :
    ∃ d, coded = .ok d ∧ t = s.deliver d dstNeed := by
  cases coded with
  | error f => cases h
  | ok d => cases h; exact ⟨d, rfl, rfl⟩

/-- A linear command that answers OK passed its checks and delivered what it coded. -/
theorem exists_of_runLinear_ok {t : State} (h : runLinear s srcNeed dstNeed coded = .next t)
    (h0 : statusCode t.status = 0) : checkLinear s = .ok () ∧ srcNeed ≤ s.num .srcLen ∧ dstNeed ≤ s.num .dstCap ∧
      ∃ d, coded = .ok d ∧ t = s.deliver d dstNeed := by
  obtain ⟨_, hl, h⟩ := exists_of_orRaise_ok h h0
  obtain ⟨_, hb, h⟩ := exists_of_orRaise_ok h h0
  obtain ⟨hsrc, hdst⟩ := checkBuffers_eq_ok_iff.mp hb
  exact ⟨hl, hsrc, hdst, exists_of_orFault_deliver h⟩

end RunLinear

/-! ### What the linear commands read (R223, R224) -/

/-- The second machine has what a linear command reads of the first. -/
structure SameLinearInputs (s s' : State) : Prop where
  src : s'.src = s.src
  alphaBand : s'.cfg.alphaBand = s.cfg.alphaBand
  num : ∀ q ∈ [OperandReg.dWidth, .dHeight, .dFormat, .srcLen, .dstCap], s'.num q = s.num q

theorem sameEffect_runLinear {s s' : State} (hs : SameOutputs s s') (hin : SameLinearInputs s s')
    (srcNeed dstNeed : Nat) (coded : Except Fault Memory) :
    SameEffect (runLinear s srcNeed dstNeed coded) (runLinear s' srcNeed dstNeed coded) := by
  have hlinear : checkLinear s' = checkLinear s := by simp [checkLinear, checkBc3, hin.num]
  have hbuffers : checkBuffers s' srcNeed dstNeed = checkBuffers s srcNeed dstNeed := by simp [checkBuffers, hin.num]
  exact sameEffect_orRaise hs hlinear fun _ _ => sameEffect_orRaise hs hbuffers fun _ _ => sameEffect_deliver hs _ _

theorem sameEffect_linear {i : Instr} (hi : i = .decodeLinear ∨ i = .encodeLinear) {s s' : State}
    (hs : SameOutputs s s') (hin : SameLinearInputs s s') : SameEffect (exec i s) (exec i s') := by
  have hw : s'.num .dWidth = s.num .dWidth := hin.num _ (by simp)
  have hh : s'.num .dHeight = s.num .dHeight := hin.num _ (by simp)
  have hwide : blocksWide s' = blocksWide s := by rw [blocksWide, hw, blocksWide]
  have hhigh : blocksHigh s' = blocksHigh s := by rw [blocksHigh, hh, blocksHigh]
  have himage : imageBytes s' = imageBytes s := by rw [imageBytes, hw, hh, imageBytes]
  have hblocks : linearBlocks s' = linearBlocks s := by
    simp only [linearBlocks, blockGrid, linearOffset, hwide, hhigh]
  have hdst : s'.dst = s.dst := hs.2.1
  rcases hi with rfl | rfl
  · have hcoded : decodeAll s' (linearBlocks s') = decodeAll s (linearBlocks s) := by
      rw [hblocks, decodeAll, hin.src, hw, hh, hdst, decodeAll]
    rw [exec_decodeLinear, exec_decodeLinear, hwide, hhigh, himage, hcoded]
    exact sameEffect_runLinear hs hin _ _ _
  · have hcoded : encodeAll s' s'.dst (linearBlocks s') = encodeAll s s.dst (linearBlocks s) := by
      rw [hblocks, encodeAll, hin.alphaBand, hin.src, hw, hh, hdst, encodeAll]
    rw [exec_encodeLinear, exec_encodeLinear, hwide, hhigh, himage, hcoded]
    exact sameEffect_runLinear hs hin _ _ _

/-- Settles O60: the replaced register, profile and table are none of a linear command's inputs. -/
theorem linearCommandsIgnoreTiling : Obligations.LinearCommandsIgnoreTiling := by
  intro i s r v p table hi hr
  have hother : ∀ q ∈ [OperandReg.dWidth, .dHeight, .dFormat, .srcLen, .dstCap],
      ∀ r ∈ [OperandReg.dDepth, .dTileMode, .dSwizzle, .dPitch, .dSamples, .dSlices, .dDataSize], q ≠ r := by decide
  refine sameEffect_linear hi ⟨rfl, rfl, rfl⟩ ⟨rfl, rfl, fun q hq => ?_⟩
  exact congrArg (fun reg => reg.val.toNat) (OperandFile.get_set_other s.opr v (hother q hq r hr))

/-! ### The pixel of a texel (R150, R220) -/

/-- The block of a pixel, by its number in row-major order. -/
abbrev blockOfPixel (s : State) (px py : Nat) : Nat := py / 4 * blocksWide s + px / 4

/-- The texel of a pixel in its block. -/
abbrev texelOfPixel (px py : Nat) : Nat := py % 4 * 4 + px % 4

theorem texelOfPixel_lt (px py : Nat) : texelOfPixel px py < 16 := by unfold texelOfPixel; omega

theorem texel_column (px py : Nat) : 4 * (px / 4) + texelOfPixel px py % 4 = px := by unfold texelOfPixel; omega

theorem texel_row (px py : Nat) : 4 * (py / 4) + texelOfPixel px py / 4 = py := by unfold texelOfPixel; omega

theorem pixelOffset_texelOfPixel (w px py : Nat) :
    pixelOffset w (px / 4, py / 4) (texelOfPixel px py) = (py * w + px) * 4 := by
  rw [pixelOffset, texel_row, texel_column]

theorem texelPresent_texelOfPixel {w h px py : Nat} (hx : px < w) (hy : py < h) :
    texelPresent w h (px / 4) (py / 4) (texelOfPixel px py) = true := by
  rw [texelPresent_iff, texel_row, texel_column]
  exact ⟨hx, hy⟩

/-- The column of an element of a row-major array of width `w`. -/
theorem rowMajor_mod {w x : Nat} (hx : x < w) (y : Nat) : (y * w + x) % w = x := by
  rw [Nat.mul_comm, Nat.mul_add_mod, Nat.mod_eq_of_lt hx]

/-- The row of an element of a row-major array of width `w`. -/
theorem rowMajor_div {w x : Nat} (hx : x < w) (y : Nat) : (y * w + x) / w = y := by
  rw [Nat.mul_comm, Nat.mul_add_div (by omega), Nat.div_eq_of_lt hx, Nat.add_zero]

theorem rowMajor_injective {w x y x' y' : Nat} (hx : x < w) (hx' : x' < w) (h : y * w + x = y' * w + x') :
    x = x' ∧ y = y' :=
  ⟨by rw [← rowMajor_mod hx y, h, rowMajor_mod hx'], by rw [← rowMajor_div hx y, h, rowMajor_div hx']⟩

/-- The one present texel whose pixel has a given byte. -/
theorem texel_of_pixel_byte {w h px py i j : Nat} {b : Nat × Nat} (hpres : texelPresent w h b.1 b.2 i = true)
    (hi : i < 16) (hx : px < w) (hj : j < 4)
    (hcover : pixelOffset w b i ≤ (py * w + px) * 4 + j ∧ (py * w + px) * 4 + j < pixelOffset w b i + 4) :
    b = (px / 4, py / 4) ∧ i = texelOfPixel px py := by
  obtain ⟨hcol, -⟩ := texelPresent_iff.mp hpres
  rw [pixelOffset] at hcover
  obtain ⟨hxe, hye⟩ := rowMajor_injective (w := w) hcol hx (y := 4 * b.2 + i / 4) (y' := py) (by omega)
  exact ⟨Prod.ext (by simp only; omega) (by simp only; omega), by unfold texelOfPixel; omega⟩

section Pixel
variable {s : State} {px py : Nat} (hx : px < s.num .dWidth)
include hx

theorem column_lt_blocksWide : px / 4 < blocksWide s := by unfold blocksWide; omega

theorem nthBlock_blockOfPixel : nthBlock s (blockOfPixel s px py) = (px / 4, py / 4) :=
  Prod.ext (rowMajor_mod (column_lt_blocksWide hx) _) (rowMajor_div (column_lt_blocksWide hx) _)

theorem blockOfPixel_lt (hy : py < s.num .dHeight) : blockOfPixel s px py < blocksWide s * blocksHigh s := by
  have hrow : py / 4 < blocksHigh s := by unfold blocksHigh; omega
  have := rowMajor_end_le (column_lt_blocksWide hx) hrow 1
  unfold blockOfPixel
  omega

end Pixel

theorem eq_blockOfPixel {s : State} {n px py : Nat} (h : nthBlock s n = (px / 4, py / 4)) : n = blockOfPixel s px py :=
  (nthBlock_linear s n).symm.trans (by rw [h])

/-- A byte of the image is a byte of one pixel. -/
theorem exists_pixel_of_lt {w h a : Nat} (ha : a < w * h * 4) :
    ∃ px < w, ∃ py < h, ∃ j < 4, a = (py * w + px) * 4 + j := by
  obtain ⟨n, hn, j, hj, rfl⟩ := exists_block_of_lt ha
  obtain ⟨py, hpy, px, hpx, rfl⟩ := exists_block_of_lt (Nat.mul_comm w h ▸ hn)
  exact ⟨px, hpx, py, hpy, j, hj, rfl⟩

/-! ### Decoded blocks (R221, R223, R225) -/

/-- A byte that one write of a list alone covers is that write's, however often the list holds it. -/
theorem read_writesOf_only {ι : Type} (g : ι → Nat) (data : ι → List Byte) {l : List ι} {x : ι} (m : Memory) {a : Nat}
    (hx : x ∈ l) (hcover : g x ≤ a ∧ a < g x + (data x).length)
    (honly : ∀ y ∈ l, g y ≤ a ∧ a < g y + (data y).length → y = x) :
    (writesOf g data m l).read a = (data x)[a - g x]? := by
  induction l generalizing m with
  | nil => cases hx
  | cons y l ih =>
    have honly' : ∀ z ∈ l, g z ≤ a ∧ a < g z + (data z).length → z = x := fun z hz => honly z (by simp [hz])
    by_cases hxl : x ∈ l
    · exact ih _ hxl honly'
    · obtain rfl : x = y := by simpa [hxl] using hx
      exact read_writesOf_last g data [] l x m a hcover fun z hz hc => hxl (honly' z hz hc ▸ hz)

theorem mem_pixelWrites {w h : Nat} {blocks : List PlacedBlock} {p : PlacedBlock} {i : Nat} :
    (p, i) ∈ pixelWrites w h blocks ↔ p ∈ blocks ∧ i < 16 ∧ texelPresent w h p.block.1 p.block.2 i = true := by
  simp [presentIndices]

/-- The blocks of the linear array are those of the grid at multiples of 16 (R220). -/
theorem linearBlocks_eq (s : State) : linearBlocks s = blocksAt s (· * 16) := by
  rw [linearBlocks, blockGrid_eq, List.map_map]
  exact List.map_congr_left fun n _ => congrArg (PlacedBlock.mk (nthBlock s n)) (linearOffset_nthBlock s 16 n)

section Decoded
variable (s : State) (off : Nat → Nat)

/-- `DST` after the blocks at given offsets, whose bytes all hold a value, are decoded into it. -/
def decodedImage : Memory :=
  writesOf (fun q => pixelOffset (s.num .dWidth) q.1.block q.2)
    (fun q => (decodeTexel (srcBytes s.src q.1.offset 16) q.2).bytes) s.dst
    (pixelWrites (s.num .dWidth) (s.num .dHeight) (blocksAt s off))

variable {s off}

theorem decodeAll_blocksAt (hsome : ∀ n < blocksWide s * blocksHigh s, ∀ j < 16, (s.src.read (off n + j)).isSome) :
    decodeAll s (blocksAt s off) = .ok (decodedImage s off) := by
  refine decode_fold_eq_ok _ _ _ _ _ fun p hp => ?_
  obtain ⟨n, hn, rfl⟩ := List.mem_map.mp hp
  exact hsome n (List.mem_range.mp hn)

theorem decodeAll_blocksAt_stops {n j : Nat} (hn : n < blocksWide s * blocksHigh s) (hj : j < 16)
    (hnone : s.src.read (off n + j) = none) : ∃ m < blocksWide s * blocksHigh s, ∃ k < 16,
      s.src.read (off m + k) = none ∧ decodeAll s (blocksAt s off) = .error (.srcUnwritten (off m + k)) := by
  obtain ⟨p, hp, k, hk, herr, hr⟩ :=
    decode_fold_stops s.src (s.num .dWidth) (s.num .dHeight) s.dst _ (mem_blocksAt off hn) hj hnone
  obtain ⟨m, hm, rfl⟩ := List.mem_map.mp hp
  exact ⟨m, List.mem_range.mp hm, k, hk, hr, herr⟩

/-- The bytes of a pixel are those of its texel, decoded from its block. -/
theorem read_decodedImage {px py j : Nat} (hx : px < s.num .dWidth) (hy : py < s.num .dHeight) (hj : j < 4) :
    (decodedImage s off).read ((py * s.num .dWidth + px) * 4 + j) =
      (decodeTexel (srcBytes s.src (off (blockOfPixel s px py)) 16) (texelOfPixel px py)).bytes[j]? := by
  have hblock := nthBlock_blockOfPixel (py := py) hx
  have hoff := pixelOffset_texelOfPixel (s.num .dWidth) px py
  rw [decodedImage, read_writesOf_only (x := (⟨(px / 4, py / 4), off (blockOfPixel s px py)⟩, texelOfPixel px py))]
  · rw [hoff, Nat.add_sub_cancel_left]
  · exact mem_pixelWrites.mpr ⟨hblock ▸ mem_blocksAt off (blockOfPixel_lt hx hy), texelOfPixel_lt px py,
      texelPresent_texelOfPixel hx hy⟩
  · simp only [hoff, Texel.length_bytes]
    omega
  · rintro ⟨p, i⟩ hp hcover
    obtain ⟨hblocks, hi, hpres⟩ := mem_pixelWrites.mp hp
    obtain ⟨hb, rfl⟩ := texel_of_pixel_byte hpres hi hx hj hcover
    obtain ⟨n, -, rfl⟩ := List.mem_map.mp hblocks
    obtain rfl := eq_blockOfPixel hb
    rw [← hb]

section Completes
variable {i : Instr} (hexec : exec i s = orFault (decodeAll s (blocksAt s off)) fun d => .next (s.deliver d (imageBytes s)))
include hexec

/-- A command that decodes the blocks at given offsets completes where their bytes all hold a value. -/
theorem decode_completes (hcap : imageBytes s ≤ s.num .dstCap)
    (hsome : ∀ n < blocksWide s * blocksHigh s, ∀ j < 16, (s.src.read (off n + j)).isSome) :
    ∃ t, exec i s = .next t ∧ StatusIsOk t ∧ KeepsInputs s t ∧ t.res.len.val.toNat = imageBytes s ∧
      (∀ px < s.num .dWidth, ∀ py < s.num .dHeight, ∀ j < 4,
        t.dst.read ((py * s.num .dWidth + px) * 4 + j) =
          (decodeTexel (srcBytes s.src (off (blockOfPixel s px py)) 16) (texelOfPixel px py)).bytes[j]?) ∧
      (∀ a, imageBytes s ≤ a → t.dst.read a = s.dst.read a) := by
  have hdec := decodeAll_blocksAt hsome
  rw [hdec, orFault_ok] at hexec
  obtain ⟨hok, hlen, hkeeps⟩ := deliver_facts s (decodedImage s off) hcap
  exact ⟨_, hexec, hok, hkeeps, hlen, fun px hx py hy j hj => read_decodedImage hx hy hj, decodeAll_agreeFrom hdec⟩

theorem decode_stops {n j : Nat} (hn : n < blocksWide s * blocksHigh s) (hj : j < 16)
    (hnone : s.src.read (off n + j) = none) : ∃ m < blocksWide s * blocksHigh s, ∃ k < 16,
      s.src.read (off m + k) = none ∧ exec i s = .fault (.srcUnwritten (off m + k)) := by
  obtain ⟨m, hm, k, hk, hr, herr⟩ := decodeAll_blocksAt_stops hn hj hnone
  exact ⟨m, hm, k, hk, hr, by rw [hexec, herr, orFault_error]⟩

end Completes
end Decoded

/-- Settles O54: the blocks of the linear array are decoded, block n from 16n. -/
theorem decodeLinearWritesEveryPixel : Obligations.DecodeLinearWritesEveryPixel := by
  intro s hl hsrc hdst
  have hexec := (exec_decodeLinear s).trans (runLinear_of_checks hl hsrc hdst)
  rw [linearBlocks_eq] at hexec
  refine ⟨fun hsome => ?_, fun a ha hnone => ?_⟩
  · exact decode_completes (off := (· * 16)) hexec hdst fun n hn j hj => hsome _ (linear_lt hn hj)
  · obtain ⟨n, hn, j, hj, rfl⟩ := exists_block_of_lt ha
    obtain ⟨m, hm, k, hk, hr, hf⟩ := decode_stops hexec hn hj hnone
    exact ⟨m * 16 + k, linear_lt hm hk, hr, hf⟩

/-! ### The commands on a tiled surface (R221, R222) -/

section Surface
variable {s : State} {payload srcNeed dstNeed : Nat} {body : List PlacedBlock → Except Fault Memory}

/-- A command whose blocks, of any payload, lie inside the tiled surface answers what its body does with them. -/
theorem runTiled_of_placed_inside {off : Nat → Nat} (hd : checkDescriptor s = .ok ())
    (hoff : ∀ n < blocksWide s * blocksHigh s,
      tiledOffset s payload (nthBlock s n) = .ok (off n) ∧ off n + payload ≤ s.num .dDataSize)
    (hsrc : srcNeed ≤ s.num .srcLen) (hdst : dstNeed ≤ s.num .dstCap) :
    runTiled s (.ok ()) payload srcNeed dstNeed body
      = orFault (body (blocksAt s off)) fun dst => .next (s.deliver dst dstNeed) := by
  have hcheck : checkTiled s payload srcNeed dstNeed (blocksAt s off) = .ok () := by
    refine checkTiled_eq_ok_iff.mpr ⟨hsrc, hdst, fun p hp => ?_⟩
    obtain ⟨n, hn, rfl⟩ := List.mem_map.mp hp
    exact (hoff n (List.mem_range.mp hn)).2
  rw [runTiled_of_placed hd (placeBlocks_eq_ok s _ off fun n hn => (hoff n hn).1), hcheck, orRaise_ok]

/-- A command on a tiled surface that answers OK found every block inside the surface and delivered what its body gave. -/
theorem exists_offsets_of_runTiled_ok {format : Except Cause Unit} {t : State}
    (h : runTiled s format payload srcNeed dstNeed body = .next t) (h0 : statusCode t.status = 0) :
    checkDescriptor s = .ok () ∧ format = .ok () ∧ ∃ off : Nat → Nat,
      (∀ n < blocksWide s * blocksHigh s,
        tiledOffset s payload (nthBlock s n) = .ok (off n) ∧ off n + payload ≤ s.num .dDataSize) ∧
      ∃ d, body (blocksAt s off) = .ok d ∧ t = s.deliver d dstNeed := by
  obtain ⟨_, hd, h⟩ := exists_of_orRaise_ok h h0
  obtain ⟨_, hf, h⟩ := exists_of_orRaise_ok h h0
  obtain ⟨placed, hp, h⟩ := exists_of_orRaise_ok h h0
  obtain ⟨_, hc, h⟩ := exists_of_orRaise_ok h h0
  obtain ⟨off, hoff, rfl⟩ := placeBlocks_ok s payload placed hp
  obtain ⟨-, -, hrange⟩ := checkTiled_eq_ok_iff.mp hc
  exact ⟨hd, hf, off, fun n hn => ⟨hoff n hn, hrange _ (mem_blocksAt off hn)⟩, exists_of_orFault_deliver h⟩

end Surface

/-- Settles O56: the blocks are decoded, block n from its tiled offset. -/
theorem decodeSurfaceWritesEveryPixel : Obligations.DecodeSurfaceWritesEveryPixel := by
  intro s off hd hf hoff hsrc hdst
  have hexec := (checkBc3_ok hf ▸ exec_decodeSurface s).trans (runTiled_of_placed_inside hd hoff hsrc hdst)
  exact ⟨decode_completes hexec hdst, fun n hn j hj => decode_stops hexec hn hj⟩

/-! ### Encoded blocks (R222, R224, R225) -/

theorem map_imageTexel (s : State) (b : Nat × Nat) :
    (List.range 16).map (imageTexel s.src (s.num .dWidth) (s.num .dHeight) b) = imageTexelsOf s b :=
  List.map_congr_left fun _ _ => if_congr texelPresent_iff rfl rfl

section Encoded
variable (s : State) (off : Nat → Nat) (m : Memory)

/-- The n-th block of the image, encoded. -/
abbrev encodedBlock (n : Nat) : List Byte :=
  encodeTexels s.cfg.alphaBand (imageTexelsOf s (nthBlock s n)) (s.num .dWidth) (s.num .dHeight)
    (n % blocksWide s) (n / blocksWide s)

/-- A buffer after the blocks of the image, whose bytes all hold a value, are encoded into it at given offsets. -/
def encodedSurface : Memory := writesOf off (encodedBlock s) m (List.range (blocksWide s * blocksHigh s))

variable {s off m}

theorem encodeAll_blocksAt (hsome : ∀ a < imageBytes s, (s.src.read a).isSome) :
    encodeAll s m (blocksAt s off) = .ok (encodedSurface s off m) := by
  rw [encodeAll, encode_fold_eq_ok, writesOf, List.foldl_map]
  · simp only [map_imageTexel]
    rfl
  · intro p _ i _ hpres j hj
    have hend : pixelOffset (s.num .dWidth) p.block i + 4 ≤ imageBytes s := pixelOffset_end_le hpres
    exact hsome _ (by omega)

theorem encodeAll_blocksAt_stops {a : Nat} (ha : a < imageBytes s) (hnone : s.src.read a = none) :
    ∃ e < imageBytes s, s.src.read e = none ∧ encodeAll s m (blocksAt s off) = .error (.srcUnwritten e) := by
  obtain ⟨px, hx, py, hy, j, hj, rfl⟩ := exists_pixel_of_lt ha
  have hmem := mem_blocksAt off (blockOfPixel_lt hx hy)
  rw [nthBlock_blockOfPixel hx] at hmem
  rw [← pixelOffset_texelOfPixel] at hnone
  obtain ⟨p, -, i, -, hpres, k, hk, herr, hr⟩ := encode_fold_stops s.cfg.alphaBand s.src _ _ m _ hmem
    (texelOfPixel_lt px py) (texelPresent_texelOfPixel hx hy) hj hnone
  have hend : pixelOffset (s.num .dWidth) p.block i + 4 ≤ imageBytes s := pixelOffset_end_le hpres
  exact ⟨_, by omega, hr, herr⟩

/-- A byte that no later block covers is the byte of its block. -/
theorem read_encodedSurface_last {n j : Nat} (hn : n < blocksWide s * blocksHigh s) (hj : j < 16)
    (hlater : ∀ k, n < k → k < blocksWide s * blocksHigh s → off n + j < off k ∨ off k + 16 ≤ off n + j) :
    (encodedSurface s off m).read (off n + j) = (encodedBlock s n)[j]? := by
  rw [encodedSurface, range_eq_append_cons hn, read_writesOf_last, Nat.add_sub_cancel_left]
  · rw [length_encodeTexels]
    omega
  · intro k hk
    obtain ⟨h1, h2⟩ := List.mem_range'_1.mp hk
    have := hlater k (by omega) (by omega)
    rw [length_encodeTexels]
    omega

theorem read_encodedSurface_uncovered {a : Nat}
    (h : ∀ n < blocksWide s * blocksHigh s, a < off n ∨ off n + 16 ≤ a) :
    (encodedSurface s off m).read a = m.read a := by
  rw [encodedSurface, read_writesOf_uncovered]
  intro n hn
  have := h n (List.mem_range.mp hn)
  rw [length_encodeTexels]
  omega

section Completes
variable {i : Instr} {bound : Nat}
  (hexec : exec i s = orFault (encodeAll s m (blocksAt s off)) fun d => .next (s.deliver d bound))
include hexec

/-- A command that encodes the image at given offsets completes where the image's bytes all hold a value. -/
theorem encode_completes (hcap : bound ≤ s.num .dstCap) (hsome : ∀ a < imageBytes s, (s.src.read a).isSome) :
    ∃ t, exec i s = .next t ∧ StatusIsOk t ∧ KeepsInputs s t ∧ t.res.len.val.toNat = bound ∧
      t.dst = encodedSurface s off m := by
  rw [encodeAll_blocksAt hsome, orFault_ok] at hexec
  obtain ⟨hok, hlen, hkeeps⟩ := deliver_facts s (encodedSurface s off m) hcap
  exact ⟨_, hexec, hok, hkeeps, hlen, rfl⟩

theorem encode_stops {a : Nat} (ha : a < imageBytes s) (hnone : s.src.read a = none) :
    ∃ e < imageBytes s, s.src.read e = none ∧ exec i s = .fault (.srcUnwritten e) := by
  obtain ⟨e, he, hr, herr⟩ := encodeAll_blocksAt_stops ha hnone
  exact ⟨e, he, hr, by rw [hexec, herr, orFault_error]⟩

end Completes
end Encoded

/-- Settles O55: block n is written at 16n, where no other block is. -/
theorem encodeLinearWritesEveryBlock : Obligations.EncodeLinearWritesEveryBlock := by
  intro s hl hsrc hdst
  have hexec := (exec_encodeLinear s).trans (runLinear_of_checks hl hsrc hdst)
  rw [linearBlocks_eq] at hexec
  refine ⟨fun hsome => ?_, fun a ha hnone => encode_stops hexec ha hnone⟩
  obtain ⟨t, ht, hok, hkeeps, hlen, hbytes⟩ := encode_completes hexec hdst hsome
  refine ⟨t, ht, hok, hkeeps, hlen, fun n hn j hj => ?_, fun a ha => ?_⟩
  · rw [hbytes]
    exact read_encodedSurface_last (off := (· * 16)) hn hj fun k hk _ => linear_apart hk hj
  · rw [hbytes]
    exact read_encodedSurface_uncovered fun n hn => .inr (Nat.le_trans (linear_end_le hn 16) ha)

/-- Settles O57: the blocks follow the zero fill, so a byte is its last block's, or 0. -/
theorem encodeSurfaceWritesEveryBlock : Obligations.EncodeSurfaceWritesEveryBlock := by
  intro s off hd hf hoff hsrc hdst
  have hexec := (checkBc3_ok hf ▸ exec_encodeSurface s).trans (runTiled_of_placed_inside hd hoff hsrc hdst)
  refine ⟨fun hsome => ?_, fun a ha hnone => encode_stops hexec ha hnone⟩
  obtain ⟨t, ht, hok, hkeeps, hlen, hbytes⟩ := encode_completes hexec hdst hsome
  refine ⟨t, ht, hok, hkeeps, hlen, fun n hn j hj hlater => ?_, fun a ha huncovered => ?_, fun a ha => ?_⟩
  · rw [hbytes]
    exact read_encodedSurface_last hn hj hlater
  · rw [hbytes, read_encodedSurface_uncovered huncovered]
    exact read_zeroFill_of_lt _ ha
  · rw [hbytes, read_encodedSurface_uncovered fun n hn => .inr (Nat.le_trans (hoff n hn).2 ha)]
    exact agreeFrom_zeroFill _ _ a ha

/-! ### The compositions (R226) -/

theorem format_of_checkBc3_ok {s : State} (h : checkBc3 s = .ok ()) : s.num .dFormat % 64 = 0x33 := by
  by_contra hne
  rw [checkBc3_notBc3 hne] at h
  cases h

/-- Where the format table gives BC3 its 128 bits, a block of it is a payload of 16 bytes (R151). -/
theorem payloadSize_of_bc3 {s : State} (h : checkBc3 s = .ok ()) (htable : formatBppOf s.cfg 0x33 = some 128) :
    payloadSize s = 16 := by
  rw [payloadSize, surfaceBpp, hwFormat_eq, format_of_checkBc3_ok h, htable]
  rfl

section Folds
variable {ε α β γ : Type}

theorem foldExcept_map (f : β → α → Except ε β) (g : γ → α) (l : List γ) (b : β) :
    foldExcept f b (l.map g) = foldExcept (fun b c => f b (g c)) b l := by
  induction l generalizing b with
  | nil => rfl
  | cons c l ih => simp only [List.map_cons, foldExcept, ih]

/-- Where each step of one fold answers as the other's wherever that succeeds, so does the fold. -/
theorem foldExcept_ok_of_steps {f g : β → α → Except ε β} {l : List α}
    (h : ∀ a ∈ l, ∀ b c, f b a = .ok c → g b a = .ok c) {b c : β} (hf : foldExcept f b l = .ok c) :
    foldExcept g b l = .ok c := by
  induction l generalizing b with
  | nil => exact hf
  | cons a l ih =>
    cases hstep : f b a with
    | error e => simp [foldExcept, hstep] at hf
    | ok b' =>
      rw [foldExcept_cons_ok hstep] at hf
      rw [foldExcept_cons_ok (h a (by simp) b b' hstep)]
      exact ih (fun x hx => h x (by simp [hx])) hf

end Folds

/-- Blocks that another buffer holds at other offsets decode from it alike. -/
theorem decodeInto_ok_of_reads {src src' : Memory} {w h a a' : Nat} {b : Nat × Nat}
    (hreads : ∀ j < 16, src'.read (a' + j) = src.read (a + j)) {d e : Memory}
    (hd : decodeInto src w h d ⟨b, a⟩ = .ok e) : decodeInto src' w h d ⟨b, a'⟩ = .ok e := by
  unfold decodeInto at hd
  split at hd
  · cases hd
  · next blk hblk =>
    obtain ⟨hlen, hbytes⟩ := (readSrc_eq_ok _ _ _ _).mp hblk
    have hblk' : readSrc src' a' 16 = .ok blk :=
      (readSrc_eq_ok _ _ _ _).mpr ⟨hlen, fun j hj => (hreads j hj).trans (hbytes j hj)⟩
    rw [decodeInto, hblk']
    exact hd

/-- Settles O58: block n of the linear array holds the bytes of block n of the tiled surface, so both commands decode it to
the same pixels. -/
theorem decodeSurfaceIsRetileThenDecode : Obligations.DecodeSurfaceIsRetileThenDecode := by
  intro s t u v scratch cap len htable ht htok hu huok hv hvok
  obtain ⟨-, hbc3, off, hoff, d, hd, rfl⟩ := exists_offsets_of_runTiled_ok (exec_decodeSurface s ▸ ht) htok.1
  have hpay := payloadSize_of_bc3 hbc3 htable
  rw [← hpay] at hoff
  have hcopies : ∀ n < blocksWide s * blocksHigh s, ∀ j < payloadSize s,
      u.dst.read (n * payloadSize s + j) = s.src.read (off n + j) :=
    (retileToLinear_ok (s := (s.withDst scratch).withOpr (s.opr.set .dstCap cap))
      (fun n hn => (hoff n hn).1) hu huok).2
  rw [hpay] at hcopies
  have hdecoded : decodeAll ((s.withSrc u.dst).withOpr (s.opr.set .srcLen len)) (blocksAt s (· * 16)) = .ok d := by
    rw [decodeAll, blocksAt, foldExcept_map] at hd ⊢
    exact foldExcept_ok_of_steps (fun n hn _ _ => decodeInto_ok_of_reads (hcopies n (List.mem_range.mp hn))) hd
  obtain ⟨-, -, -, d', hd', rfl⟩ := exists_of_runLinear_ok (exec_decodeLinear _ ▸ hv) hvok.1
  rw [linearBlocks_eq] at hd'
  cases hdecoded.symm.trans hd'
  exact ⟨rfl, rfl⟩

/-- An ENCODE_LINEAR that answers OK encoded every block, from an image whose bytes all hold a value. -/
theorem encodeLinear_ok {s t : State} (h : exec .encodeLinear s = .next t) (h0 : StatusIsOk t) :
    (∀ a < imageBytes s, (s.src.read a).isSome) ∧
      ∀ n < blocksWide s * blocksHigh s, readSrc t.dst (n * 16) 16 = .ok (encodedBlock s n) := by
  obtain ⟨hl, hsrc, hdst, -⟩ := exists_of_runLinear_ok (exec_encodeLinear s ▸ h) h0.1
  obtain ⟨hruns, hstops⟩ := encodeLinearWritesEveryBlock s hl hsrc hdst
  have hsome : ∀ a < imageBytes s, (s.src.read a).isSome := by
    intro a ha
    by_contra hnone
    obtain ⟨e, -, -, hf⟩ := hstops a ha (by simpa using hnone)
    cases h.symm.trans hf
  obtain ⟨t', ht', -, -, -, hblocks, -⟩ := hruns hsome
  cases h.symm.trans ht'
  exact ⟨hsome, fun n hn => (readSrc_eq_ok _ _ _ _).mpr ⟨length_encodeTexels _ _ _ _ _ _, hblocks n hn⟩⟩

/-- Moves of blocks whose bytes are known are the writes of those bytes. -/
theorem movePayloads_blockMoves_of_reads {src dst : Memory} {payload count : Nat} {source target : Nat → Nat}
    {data : Nat → List Byte} (h : ∀ n < count, readSrc src (source n) payload = .ok (data n)) :
    movePayloads src payload dst (blockMoves count source target)
      = .ok (writesOf target data dst (List.range count)) := by
  rw [movePayloads, foldExcept_map]
  exact foldExcept_eq_foldl _ _ _ (fun n hn d => by simp only [movePayload, h n (List.mem_range.mp hn)]) dst

/-- Settles O59: block n of the linear array is the encoding that ENCODE_SURFACE writes at the tiled offset of block n. -/
theorem encodeSurfaceIsEncodeThenRetile : Obligations.EncodeSurfaceIsEncodeThenRetile := by
  intro s t u v scratch cap len htable ht htok hu huok hv hvok
  obtain ⟨-, hbc3, off, hoff, d, hd, rfl⟩ := exists_offsets_of_runTiled_ok (exec_encodeSurface s ▸ ht) htok.1
  have hpay := payloadSize_of_bc3 hbc3 htable
  obtain ⟨hsome, hblocks⟩ : (∀ a < imageBytes s, (s.src.read a).isSome) ∧
      ∀ n < blocksWide s * blocksHigh s, readSrc u.dst (n * 16) 16 = .ok (encodedBlock s n) :=
    encodeLinear_ok (s := (s.withDst scratch).withOpr (s.opr.set .dstCap cap)) hu huok
  cases (encodeAll_blocksAt hsome).symm.trans hd
  rw [← hpay] at hoff hblocks
  obtain ⟨hdesc, hplaced, hsrc, hdst, -⟩ := checks_of_runTiled_ok (off := off)
    (s := (s.withSrc u.dst).withOpr (s.opr.set .srcLen len)) (fun n hn => (hoff n hn).1) (exec_retileToTiled _ ▸ hv) hvok.1
  have hmoved := movePayloads_blockMoves_of_reads (dst := zeroFill s.dst (s.num .dDataSize)) (target := off) hblocks
  have hv' := (exec_retileToTiled_of_checks hdesc hplaced hsrc hdst).symm.trans hv
  obtain ⟨d', hd', rfl⟩ := exists_of_orFault_deliver hv'
  cases hmoved.symm.trans hd'
  exact ⟨rfl, rfl⟩

end Sys2Proof.Machine
end

section
/-! Proofs about how a command and a host line end (60_exceptions.md): the cause of a command's error stands in its row
of R243 and does not depend on `STATUS`, what an error changes, that it repeats, and the lines that keep the state. -/
namespace Sys2Proof.Machine

/-! ### What an error changes (R245) -/

/-- A next state that is not OK is an error of one cause. -/
theorem exec_next_of_error {i : Instr} {s t : State} (h : exec i s = .next t) (h0 : statusCode t.status ≠ 0) :
    ∃ c, t = s.raise c := by
  rcases exec_next h with hc | ⟨d, r, rfl, -⟩
  · exact hc
  · exact absurd statusCode_statusOk h0

theorem issue_next_of_error {w : Word} {s t : State} (h : issue w s = .next t) (h0 : statusCode t.status ≠ 0) :
    ∃ c, t = (s.withCmd w).raise c := by
  rcases issue_next h with hc | ⟨d, r, rfl, -⟩
  · exact hc
  · exact absurd statusCode_statusOk h0

/-- Settles O16: a next state is a completion, whose CODE is 0, or `raise` of a cause, which writes `STATUS` alone. -/
theorem errorChangesOnlyCodeAndInfo : Obligations.ErrorChangesOnlyCodeAndInfo :=
  ⟨fun _ _ _ => exec_next_of_error, fun _ _ _ => issue_next_of_error⟩

/-! ### The causes each check can report -/

/-- `(CODE, INFO)` of a cause, a row of R242's list. -/
def Cause.ending (c : Cause) : Nat × Nat := (c.code.toNat, c.info.toNat)

theorem ending_raise (s : State) (c : Cause) : ending (s.raise c) = c.ending := by
  simp [ending, Cause.ending]

/-- What `CheckAddr` can report: a mismatch where it asks for a class, and the two counts where the class that reads them
is not ruled out (40_address_engine.md R100). -/
def addrCheckCauses (cls : Option TileClass) : List Cause :=
  [.profileNotAdmitted, .tileModeRange, .bppRange, .pitchZero, .heightZero]
    ++ (if cls = none then [] else [.classMismatch])
    ++ (if cls = none ∨ cls = some .linear then [.slicesZero] else [])
    ++ (if cls = none ∨ cls = some .macroTiled then [.samplesZero] else [])

theorem checkAddr_error {cls : Option TileClass} {s : State} {c : Cause} (h : checkAddr cls s = .error c) :
    c ∈ addrCheckCauses cls := by
  have hclass {k : TileClass} (hk : ¬ (cls.isSome = true ∧ cls ≠ some k)) : cls = none ∨ cls = some k := by
    cases cls with
    | none => exact .inl rfl
    | some k' => exact .inr (by simpa using hk)
  simp only [checkAddr] at h
  split_ifs at h with _ _ hmis _ _ _ hslices hsamples
  all_goals cases h
  · simp [addrCheckCauses]
  · simp [addrCheckCauses]
  · have hsome : cls ≠ none := fun hnone => by simp [hnone] at hmis
    simp [addrCheckCauses, hsome]
  · simp [addrCheckCauses]
  · simp [addrCheckCauses]
  · simp [addrCheckCauses]
  · have := hslices.1 ▸ hclass hmis
    simp [addrCheckCauses, this]
  · have := hsamples.1 ▸ hclass hmis
    simp [addrCheckCauses, this]

theorem bankSwapWidth_error {p : Profile} {h : HalveWhile} {tm bpp ns pitch : Nat} {c : Cause}
    (he : bankSwapWidth p h tm bpp ns pitch = .error c) : c = .swapWidthZero := by
  simp only [bankSwapWidth] at he
  split at he
  · cases he; rfl
  · cases he

theorem swapBank_error {p : Profile} {h : HalveWhile} {a : AddrArgs} {ns bank : Nat} {c : Cause}
    (he : swapBank p h a ns bank = .error c) : c ∈ [Cause.swapEightBanks, .swapWidthZero] := by
  unfold swapBank at he
  split at he
  · split at he
    · cases he; decide
    · split at he
      · next hw => cases he; simp [bankSwapWidth_error hw]
      · cases he
  · cases he

/-- Only a surface of several samples is refused at the sample split (R122). -/
theorem sampleSplit_error {p : Profile} {a : AddrArgs} {c : Cause} (he : sampleSplit p a = .error c) :
    c = .sampleSplit ∧ 1 < a.numSamples := by
  by_cases hs : Splits p a
  · rw [sampleSplit_of_splits hs] at he
    split at he
    · cases he; exact ⟨rfl, hs.1⟩
    · cases he
  · rw [sampleSplit_whole hs] at he
    cases he

theorem addrMacro_error {p : Profile} {h : HalveWhile} {a : AddrArgs} {c : Cause} (he : addrMacro p h a = .error c) :
    c = .sampleSplit ∧ 1 < a.numSamples ∨ c ∈ [Cause.swapEightBanks, .swapWidthZero] := by
  cases hs : sampleSplit p a with
  | error c' =>
    cases (addrMacro_of_split_error (h := h) hs).symm.trans he
    exact .inl (sampleSplit_error hs)
  | ok sp =>
    cases hb : swapBank p h a sp.ns (bankPipe p a sp.sampleSlice / p.pipes) with
    | error c' =>
      cases (addrMacro_of_swap_error hs hb).symm.trans he
      exact .inr (swapBank_error hb)
    | ok bank => simp only [addrMacro, hs, hb, reduceCtorEq] at he

theorem address_error {cfg : Config} {a : AddrArgs} {c : Cause} (he : address cfg a = .error c) :
    c = .sampleSplit ∧ 1 < a.numSamples ∨ c ∈ [Cause.swapEightBanks, .swapWidthZero] := by
  unfold address at he
  split at he
  · cases he
  · cases he
  · exact addrMacro_error he

/-- What `CheckDescriptor` can report (41_tiling_orchestrator.md R152). -/
def descriptorCauses : List Cause :=
  [.profileNotAdmitted, .tileModeRange, .formatUnknown, .payloadBpp, .emptySurface, .pitchZero, .notSingle]

theorem checkDescriptor_error {s : State} {c : Cause} (h : checkDescriptor s = .error c) : c ∈ descriptorCauses := by
  unfold checkDescriptor at h
  split at h
  · cases h; decide
  split at h
  · cases h; decide
  split at h
  · cases h; decide
  split_ifs at h
  all_goals cases h; decide

theorem checkBc3_error {s : State} {c : Cause} (h : checkBc3 s = .error c) : c = .notBc3 := by
  unfold checkBc3 at h
  split at h
  · cases h; rfl
  · cases h

theorem checkLinear_error {s : State} {c : Cause} (h : checkLinear s = .error c) :
    c ∈ [Cause.notBc3, .emptySurface] := by
  unfold checkLinear at h
  split at h
  · next hb => cases h; simp [checkBc3_error hb]
  · split at h
    · cases h; decide
    · cases h

/-- What the offset pass can report: a block has one sample, so there is no sample split to refuse (R153). -/
def offsetCauses : List Cause := [.swapEightBanks, .swapWidthZero, .offsetWidth]

theorem tiledOffset_error {s : State} {payload : Nat} {b : Nat × Nat} {c : Cause}
    (h : tiledOffset s payload b = .error c) : c ∈ offsetCauses := by
  unfold tiledOffset at h
  split at h
  · next ha =>
    cases h
    rcases address_error ha with ⟨-, hone⟩ | hswap
    · exact absurd hone (Nat.lt_irrefl 1)
    · exact List.mem_append_left [Cause.offsetWidth] hswap
  · split at h
    · cases h
    · cases h; decide

theorem placeBlocks_error {s : State} {payload : Nat} {c : Cause} (h : placeBlocks s payload = .error c) :
    c ∈ offsetCauses := by
  obtain ⟨b, -, hb⟩ := traverseExcept_error _ _ _ h
  unfold placeBlock at hb
  split at hb
  · next ho => cases hb; exact tiledOffset_error ho
  · cases hb

theorem checkBuffers_error {s : State} {srcNeed dstNeed : Nat} {c : Cause}
    (h : checkBuffers s srcNeed dstNeed = .error c) : c ∈ [Cause.srcShort, .dstShort] := by
  unfold checkBuffers at h
  split_ifs at h
  all_goals cases h; decide

/-- What the buffer checks of a command on a tiled surface can report (R156). -/
def bufferCauses : List Cause := [.srcShort, .dstShort, .tiledRange]

theorem checkTiled_error {s : State} {payload srcNeed dstNeed : Nat} {placed : List PlacedBlock} {c : Cause}
    (h : checkTiled s payload srcNeed dstNeed placed = .error c) : c ∈ bufferCauses := by
  unfold checkTiled at h
  split at h
  · next hb => cases h; exact List.mem_append_left [Cause.tiledRange] (checkBuffers_error hb)
  · split at h
    · cases h; decide
    · cases h

/-! ### Errors of two runs that differ in `STATUS` -/

/-- Where the first answer is an error, its ending stands in the row, and the second answer is the error of the same
cause. -/
def SameErrors (row : List (Nat × Nat)) (s s' : State) (r r' : Result) : Prop :=
  ∀ t, r = .next t → statusCode t.status ≠ 0 → ∃ c, c.ending ∈ row ∧ t = s.raise c ∧ r' = .next (s'.raise c)

section SameErrors
variable {row : List (Nat × Nat)} {s s' : State}

theorem sameErrors_orRaise {α : Type} {r : Except Cause α} {k k' : α → Result}
    (herr : ∀ c, r = .error c → c.ending ∈ row) (hk : ∀ a, r = .ok a → SameErrors row s s' (k a) (k' a)) :
    SameErrors row s s' (orRaise s r k) (orRaise s' r k') := by
  cases r with
  | error c => rintro t ⟨⟩ -; exact ⟨c, herr c rfl, rfl, rfl⟩
  | ok a => exact hk a rfl

theorem sameErrors_of_ok {t : State} {r' : Result} (h : statusCode t.status = 0) :
    SameErrors row s s' (.next t) r' := by
  rintro _ ⟨⟩ h0
  exact absurd h h0

theorem sameErrors_orFault_deliver {r : Except Fault Memory} {n : Nat} {r' : Result} :
    SameErrors row s s' (orFault r fun d => .next (s.deliver d n)) r' := by
  cases r with
  | error f => rintro t ⟨⟩
  | ok d => exact sameErrors_of_ok statusCode_statusOk

variable (w : Word)

theorem sameErrors_writeAddr (hwidth : Cause.offsetWidth.ending ∈ row) (r : BitAddress) :
    SameErrors row s (s.withStatus w) (writeAddr s r) (writeAddr (s.withStatus w) r) := by
  unfold writeAddr
  rw [State.withStatus_cfg]
  split
  · exact sameErrors_of_ok statusCode_statusOk
  · rintro t ⟨⟩ -
    exact ⟨.offsetWidth, hwidth, rfl, rfl⟩

theorem sameErrors_runAddr {cls : Option TileClass} {f : AddrArgs → Except Cause BitAddress}
    (hrow : ∀ c ∈ .offsetWidth :: addrCheckCauses cls, c.ending ∈ row)
    (hf : ∀ c, f (addrOperands s) = .error c → c.ending ∈ row) :
    SameErrors row s (s.withStatus w) (runAddr cls f s) (runAddr cls f (s.withStatus w)) :=
  sameErrors_orRaise (fun c hc => hrow c (List.mem_cons_of_mem _ (checkAddr_error hc))) fun _ _ =>
    sameErrors_orRaise hf fun r _ => sameErrors_writeAddr w (hrow _ List.mem_cons_self) r

theorem sameErrors_runTiled {format : Except Cause Unit} {payload srcNeed dstNeed : Nat}
    {body : List PlacedBlock → Except Fault Memory}
    (hrow : ∀ c ∈ descriptorCauses ++ offsetCauses ++ bufferCauses, c.ending ∈ row)
    (hformat : ∀ c, format = .error c → c.ending ∈ row) :
    SameErrors row s (s.withStatus w) (runTiled s format payload srcNeed dstNeed body)
      (runTiled (s.withStatus w) format payload srcNeed dstNeed body) := by
  refine sameErrors_orRaise (fun c hc => hrow c ?_) fun _ _ => sameErrors_orRaise hformat fun _ _ =>
    sameErrors_orRaise (fun c hc => hrow c ?_) fun _ _ => sameErrors_orRaise (fun c hc => hrow c ?_) fun _ _ =>
      sameErrors_orFault_deliver
  · simp [checkDescriptor_error hc]
  · simp [placeBlocks_error hc]
  · simp [checkTiled_error hc]

theorem sameErrors_runLinear {srcNeed dstNeed : Nat} {coded : Except Fault Memory}
    (hrow : ∀ c ∈ [Cause.notBc3, .emptySurface] ++ [.srcShort, .dstShort], c.ending ∈ row) :
    SameErrors row s (s.withStatus w) (runLinear s srcNeed dstNeed coded)
      (runLinear (s.withStatus w) srcNeed dstNeed coded) :=
  sameErrors_orRaise (fun c hc => hrow c (List.mem_append_left _ (checkLinear_error hc))) fun _ _ =>
    sameErrors_orRaise (fun c hc => hrow c (List.mem_append_right _ (checkBuffers_error hc))) fun _ _ =>
      sameErrors_orFault_deliver

end SameErrors

/-- What the Macro class refuses stands in the rows of the two address commands that take its tile modes. -/
theorem ending_mem_of_macro {i : Instr} (hi : i ∈ [Instr.addr, .addrMacro]) {c : Cause} {numSamples : Nat}
    (h : c = .sampleSplit ∧ 1 < numSamples ∨ c ∈ [Cause.swapEightBanks, .swapWidthZero]) :
    c.ending ∈ errorsOfR243 i := by
  have hrows : ∀ i ∈ [Instr.addr, .addrMacro],
      ∀ c ∈ [Cause.sampleSplit, .swapEightBanks, .swapWidthZero], c.ending ∈ errorsOfR243 i := by decide
  refine hrows i hi c ?_
  rcases h with ⟨rfl, -⟩ | h
  · exact List.mem_cons_self
  · exact List.mem_cons_of_mem _ h

/-- A command's error stands in its row of R243, and the command on the machine with another `STATUS` ends in it too. -/
theorem sameErrors_exec (i : Instr) (s : State) (w : Word) :
    SameErrors (errorsOfR243 i) s (s.withStatus w) (exec i s) (exec i (s.withStatus w)) := by
  have htiled : ∀ i ∈ [Instr.retileToLinear, .retileToTiled, .decodeSurface, .encodeSurface],
      ∀ c ∈ descriptorCauses ++ offsetCauses ++ bufferCauses, c.ending ∈ errorsOfR243 i := by decide
  cases i with
  | addr =>
    exact sameErrors_runAddr w (f := address s.cfg) (by decide) fun c hc =>
      ending_mem_of_macro (by decide) (address_error hc)
  | addrLinear => exact sameErrors_runAddr w (f := fun a => .ok (addrLinear a)) (by decide) nofun
  | addrMicro => exact sameErrors_runAddr w (f := fun a => .ok (addrMicro a)) (by decide) nofun
  | addrMacro =>
    exact sameErrors_runAddr w (f := addrMacro s.cfg.profile s.cfg.halveWhile) (by decide) fun c hc =>
      ending_mem_of_macro (by decide) (addrMacro_error hc)
  | retileToLinear =>
    rw [exec_retileToLinear, exec_retileToLinear]
    exact sameErrors_runTiled w (htiled _ (by decide)) nofun
  | retileToTiled =>
    rw [exec_retileToTiled, exec_retileToTiled]
    exact sameErrors_runTiled w (htiled _ (by decide)) nofun
  | decodeBlock => exact sameErrors_of_ok statusCode_statusOk
  | encodeBlock => exact sameErrors_of_ok statusCode_statusOk
  | decodeSurface =>
    rw [exec_decodeSurface, exec_decodeSurface]
    exact sameErrors_runTiled w (htiled _ (by decide)) fun c hc => checkBc3_error hc ▸ by decide
  | encodeSurface =>
    rw [exec_encodeSurface, exec_encodeSurface]
    exact sameErrors_runTiled w (htiled _ (by decide)) fun c hc => checkBc3_error hc ▸ by decide
  | decodeLinear =>
    rw [exec_decodeLinear, exec_decodeLinear]
    exact sameErrors_runLinear w (by decide)
  | encodeLinear =>
    rw [exec_encodeLinear, exec_encodeLinear]
    exact sameErrors_runLinear w (by decide)

/-- Settles O18: a command's error has a cause of its row, OK leaves CODE and INFO 0, and an illegal word raises one of the
causes of its two tests. -/
theorem commandsRaiseOnlyTheirErrors : Obligations.CommandsRaiseOnlyTheirErrors := by
  refine ⟨fun i s t h => ?_, fun w e s hd => ⟨_, issue_of_decode_error hd s, ?_⟩⟩
  · by_cases h0 : statusCode t.status = 0
    · obtain ⟨-, hinfo, -⟩ := (successSetsValidAndNoCommandClearsIt i s t h).1 h0
      exact .inl (by simp [ending, h0, hinfo])
    · obtain ⟨c, hc, rfl, -⟩ := sameErrors_exec i s s.status t h h0
      exact .inr (ending_raise s c ▸ hc)
  · rw [ending_raise]
    cases e with
    | reservedBits => decide
    | opcode => decide

/-! ### An error repeats (R246) -/

/-- The same error once more writes the `STATUS` it finds. -/
theorem statusError_statusError (w : Word) (c : Cause) : statusError (statusError w c) c = statusError w c :=
  congrArg (statusWord c.code · c.info) (statusValid_statusError w c)

theorem State.raise_raise (s : State) (c : Cause) : (s.raise c).raise c = s.raise c :=
  congrArg s.withStatus (statusError_statusError s.status c)

/-- Settles O19: an error leaves a machine that differs in `STATUS` alone, on which the command ends in the same error. -/
theorem errorsRepeat : Obligations.ErrorsRepeat := by
  intro i s t h h0
  obtain ⟨c, -, rfl, hrepeat⟩ := sameErrors_exec i s t.status t h h0
  exact hrepeat.trans (congrArg Host.Outcome.next (s.raise_raise c))

/-! ### The lines that keep the state (R36, R37, R51, R59, R255) -/

section Reads
variable {s : State} {rest : List HostLine} {target : ReadTarget}

theorem readValue_withProgram (s : State) (rest : List HostLine) (target : ReadTarget) :
    readValue (s.withProgram rest) target = readValue s target := by cases target <;> rfl

/-- A read that has a value only takes its line (20_memory.md R59). -/
theorem step_of_read_ok {v : ReadValue} (hp : s.program = .read target :: rest) (hv : readValue s target = .ok v) :
    step s = .next (s.withProgram rest) ∧ readValue s target = .ok v :=
  ⟨by rw [step_of_cons hp rfl, runLine, readValue_withProgram, hv, orFault_ok], hv⟩

theorem step_of_read_error {f : Fault} (hp : s.program = .read target :: rest) (hv : readValue s target = .error f) :
    step s = .fault f := by
  rw [step_of_cons hp rfl, runLine, readValue_withProgram, hv, orFault_error]

end Reads

section ReadDst
variable {dst : Memory} {a n : Nat}

theorem readDst_eq_ok {bs : List Byte} (hlen : bs.length = n) (h : ∀ j < n, dst.read (a + j) = bs[j]?) :
    readDst dst a n = .ok bs := by
  rw [readDst, (dst.readBytes_eq_ok a n bs).mpr ⟨hlen, h⟩]

/-- A host's read of `DST` stops at the first offset of its range that holds no value (20_memory.md R51). -/
theorem readDst_eq_error {j : Nat} (hj : j < n) (hnone : dst.read (a + j) = none)
    (hbefore : ∀ k < j, (dst.read (a + k)).isSome) : readDst dst a n = .error (.dstUnwritten (a + j)) := by
  rw [readDst, dst.readBytes_eq_error a n j hj hnone hbefore]

end ReadDst

/-- Settles O8: an idle step and a `STATUS` line keep the state by definition, and a read's step follows its value. -/
theorem idleReadAndStatusLinesKeepTheState : Obligations.IdleReadAndStatusLinesKeepTheState := by
  intro s rest
  refine ⟨step_of_nil, fun w hp => step_of_cons hp rfl, fun target value hmem hp => ?_, fun a n bs hp hlen hbs => ?_,
    fun a n j hp hj hnone hbefore => ?_, fun n j hp hj hnone hbefore => ?_, fun hp => step_of_read_error hp rfl⟩
  · refine step_of_read_ok hp ?_
    simp only [List.mem_cons, Prod.mk.injEq, List.not_mem_nil, or_false] at hmem
    rcases hmem with ⟨rfl, rfl⟩ | ⟨rfl, rfl⟩ | ⟨rfl, rfl⟩ | ⟨rfl, rfl⟩ | ⟨rfl, rfl⟩ | ⟨rfl, rfl⟩
    all_goals rfl
  · exact step_of_read_ok hp (by rw [readValue, readDst_eq_ok hlen hbs])
  · exact step_of_read_error hp (by rw [readValue, readDst_eq_error hj hnone hbefore])
  · have hread : readDst s.dst 0 n = .error (.dstUnwritten j) := by
      simpa using readDst_eq_error (dst := s.dst) (a := 0) hj (by simpa using hnone) (by simpa using hbefore)
    rw [step_of_cons hp rfl, runLine, State.withProgram_dst, hread, orFault_error]

end Sys2Proof.Machine
end

section
/-! Proofs about reset and hazards (70_reset_and_hazards.md): what the reset line keeps, and that no command reads what an
earlier one left in `STATUS` or a result register. -/
namespace Sys2Proof.Machine

/-! ### The reset line (R270, R271) -/

/-- Settles O12: the line leaves the reset machine with the configuration and the remaining lines put back. -/
theorem resetLineKeepsTheConfiguration : Obligations.ResetLineKeepsTheConfiguration := by
  intro s rest hp
  exact ⟨resetInstance (s.withProgram rest), step_of_cons hp rfl, resetInstance_cfg _, resetInstance_status _,
    resetInstance_opr _, resetInstance_res _, resetInstance_program _⟩

/-! ### A command's own result registers (10_state.md R35) -/

/-- One address written over two result files. -/
theorem ownResultsAgree_setAddr {i : Instr} (hi : i ∈ [Instr.addr, .addrLinear, .addrMicro, .addrMacro])
    (r r' : ResultFile) (byte bit : Nat) : OwnResultsAgree i (r.setAddr byte bit) (r'.setAddr byte bit) := by
  simp only [List.mem_cons, List.not_mem_nil, or_false] at hi
  rcases hi with rfl | rfl | rfl | rfl
  all_goals exact ⟨rfl, rfl⟩

/-- One length written over two result files. -/
theorem ownResultsAgree_setLen {i : Instr}
    (hi : i ∈ [Instr.retileToLinear, .retileToTiled, .decodeSurface, .encodeSurface, .decodeLinear, .encodeLinear])
    (r r' : ResultFile) (n : Nat) : OwnResultsAgree i (r.setLen n) (r'.setLen n) := by
  simp only [List.mem_cons, List.not_mem_nil, or_false] at hi
  rcases hi with rfl | rfl | rfl | rfl | rfl | rfl
  all_goals rfl

/-! ### Two runs that differ in what earlier commands left (R272, R282) -/

/-- The machine with other result registers and another `STATUS`, as other earlier commands would have left them. -/
def State.withEarlier (s : State) (r : ResultFile) (w : Word) : State := (s.withRes r).withStatus w

@[simp] theorem State.withEarlier_dst (s : State) (r : ResultFile) (w : Word) : (s.withEarlier r w).dst = s.dst := rfl
@[simp] theorem State.withEarlier_cfg (s : State) (r : ResultFile) (w : Word) : (s.withEarlier r w).cfg = s.cfg := rfl

/-- Two answers of a command are next states with one ending and one `DST` and, when OK, the same own results, or the
same fault. -/
def SameAnswer (i : Instr) : Result → Result → Prop
  | .next t, .next t' =>
    ending t' = ending t ∧ t'.dst = t.dst ∧ (ending t = (0, 0) → OwnResultsAgree i t.res t'.res)
  | .fault f, .fault f' => f' = f
  | _, _ => False

theorem Cause.ending_ne_ok (c : Cause) : c.ending ≠ (0, 0) := by cases c <;> decide

section SameAnswer
variable {i : Instr} {s s' : State}

/-- The same error, whatever `STATUS` it found. -/
theorem sameAnswer_raise (hdst : s'.dst = s.dst) (c : Cause) :
    SameAnswer i (.next (s.raise c)) (.next (s'.raise c)) :=
  ⟨(ending_raise s' c).trans (ending_raise s c).symm, hdst, fun h => absurd (ending_raise s c ▸ h) c.ending_ne_ok⟩

theorem sameAnswer_complete (hdst : s'.dst = s.dst) (h : OwnResultsAgree i s.res s'.res) :
    SameAnswer i (.next s.complete) (.next s'.complete) := ⟨rfl, hdst, fun _ => h⟩

/-- Both runs meet the same check; where it lets them go on, what follows decides. -/
theorem sameAnswer_orRaise {α : Type} {x : Except Cause α} {k k' : α → Result} (hdst : s'.dst = s.dst)
    (hk : ∀ a, SameAnswer i (k a) (k' a)) : SameAnswer i (orRaise s x k) (orRaise s' x k') := by
  cases x with
  | error c => exact sameAnswer_raise hdst c
  | ok a => exact hk a

theorem sameAnswer_writeAddr (hdst : s'.dst = s.dst) (hcfg : s'.cfg = s.cfg)
    (hi : i ∈ [Instr.addr, .addrLinear, .addrMicro, .addrMacro]) (a : BitAddress) :
    SameAnswer i (writeAddr s a) (writeAddr s' a) := by
  unfold writeAddr
  rw [hcfg]
  split
  · exact sameAnswer_complete hdst (ownResultsAgree_setAddr hi _ _ _ _)
  · exact sameAnswer_raise hdst .offsetWidth

/-- A delivery replaces `DST` and `RES_LEN`. -/
theorem sameAnswer_orFault_deliver
    (hi : i ∈ [Instr.retileToLinear, .retileToTiled, .decodeSurface, .encodeSurface, .decodeLinear, .encodeLinear])
    (x : Except Fault Memory) (n : Nat) :
    SameAnswer i (orFault x fun d => .next (s.deliver d n)) (orFault x fun d => .next (s'.deliver d n)) := by
  cases x with
  | error f => rfl
  | ok d => exact sameAnswer_complete rfl (ownResultsAgree_setLen hi _ _ n)

end SameAnswer

section Shapes
variable {i : Instr} (s : State) (r : ResultFile) (w : Word)

theorem sameAnswer_runAddr (hi : i ∈ [Instr.addr, .addrLinear, .addrMicro, .addrMacro]) (cls : Option TileClass)
    (f : AddrArgs → Except Cause BitAddress) :
    SameAnswer i (runAddr cls f s) (runAddr cls f (s.withEarlier r w)) :=
  have hdst := s.withEarlier_dst r w
  sameAnswer_orRaise hdst fun _ => sameAnswer_orRaise hdst fun a =>
    sameAnswer_writeAddr hdst (s.withEarlier_cfg r w) hi a

theorem sameAnswer_runTiled
    (hi : i ∈ [Instr.retileToLinear, .retileToTiled, .decodeSurface, .encodeSurface, .decodeLinear, .encodeLinear])
    (format : Except Cause Unit) (payload srcNeed dstNeed : Nat) (body : List PlacedBlock → Except Fault Memory) :
    SameAnswer i (runTiled s format payload srcNeed dstNeed body)
      (runTiled (s.withEarlier r w) format payload srcNeed dstNeed body) :=
  have hdst := s.withEarlier_dst r w
  sameAnswer_orRaise hdst fun _ => sameAnswer_orRaise hdst fun _ => sameAnswer_orRaise hdst fun _ =>
    sameAnswer_orRaise hdst fun _ => sameAnswer_orFault_deliver hi _ _

theorem sameAnswer_runLinear
    (hi : i ∈ [Instr.retileToLinear, .retileToTiled, .decodeSurface, .encodeSurface, .decodeLinear, .encodeLinear])
    (srcNeed dstNeed : Nat) (coded : Except Fault Memory) :
    SameAnswer i (runLinear s srcNeed dstNeed coded) (runLinear (s.withEarlier r w) srcNeed dstNeed coded) :=
  have hdst := s.withEarlier_dst r w
  sameAnswer_orRaise hdst fun _ => sameAnswer_orRaise hdst fun _ => sameAnswer_orFault_deliver hi _ _

/-- No check, address, payload or coded byte of a command comes from `STATUS` or a result register. -/
theorem exec_withEarlier (i : Instr) : SameAnswer i (exec i s) (exec i (s.withEarlier r w)) := by
  cases i with
  | addr => exact sameAnswer_runAddr s r w (by decide) none (address s.cfg)
  | addrLinear => exact sameAnswer_runAddr s r w (by decide) (some .linear) fun a => .ok (addrLinear a)
  | addrMicro => exact sameAnswer_runAddr s r w (by decide) (some .microTiled) fun a => .ok (addrMicro a)
  | addrMacro =>
    exact sameAnswer_runAddr s r w (by decide) (some .macroTiled) (addrMacro s.cfg.profile s.cfg.halveWhile)
  | retileToLinear =>
    rw [exec_retileToLinear, exec_retileToLinear]
    exact sameAnswer_runTiled s r w (by decide) _ _ _ _ _
  | retileToTiled =>
    rw [exec_retileToTiled, exec_retileToTiled]
    exact sameAnswer_runTiled s r w (by decide) _ _ _ _ _
  | decodeBlock => exact sameAnswer_complete rfl rfl
  | encodeBlock => exact sameAnswer_complete rfl rfl
  | decodeSurface =>
    rw [exec_decodeSurface, exec_decodeSurface]
    exact sameAnswer_runTiled s r w (by decide) _ _ _ _ _
  | encodeSurface =>
    rw [exec_encodeSurface, exec_encodeSurface]
    exact sameAnswer_runTiled s r w (by decide) _ _ _ _ _
  | decodeLinear =>
    rw [exec_decodeLinear, exec_decodeLinear]
    exact sameAnswer_runLinear s r w (by decide) _ _ _
  | encodeLinear =>
    rw [exec_encodeLinear, exec_encodeLinear]
    exact sameAnswer_runLinear s r w (by decide) _ _ _

end Shapes

/-- Settles O23: each family's shape runs alike on the two machines, and a completion's own results are written over. -/
theorem commandsIgnoreEarlierResults : Obligations.CommandsIgnoreEarlierResults := fun i s r w =>
  exec_withEarlier s r w i

end Sys2Proof.Machine
end
